-- ==== Sys2Proof/Word.lean ====
section
/-! DEFINITION. The two word types of the core: a byte (the data width) and a 16-bit address (00_scope R5, R7). -/

namespace Sys2Proof

/-- The data width, and the width of `A`, `X`, `Y`, `S` (R5, R20, R21). -/
abbrev Byte := BitVec 8

/-- The address width, and the width of `PC` (R5, R22). -/
abbrev Word := BitVec 16

end Sys2Proof
end

