-- ==== Sys2Proof/Syntax.lean ====
section
/-! DEFINITION. The instructions as syntax: the addressing modes of 30_encoding R81 and one inductive `Instr` for the
256 rows of opcode_table.json. A constructor is one mnemonic (or one rule's group of rows), its argument the operand form. -/

namespace Sys2Proof

/-- The thirteen formats of R81. -/
inductive Mode where
  | imp | acc | imm | zp | zpx | zpy | abs | absx | absy | ind | indx | indy | rel
  deriving DecidableEq, Repr

/-- An operand in memory (R81): the operand bytes of the instruction and how the address is formed from them. -/
inductive MemOperand where
  | zp (z : Byte)
  | zpx (z : Byte)
  | zpy (z : Byte)
  | abs (w : Word)
  | absx (w : Word)
  | absy (w : Word)
  | indx (z : Byte)
  | indy (z : Byte)
  deriving DecidableEq, Repr

/-- An operand that is read: the immediate byte itself, or a byte of memory. -/
inductive ReadOperand where
  | imm (v : Byte)
  | mem (m : MemOperand)
  deriving DecidableEq, Repr

/-- The operand of a shift or rotate: the accumulator, or a byte of memory. -/
inductive ShiftOperand where
  | acc
  | mem (m : MemOperand)
  deriving DecidableEq, Repr

/-- The instruction set (R84). A `Fin` argument numbers the opcode values of a rule that lists several with one
behaviour, in the rule's order. -/
inductive Instr where
  -- 41: loads, stores, transfers
  | lda (m : ReadOperand) | ldx (m : ReadOperand) | ldy (m : ReadOperand)
  | sta (m : MemOperand) | stx (m : MemOperand) | sty (m : MemOperand)
  | tax | tay | txa | tya | tsx | txs
  -- 42: arithmetic, logic, compare, bit test
  | adc (m : ReadOperand) | sbc (m : ReadOperand) | and (m : ReadOperand) | ora (m : ReadOperand) | eor (m : ReadOperand)
  | cmp (m : ReadOperand) | cpx (m : ReadOperand) | cpy (m : ReadOperand) | bit (m : MemOperand)
  -- 43: shifts, rotates, increments, decrements
  | asl (m : ShiftOperand) | lsr (m : ShiftOperand) | rol (m : ShiftOperand) | ror (m : ShiftOperand)
  | inc (m : MemOperand) | dec (m : MemOperand) | inx | iny | dex | dey
  -- 44: jumps, call and return, branches
  | jmp (w : Word) | jmpInd (w : Word) | jsr (w : Word) | rts
  | bpl (r : Byte) | bmi (r : Byte) | bvc (r : Byte) | bvs (r : Byte)
  | bcc (r : Byte) | bcs (r : Byte) | bne (r : Byte) | beq (r : Byte)
  -- 45: stack, flags, NOP, system
  | pha | php | pla | plp
  | clc | sec | cli | sei | clv | cld | sed | nop | brk | rti
  -- 46: admitted unofficial opcodes
  | lax (m : MemOperand) | sax (m : MemOperand)
  | dcp (m : MemOperand) | isc (m : MemOperand) | slo (m : MemOperand)
  | rla (m : MemOperand) | sre (m : MemOperand) | rra (m : MemOperand)
  | anc (k : Fin 2) (v : Byte) | alr (v : Byte) | arr (v : Byte) | axs (v : Byte)
  | nopImp (k : Fin 6) | nopImm (k : Fin 5) (v : Byte) | nopZp (k : Fin 3) (z : Byte) | nopZpx (k : Fin 6) (z : Byte)
  | nopAbs (w : Word) | nopAbsx (k : Fin 6) (w : Word)
  -- 46 R298 and 93 U1 to U9: the 21 unlisted opcode values
  | kil (k : Fin 12) | xaa (v : Byte) | lxa (v : Byte) | usbc (v : Byte)
  | ahxIndy (z : Byte) | ahxAbsy (w : Word) | shy (w : Word) | shx (w : Word) | tas (w : Word) | las (w : Word)
  deriving DecidableEq, Repr

end Sys2Proof
end

