-- ==== Sys2Proof/WellFormed.lean ====
section
/-! DEFINITION. Which operand forms each instruction has (the encoding tables of files 41 to 46). The operand types of
Syntax admit more forms than an instruction has opcodes for; `Instr.wellFormed` refuses those. -/

namespace Sys2Proof

/-- The format of a memory operand. -/
def MemOperand.mode : MemOperand → Mode
  | .zp _ => .zp | .zpx _ => .zpx | .zpy _ => .zpy | .abs _ => .abs
  | .absx _ => .absx | .absy _ => .absy | .indx _ => .indx | .indy _ => .indy

/-- The format of a read operand. -/
def ReadOperand.mode : ReadOperand → Mode
  | .imm _ => .imm | .mem m => m.mode

/-- The format of a shift's operand. -/
def ShiftOperand.mode : ShiftOperand → Mode
  | .acc => .acc | .mem m => m.mode

/-- The eight forms of LDA, ADC, SBC, AND, ORA, EOR, CMP (R161, R182 to R187). -/
def aluModes : List Mode := [.imm, .zp, .zpx, .abs, .absx, .absy, .indx, .indy]

/-- The seven forms of STA (R164) and of the combined read-modify-write instructions (R282 to R287). -/
def storeModes : List Mode := [.zp, .zpx, .abs, .absx, .absy, .indx, .indy]

/-- The memory forms of the shifts, INC and DEC (R202 to R207). -/
def rmwModes : List Mode := [.zp, .zpx, .abs, .absx]

/-- An instruction is well formed when its operand has a form that instruction's rule lists. -/
def Instr.wellFormed : Instr → Bool
  | .lda m | .adc m | .sbc m | .and m | .ora m | .eor m | .cmp m => aluModes.contains m.mode
  | .ldx m => [Mode.imm, .zp, .zpy, .abs, .absy].contains m.mode
  | .ldy m => [Mode.imm, .zp, .zpx, .abs, .absx].contains m.mode
  | .sta m | .dcp m | .isc m | .slo m | .rla m | .sre m | .rra m => storeModes.contains m.mode
  | .stx m => [Mode.zp, .zpy, .abs].contains m.mode
  | .sty m => [Mode.zp, .zpx, .abs].contains m.mode
  | .cpx m | .cpy m => [Mode.imm, .zp, .abs].contains m.mode
  | .bit m => [Mode.zp, .abs].contains m.mode
  | .asl m | .lsr m | .rol m | .ror m => (Mode.acc :: rmwModes).contains m.mode
  | .inc m | .dec m => rmwModes.contains m.mode
  | .lax m => [Mode.zp, .zpy, .abs, .absy, .indx, .indy].contains m.mode
  | .sax m => [Mode.zp, .zpy, .abs, .indx].contains m.mode
  | .tax | .tay | .txa | .tya | .tsx | .txs | .inx | .iny | .dex | .dey
  | .jmp _ | .jmpInd _ | .jsr _ | .rts
  | .bpl _ | .bmi _ | .bvc _ | .bvs _ | .bcc _ | .bcs _ | .bne _ | .beq _
  | .pha | .php | .pla | .plp | .clc | .sec | .cli | .sei | .clv | .cld | .sed | .nop | .brk | .rti
  | .anc _ _ | .alr _ | .arr _ | .axs _
  | .nopImp _ | .nopImm _ _ | .nopZp _ _ | .nopZpx _ _ | .nopAbs _ | .nopAbsx _ _
  | .kil _ | .xaa _ | .lxa _ | .usbc _ | .ahxIndy _ | .ahxAbsy _ | .shy _ | .shx _ | .tas _ | .las _ => true

/-- The format of an instruction (the `format` column of opcode_table.json). -/
def Instr.mode : Instr → Mode
  | .lda m | .ldx m | .ldy m | .adc m | .sbc m | .and m | .ora m | .eor m | .cmp m | .cpx m | .cpy m => m.mode
  | .sta m | .stx m | .sty m | .bit m | .inc m | .dec m | .lax m | .sax m
  | .dcp m | .isc m | .slo m | .rla m | .sre m | .rra m => m.mode
  | .asl m | .lsr m | .rol m | .ror m => m.mode
  | .tax | .tay | .txa | .tya | .tsx | .txs | .inx | .iny | .dex | .dey | .rts
  | .pha | .php | .pla | .plp | .clc | .sec | .cli | .sei | .clv | .cld | .sed | .nop | .brk | .rti
  | .nopImp _ | .kil _ => .imp
  | .jmp _ | .jsr _ | .nopAbs _ => .abs
  | .jmpInd _ => .ind
  | .bpl _ | .bmi _ | .bvc _ | .bvs _ | .bcc _ | .bcs _ | .bne _ | .beq _ => .rel
  | .anc _ _ | .alr _ | .arr _ | .axs _ | .nopImm _ _ | .xaa _ | .lxa _ | .usbc _ => .imm
  | .nopZp _ _ => .zp
  | .nopZpx _ _ => .zpx
  | .nopAbsx _ _ | .shy _ => .absx
  | .ahxIndy _ => .indy
  | .ahxAbsy _ | .shx _ | .tas _ | .las _ => .absy

/-- The length column of R81. -/
def Mode.length : Mode → Nat
  | .imp | .acc => 1
  | .imm | .zp | .zpx | .zpy | .indx | .indy | .rel => 2
  | .abs | .absx | .absy | .ind => 3

/-- The number of bytes of an instruction (R80, R83). -/
def Instr.length (i : Instr) : Nat := i.mode.length

end Sys2Proof
end

