-- ==== Sys2Proof/Decode.lean ====
section
/-! DEFINITION. The decoder: bytes to an instruction, from the opcode map of 30_encoding R84; and after it the encoder,
from the opcode tables of the instructions' own rules. The byte helpers of R6 and R7 stand here too. -/

namespace Sys2Proof

/-! ## Bytes and words (R6, R7) -/

/-- `hi:lo` (R6). -/
def join (hi lo : Byte) : Word := hi ++ lo

/-- `lo(w) = w[7:0]`. -/
def loByte (w : Word) : Byte := w.extractLsb' 0 8

/-- `hi(w) = w[15:8]`. -/
def hiByte (w : Word) : Byte := w.extractLsb' 8 8

/-- `sext_16(b)` (R7): `$FF00 | b` when bit 7 is set. -/
def sext16 (b : Byte) : Word := b.signExtend 16

/-! ## The opcode map -/

/-- One cell of the map: an instruction of one byte, or what the operand byte or operand word makes of the opcode. -/
inductive Entry where
  | one (i : Instr)
  | two (f : Byte → Instr)
  | three (f : Word → Instr)

/-- Why bytes are no instruction: the list ends before the instruction does. Every opcode value is in the map (R86). -/
inductive DecodeError where
  | truncated
  deriving DecidableEq, Repr

/-- The operand of a read instruction, when it is in memory. -/
def rd (f : ReadOperand → Instr) (m : MemOperand) : Instr := f (.mem m)

/-- The operand of a shift, when it is in memory. -/
def sh (f : ShiftOperand → Instr) (m : MemOperand) : Instr := f (.mem m)

/-- The columns of R81, one entry builder each. -/
def Entry.imm (f : ReadOperand → Instr) : Entry := .two fun v => f (.imm v)
def Entry.zp (f : MemOperand → Instr) : Entry := .two fun z => f (.zp z)
def Entry.zpx (f : MemOperand → Instr) : Entry := .two fun z => f (.zpx z)
def Entry.zpy (f : MemOperand → Instr) : Entry := .two fun z => f (.zpy z)
def Entry.abs (f : MemOperand → Instr) : Entry := .three fun w => f (.abs w)
def Entry.absx (f : MemOperand → Instr) : Entry := .three fun w => f (.absx w)
def Entry.absy (f : MemOperand → Instr) : Entry := .three fun w => f (.absy w)
def Entry.indx (f : MemOperand → Instr) : Entry := .two fun z => f (.indx z)
def Entry.indy (f : MemOperand → Instr) : Entry := .two fun z => f (.indy z)

/-- R84: the row of the map for a high nibble; a row's columns are the low nibbles in order. -/
def mapRow : Nat → List Entry
  | 0 => [ -- 0x
      .one .brk, .indx (rd .ora), .one (.kil 0), .indx .slo,
      .two (.nopZp 0), .zp (rd .ora), .zp (sh .asl), .zp .slo,
      .one .php, .imm .ora, .one (.asl .acc), .two (.anc 0),
      .three .nopAbs, .abs (rd .ora), .abs (sh .asl), .abs .slo]
  | 1 => [ -- 1x
      .two .bpl, .indy (rd .ora), .one (.kil 1), .indy .slo,
      .two (.nopZpx 0), .zpx (rd .ora), .zpx (sh .asl), .zpx .slo,
      .one .clc, .absy (rd .ora), .one (.nopImp 0), .absy .slo,
      .three (.nopAbsx 0), .absx (rd .ora), .absx (sh .asl), .absx .slo]
  | 2 => [ -- 2x
      .three .jsr, .indx (rd .and), .one (.kil 2), .indx .rla,
      .zp .bit, .zp (rd .and), .zp (sh .rol), .zp .rla,
      .one .plp, .imm .and, .one (.rol .acc), .two (.anc 1),
      .abs .bit, .abs (rd .and), .abs (sh .rol), .abs .rla]
  | 3 => [ -- 3x
      .two .bmi, .indy (rd .and), .one (.kil 3), .indy .rla,
      .two (.nopZpx 1), .zpx (rd .and), .zpx (sh .rol), .zpx .rla,
      .one .sec, .absy (rd .and), .one (.nopImp 1), .absy .rla,
      .three (.nopAbsx 1), .absx (rd .and), .absx (sh .rol), .absx .rla]
  | 4 => [ -- 4x
      .one .rti, .indx (rd .eor), .one (.kil 4), .indx .sre,
      .two (.nopZp 1), .zp (rd .eor), .zp (sh .lsr), .zp .sre,
      .one .pha, .imm .eor, .one (.lsr .acc), .two .alr,
      .three .jmp, .abs (rd .eor), .abs (sh .lsr), .abs .sre]
  | 5 => [ -- 5x
      .two .bvc, .indy (rd .eor), .one (.kil 5), .indy .sre,
      .two (.nopZpx 2), .zpx (rd .eor), .zpx (sh .lsr), .zpx .sre,
      .one .cli, .absy (rd .eor), .one (.nopImp 2), .absy .sre,
      .three (.nopAbsx 2), .absx (rd .eor), .absx (sh .lsr), .absx .sre]
  | 6 => [ -- 6x
      .one .rts, .indx (rd .adc), .one (.kil 6), .indx .rra,
      .two (.nopZp 2), .zp (rd .adc), .zp (sh .ror), .zp .rra,
      .one .pla, .imm .adc, .one (.ror .acc), .two .arr,
      .three .jmpInd, .abs (rd .adc), .abs (sh .ror), .abs .rra]
  | 7 => [ -- 7x
      .two .bvs, .indy (rd .adc), .one (.kil 7), .indy .rra,
      .two (.nopZpx 3), .zpx (rd .adc), .zpx (sh .ror), .zpx .rra,
      .one .sei, .absy (rd .adc), .one (.nopImp 3), .absy .rra,
      .three (.nopAbsx 3), .absx (rd .adc), .absx (sh .ror), .absx .rra]
  | 8 => [ -- 8x
      .two (.nopImm 0), .indx .sta, .two (.nopImm 1), .indx .sax,
      .zp .sty, .zp .sta, .zp .stx, .zp .sax,
      .one .dey, .two (.nopImm 2), .one .txa, .two .xaa,
      .abs .sty, .abs .sta, .abs .stx, .abs .sax]
  | 9 => [ -- 9x
      .two .bcc, .indy .sta, .one (.kil 8), .two .ahxIndy,
      .zpx .sty, .zpx .sta, .zpy .stx, .zpy .sax,
      .one .tya, .absy .sta, .one .txs, .three .tas,
      .three .shy, .absx .sta, .three .shx, .three .ahxAbsy]
  | 10 => [ -- Ax
      .imm .ldy, .indx (rd .lda), .imm .ldx, .indx .lax,
      .zp (rd .ldy), .zp (rd .lda), .zp (rd .ldx), .zp .lax,
      .one .tay, .imm .lda, .one .tax, .two .lxa,
      .abs (rd .ldy), .abs (rd .lda), .abs (rd .ldx), .abs .lax]
  | 11 => [ -- Bx
      .two .bcs, .indy (rd .lda), .one (.kil 9), .indy .lax,
      .zpx (rd .ldy), .zpx (rd .lda), .zpy (rd .ldx), .zpy .lax,
      .one .clv, .absy (rd .lda), .one .tsx, .three .las,
      .absx (rd .ldy), .absx (rd .lda), .absy (rd .ldx), .absy .lax]
  | 12 => [ -- Cx
      .imm .cpy, .indx (rd .cmp), .two (.nopImm 3), .indx .dcp,
      .zp (rd .cpy), .zp (rd .cmp), .zp .dec, .zp .dcp,
      .one .iny, .imm .cmp, .one .dex, .two .axs,
      .abs (rd .cpy), .abs (rd .cmp), .abs .dec, .abs .dcp]
  | 13 => [ -- Dx
      .two .bne, .indy (rd .cmp), .one (.kil 10), .indy .dcp,
      .two (.nopZpx 4), .zpx (rd .cmp), .zpx .dec, .zpx .dcp,
      .one .cld, .absy (rd .cmp), .one (.nopImp 4), .absy .dcp,
      .three (.nopAbsx 4), .absx (rd .cmp), .absx .dec, .absx .dcp]
  | 14 => [ -- Ex
      .imm .cpx, .indx (rd .sbc), .two (.nopImm 4), .indx .isc,
      .zp (rd .cpx), .zp (rd .sbc), .zp .inc, .zp .isc,
      .one .inx, .imm .sbc, .one .nop, .two .usbc,
      .abs (rd .cpx), .abs (rd .sbc), .abs .inc, .abs .isc]
  | 15 => [ -- Fx
      .two .beq, .indy (rd .sbc), .one (.kil 11), .indy .isc,
      .two (.nopZpx 5), .zpx (rd .sbc), .zpx .inc, .zpx .isc,
      .one .sed, .absy (rd .sbc), .one (.nopImp 5), .absy .isc,
      .three (.nopAbsx 5), .absx (rd .sbc), .absx .inc, .absx .isc]
  | _ => []

/-- The map's cell for an opcode byte (R84). -/
def entryOf (op : Byte) : Option Entry := (mapRow (op.toNat / 16))[op.toNat % 16]?

/-- The decoder: the instruction at the front of a byte list, and the bytes after it (R80, R82, R83). The low byte of
an operand word comes first (R55). -/
def decode : List Byte → Except DecodeError (Instr × List Byte)
  | [] => .error .truncated
  | op :: rest =>
    match entryOf op, rest with
    | some (.one i), rest => .ok (i, rest)
    | some (.two f), b :: rest => .ok (f b, rest)
    | some (.three f), l :: h :: rest => .ok (f (join h l), rest)
    | _, _ => .error .truncated

/-- The instruction alone, of the decoder's answer. -/
def decodeInstr (bs : List Byte) : Option Instr :=
  match decode bs with
  | .ok (i, _) => some i
  | .error _ => none

/-- The three bytes an instruction whose bits are `w` occupies, the first at the lowest address; every bit from
`nbits` on is 0. -/
def tableBytes (nbits w : Nat) : List Byte :=
  let v := w % 2 ^ nbits
  [BitVec.ofNat 8 v, BitVec.ofNat 8 (v / 2 ^ 8), BitVec.ofNat 8 (v / 2 ^ 16)]

/-- The decoder on a word numbered as opcode_table.json numbers it: byte 0 is bits 7 to 0. -/
def decodeTableWord (nbits w : Nat) : Option Instr := decodeInstr (tableBytes nbits w)

/-! ## The encoder -/

/-- The eight opcodes of an instruction with the forms `aluModes`, in the order its rule's table lists them. -/
def aluOpcode (im z zx ab ax ay ix iy : Byte) (m : Mode) : Option Byte :=
  [(Mode.imm, im), (.zp, z), (.zpx, zx), (.abs, ab), (.absx, ax), (.absy, ay), (.indx, ix), (.indy, iy)].lookup m

/-- The opcodes of a combined read-modify-write instruction (46_unofficial's table): `base` plus the column's offset. -/
def comboOpcode (base : Byte) (m : Mode) : Option Byte :=
  ([(Mode.zp, 0x07), (.zpx, 0x17), (.abs, 0x0F), (.absx, 0x1F), (.absy, 0x1B), (.indx, 0x03), (.indy, 0x13)].lookup m).map
    (base + ·)

/-- The opcode byte of an instruction, from the encoding table of its own rule; none where the rule has no such form. -/
def opcode : Instr → Option Byte
  -- R161 to R166
  | .lda m => aluOpcode 0xA9 0xA5 0xB5 0xAD 0xBD 0xB9 0xA1 0xB1 m.mode
  | .ldx m => [(Mode.imm, 0xA2), (.zp, 0xA6), (.zpy, 0xB6), (.abs, 0xAE), (.absy, 0xBE)].lookup m.mode
  | .ldy m => [(Mode.imm, 0xA0), (.zp, 0xA4), (.zpx, 0xB4), (.abs, 0xAC), (.absx, 0xBC)].lookup m.mode
  | .sta m => [(Mode.zp, 0x85), (.zpx, 0x95), (.abs, 0x8D), (.absx, 0x9D), (.absy, 0x99), (.indx, 0x81), (.indy, 0x91)].lookup m.mode
  | .stx m => [(Mode.zp, 0x86), (.zpy, 0x96), (.abs, 0x8E)].lookup m.mode
  | .sty m => [(Mode.zp, 0x84), (.zpx, 0x94), (.abs, 0x8C)].lookup m.mode
  -- R167 to R172
  | .tax => some 0xAA | .tay => some 0xA8 | .txa => some 0x8A | .tya => some 0x98 | .tsx => some 0xBA | .txs => some 0x9A
  -- R182 to R190
  | .adc m => aluOpcode 0x69 0x65 0x75 0x6D 0x7D 0x79 0x61 0x71 m.mode
  | .sbc m => aluOpcode 0xE9 0xE5 0xF5 0xED 0xFD 0xF9 0xE1 0xF1 m.mode
  | .and m => aluOpcode 0x29 0x25 0x35 0x2D 0x3D 0x39 0x21 0x31 m.mode
  | .ora m => aluOpcode 0x09 0x05 0x15 0x0D 0x1D 0x19 0x01 0x11 m.mode
  | .eor m => aluOpcode 0x49 0x45 0x55 0x4D 0x5D 0x59 0x41 0x51 m.mode
  | .cmp m => aluOpcode 0xC9 0xC5 0xD5 0xCD 0xDD 0xD9 0xC1 0xD1 m.mode
  | .cpx m => [(Mode.imm, 0xE0), (.zp, 0xE4), (.abs, 0xEC)].lookup m.mode
  | .cpy m => [(Mode.imm, 0xC0), (.zp, 0xC4), (.abs, 0xCC)].lookup m.mode
  | .bit m => [(Mode.zp, 0x24), (.abs, 0x2C)].lookup m.mode
  -- R202 to R211
  | .asl m => [(Mode.acc, 0x0A), (.zp, 0x06), (.zpx, 0x16), (.abs, 0x0E), (.absx, 0x1E)].lookup m.mode
  | .lsr m => [(Mode.acc, 0x4A), (.zp, 0x46), (.zpx, 0x56), (.abs, 0x4E), (.absx, 0x5E)].lookup m.mode
  | .rol m => [(Mode.acc, 0x2A), (.zp, 0x26), (.zpx, 0x36), (.abs, 0x2E), (.absx, 0x3E)].lookup m.mode
  | .ror m => [(Mode.acc, 0x6A), (.zp, 0x66), (.zpx, 0x76), (.abs, 0x6E), (.absx, 0x7E)].lookup m.mode
  | .inc m => [(Mode.zp, 0xE6), (.zpx, 0xF6), (.abs, 0xEE), (.absx, 0xFE)].lookup m.mode
  | .dec m => [(Mode.zp, 0xC6), (.zpx, 0xD6), (.abs, 0xCE), (.absx, 0xDE)].lookup m.mode
  | .inx => some 0xE8 | .iny => some 0xC8 | .dex => some 0xCA | .dey => some 0x88
  -- R220 to R232
  | .jmp _ => some 0x4C | .jmpInd _ => some 0x6C | .jsr _ => some 0x20 | .rts => some 0x60
  | .bpl _ => some 0x10 | .bmi _ => some 0x30 | .bvc _ => some 0x50 | .bvs _ => some 0x70
  | .bcc _ => some 0x90 | .bcs _ => some 0xB0 | .bne _ => some 0xD0 | .beq _ => some 0xF0
  -- R250 to R263
  | .pha => some 0x48 | .php => some 0x08 | .pla => some 0x68 | .plp => some 0x28
  | .clc => some 0x18 | .sec => some 0x38 | .cli => some 0x58 | .sei => some 0x78
  | .clv => some 0xB8 | .cld => some 0xD8 | .sed => some 0xF8
  | .nop => some 0xEA | .brk => some 0x00 | .rti => some 0x40
  -- R280 to R297
  | .lax m => [(Mode.zp, 0xA7), (.zpy, 0xB7), (.abs, 0xAF), (.absy, 0xBF), (.indx, 0xA3), (.indy, 0xB3)].lookup m.mode
  | .sax m => [(Mode.zp, 0x87), (.zpy, 0x97), (.abs, 0x8F), (.indx, 0x83)].lookup m.mode
  | .slo m => comboOpcode 0x00 m.mode
  | .rla m => comboOpcode 0x20 m.mode
  | .sre m => comboOpcode 0x40 m.mode
  | .rra m => comboOpcode 0x60 m.mode
  | .dcp m => comboOpcode 0xC0 m.mode
  | .isc m => comboOpcode 0xE0 m.mode
  | .anc k _ => [0x0B, 0x2B][k.val]?
  | .alr _ => some 0x4B | .arr _ => some 0x6B | .axs _ => some 0xCB
  | .nopImp k => [0x1A, 0x3A, 0x5A, 0x7A, 0xDA, 0xFA][k.val]?
  | .nopImm k _ => [0x80, 0x82, 0x89, 0xC2, 0xE2][k.val]?
  | .nopZp k _ => [0x04, 0x44, 0x64][k.val]?
  | .nopZpx k _ => [0x14, 0x34, 0x54, 0x74, 0xD4, 0xF4][k.val]?
  | .nopAbs _ => some 0x0C
  | .nopAbsx k _ => [0x1C, 0x3C, 0x5C, 0x7C, 0xDC, 0xFC][k.val]?
  -- R86, R298
  | .kil k => [0x02, 0x12, 0x22, 0x32, 0x42, 0x52, 0x62, 0x72, 0x92, 0xB2, 0xD2, 0xF2][k.val]?
  | .xaa _ => some 0x8B | .lxa _ => some 0xAB | .usbc _ => some 0xEB
  | .ahxIndy _ => some 0x93 | .ahxAbsy _ => some 0x9F
  | .shy _ => some 0x9C | .shx _ => some 0x9E | .tas _ => some 0x9B | .las _ => some 0xBB

/-- An operand word as bytes, the low byte first (R55). -/
def wordBytes (w : Word) : List Byte := [loByte w, hiByte w]

/-- The operand bytes of a memory operand (R81). -/
def MemOperand.bytes : MemOperand → List Byte
  | .zp z | .zpx z | .zpy z | .indx z | .indy z => [z]
  | .abs w | .absx w | .absy w => wordBytes w

/-- The operand bytes of a read operand. -/
def ReadOperand.bytes : ReadOperand → List Byte
  | .imm v => [v] | .mem m => m.bytes

/-- The operand bytes of a shift's operand. -/
def ShiftOperand.bytes : ShiftOperand → List Byte
  | .acc => [] | .mem m => m.bytes

/-- The operand bytes of an instruction. -/
def operandBytes : Instr → List Byte
  | .lda m | .ldx m | .ldy m | .adc m | .sbc m | .and m | .ora m | .eor m | .cmp m | .cpx m | .cpy m => m.bytes
  | .sta m | .stx m | .sty m | .bit m | .inc m | .dec m | .lax m | .sax m
  | .dcp m | .isc m | .slo m | .rla m | .sre m | .rra m => m.bytes
  | .asl m | .lsr m | .rol m | .ror m => m.bytes
  | .tax | .tay | .txa | .tya | .tsx | .txs | .inx | .iny | .dex | .dey | .rts
  | .pha | .php | .pla | .plp | .clc | .sec | .cli | .sei | .clv | .cld | .sed | .nop | .brk | .rti
  | .nopImp _ | .kil _ => []
  | .jmp w | .jmpInd w | .jsr w | .nopAbs w | .nopAbsx _ w
  | .ahxAbsy w | .shy w | .shx w | .tas w | .las w => wordBytes w
  | .bpl b | .bmi b | .bvc b | .bvs b | .bcc b | .bcs b | .bne b | .beq b
  | .anc _ b | .alr b | .arr b | .axs b | .nopImm _ b | .nopZp _ b | .nopZpx _ b
  | .xaa b | .lxa b | .usbc b | .ahxIndy b => [b]

/-- The bytes of a well-formed instruction, in ascending address order (R80); none for an ill-formed one. -/
def encode (i : Instr) : List Byte :=
  match opcode i with
  | some op => op :: operandBytes i
  | none => []

end Sys2Proof
end

