-- ==== Sys2Proof/Config.lean ====
section
/-! DEFINITION. What is fixed for one machine: the named parameters of 00_scope R5 with their admitted values,
the byte an unwritten cell holds, and the model's free values. -/

namespace Sys2Proof

/-- `HIJACK_WINDOW`: the cycle of an interrupt sequence at whose end the vector is chosen. R331 admits 2 and 4. -/
inductive HijackWindow where
  /-- The source's "first two cycles", the default (D2). -/
  | two
  /-- The commonly documented value, the other one admitted. -/
  | four
  deriving DecidableEq, Repr

/-- `BRANCH_POLL`: which poll points of a branch are active (R326). -/
inductive BranchPoll where
  /-- The default (D3). -/
  | doc
  | nesdev
  deriving DecidableEq, Repr

/-- `UNLISTED_POLICY`: what the 21 unlisted opcode values do (R298, D1). -/
inductive UnlistedPolicy where
  /-- The default: the model gives them no meaning. -/
  | refuse
  /-- The behaviours 93_implementation_defined U1 to U9 record. -/
  | conventional
  deriving DecidableEq, Repr

/-- Which memory cell answers a bus address when memory answers at all. -/
inductive AddressMap where
  /-- One cell an address: the flat 64 KiB environment of 95_test_vectors' conventions (log entry 3). -/
  | flat
  /-- The platform's 2 KiB RAM mirrored over $0000 to $1FFF (R54); every other address has a cell of its own. -/
  | console
  deriving DecidableEq, Repr

/-- The parameters of R5 that have more than one admitted value. No step changes them. -/
structure Config where
  hijackWindow : HijackWindow
  branchPoll : BranchPoll
  unlisted : UnlistedPolicy
  map : AddressMap
  deriving DecidableEq, Repr

/-- The value R5 gives each parameter; the map is the model's choice (log entry 3). -/
def Config.standard : Config := ⟨.two, .doc, .refuse, .flat⟩

/-- `RAM_INIT`: what a cell that nothing has written reads as. R5 leaves it open between "zero or a deterministic
pattern". DESIGN CHOICE (log entry 2): zero. -/
def Config.ramInit : Byte := 0x00

/-- The free values: the byte the n-th open value takes. No body, so nothing can be proved of it.
Used only under `UnlistedPolicy.conventional`: the chip-dependent CONST of U2 and U3 and the corrupted target page of
U5 to U7 (log entry 6). -/
opaque Config.freeByte : Nat → Byte

end Sys2Proof
end

