-- ==== Sys2Proof/Machine/State.lean ====
section
/-! DEFINITION. The state of the machine (10_state R20 to R31), the environment it is stepped in as plain data
(20_memory R50 to R66), the reasons a step can stop, and the state at power-on and after reset. -/

namespace Sys2Proof.Machine

/-- The six stored flags of `P` (R23). Bits 5 and 4 of the status byte are not storage: they exist only in a pushed byte. -/
structure Flags where
  n : Bool
  v : Bool
  d : Bool
  i : Bool
  z : Bool
  c : Bool
  deriving DecidableEq, Repr

/-- `seq` (R29): what the cycles in progress belong to. BRK runs as `instr` with `IR = $00`. -/
inductive Seq where
  | instr
  | int
  | reset
  deriving DecidableEq, Repr

/-- The registers (R20 to R23) and the sequencing latches (R29): what the `then` column of a cycle table writes. -/
structure Cpu where
  a : Byte
  x : Byte
  y : Byte
  /-- The stack pointer; the stack is page $01 (R21). -/
  s : Byte
  pc : Word
  p : Flags
  /-- The opcode byte of the instruction in progress. -/
  ir : Byte
  /-- The number of the cycle about to be performed, 1 to 8; 1 at an instruction boundary. -/
  t : Nat
  seq : Seq
  lo : Byte
  hi : Byte
  ptr : Byte
  ea : Word
  dat : Byte
  cross : Bool
  vec : Word
  taken : Bool
  /-- The model's own: how many free values (`Config.freeByte`) have been taken (log entry 6). -/
  fresh : Nat
  deriving DecidableEq, Repr

/-- The interrupt and reset latches of R28. -/
structure Latches where
  nmiPrev : Bool
  nmiPending : Bool
  resetPending : Bool
  intReq : Bool
  deriving DecidableEq, Repr

/-- The input lines of R28, as sampled at the end of a cycle; `true` is 1, asserted. -/
structure Lines where
  nmi : Bool
  irq : Bool
  reset : Bool
  deriving DecidableEq, Repr

/-- Who answers the core's transaction in one cycle (R51, R58, R30: the read function is the environment's). -/
inductive Target where
  /-- A memory cell: a read returns it, a write changes it. -/
  | memory
  /-- A device that drives `din` on a read; a write reaches the device and no memory cell. -/
  | device (din : Byte)
  /-- Nothing is mapped: a read returns the bus's data latch, a write is dropped (R51, R52). -/
  | unmapped
  deriving DecidableEq, Repr

/-- One stall cycle (R65): the byte a DMA transaction leaves on the bus, if any, the lines sampled in it, and the bytes
that agents other than the core store in it (R59), in order. -/
structure Stall where
  dma : Option Byte
  lines : Lines
  writes : List (Word × Byte)
  deriving DecidableEq, Repr

/-- What the orchestrator and the devices do around one active cycle of the core: the stall cycles before it, who
answers its transaction, the lines as sampled at its end, and the bytes that agents other than the core store after its
transaction, in order (R59, R65, R110). -/
structure CycleInput where
  stalls : List Stall
  target : Target
  lines : Lines
  writes : List (Word × Byte)
  deriving DecidableEq, Repr

/-- What happened on the bus: a CPU cycle with its one read or write (R9, R50), a stall cycle, in which the core does nothing,
or, between two CPU cycles, a byte stored by another agent (R59). -/
inductive BusCycle where
  | read (a : Word) (d : Byte)
  | write (a : Word) (v : Byte)
  | stall
  | other (a : Word) (v : Byte)
  deriving DecidableEq, Repr

/-- Memory: address and byte pairs, addresses strictly rising, no byte equal to `Config.ramInit` (`Memory.wf`). -/
abbrev Memory := List Host.Cell

/-- The bus side of the core: the memory behind it, the data latch (R52), the cycles of the step in progress (newest
first), and the environment's inputs to come. When no input is left the lines keep their levels, memory answers, nothing
stalls and no other agent stores (log entry 4). -/
structure Bus where
  mem : Memory
  latch : Byte
  /-- The model's own: the bus cycles since the step began, newest first, and other agents' stores among them (log entry 18). -/
  log : List BusCycle
  /-- The model's own: what the environment does in the coming cycles, one entry an active cycle. -/
  inputs : List CycleInput
  /-- The input lines as last sampled. -/
  lines : Lines
  deriving DecidableEq, Repr

/-- The whole machine. -/
structure State where
  cpu : Cpu
  irq : Latches
  /-- The cycle counter (R27); wrapping is the model's choice (log entry 7). -/
  cyc : BitVec 64
  bus : Bus
  cfg : Config
  deriving DecidableEq, Repr

/-- The ways a step can stop with a fault. No memory access, arithmetic or privilege fault exists (R11, R51, R320). -/
inductive Fault where
  /-- Raised by the KIL opcodes under `UnlistedPolicy.conventional`: the CPU stops fetching (93 U1, R340). It carries the state
  the opcode fetch left, in which the CPU stays. Safe. -/
  | jammed (at_ : State)
  /-- Raised by `cycle`, `cyclesToBoundary`: `T` numbers no row of the cycle table in progress, a state no run reaches (R29). Safe. -/
  | noSuchCycle
  deriving DecidableEq, Repr

/-- The ways a step can refuse. -/
inductive Refusal where
  /-- Raised by an arm of `exec` whose instruction has no meaning yet. Safe. -/
  | notModelled (mnemonic : String)
  /-- Raised by the 21 unlisted opcode values under `UnlistedPolicy.refuse` (R298, D1). It carries the state at the refusal: the
  opcode fetch has happened. Safe. -/
  | unlistedOpcode (at_ : State)
  /-- Raised by `plan`: the bytes end before the instruction does. Three bytes always suffice, so no step raises it. Safe. -/
  | truncated
  deriving DecidableEq, Repr

/-- Column (a) of R31: what `power_on()` creates (R370, D5). The first step runs the reset sequence. -/
def State.powerOn : State where
  cpu := {
    a := 0x00, x := 0x00, y := 0x00, s := 0x00, pc := 0x0000,
    p := { n := false, v := false, d := false, i := false, z := false, c := false },
    ir := 0x00, t := 1, seq := .instr, lo := 0x00, hi := 0x00, ptr := 0x00, ea := 0x0000, dat := 0x00,
    cross := false, vec := 0x0000, taken := false, fresh := 0 }
  irq := { nmiPrev := false, nmiPending := false, resetPending := true, intReq := false }
  cyc := 0
  bus := {
    mem := [], latch := 0x00, log := [], inputs := [], lines := { nmi := false, irq := false, reset := false } }
  cfg := Config.standard

/-- Column (b) of R31: the machine right after the reset sequence that power-on runs (R372, R373). `PC` is the contents
of the reset vector in a memory that nothing has written. -/
def State.reset : State where
  cpu := {
    a := 0x00, x := 0x00, y := 0x00, s := 0xFD, pc := 0x0000,
    p := { n := false, v := false, d := false, i := true, z := false, c := false },
    ir := 0x00, t := 1, seq := .instr, lo := 0x00, hi := 0x00, ptr := 0x00, ea := 0x0000, dat := 0x00,
    cross := false, vec := 0xFFFC, taken := false, fresh := 0 }
  irq := { nmiPrev := false, nmiPending := false, resetPending := false, intReq := false }
  cyc := 7
  bus := {
    mem := [], latch := 0x00,
    log := [.read 0xFFFD 0x00, .read 0xFFFC 0x00, .read 0x01FE 0x00, .read 0x01FF 0x00, .read 0x0100 0x00,
            .read 0x0000 0x00, .read 0x0000 0x00],
    inputs := [], lines := { nmi := false, irq := false, reset := false } }
  cfg := Config.standard

end Sys2Proof.Machine
end

