-- ==== Sys2Proof/Machine/Flags.lean ====
section
/-! DEFINITION. The status byte and the arithmetic: the helpers of 00_scope R10, the ALU functions of 42_alu R180 and R181,
the six modify functions of 43_rmw_shift_incdec R200. -/

namespace Sys2Proof.Machine

/-- `setNZ(v)` (R10): N is bit 7, Z says that `v` is $00. -/
def Flags.setNZ (f : Flags) (v : Byte) : Flags := { f with n := v.msb, z := v == 0x00 }

/-- `P_byte(b)` (R10, R23): the byte a push writes; bit 5 is 1 and bit 4 (B) is `b`. -/
def pByte (b : Bool) (f : Flags) : Byte :=
  BitVec.ofBool f.n ++ BitVec.ofBool f.v ++ 1#1 ++ BitVec.ofBool b ++
    BitVec.ofBool f.d ++ BitVec.ofBool f.i ++ BitVec.ofBool f.z ++ BitVec.ofBool f.c

/-- `set_P_from(v)` (R10): all six flags; bits 5 and 4 of the byte are ignored. -/
def setPFrom (v : Byte) : Flags where
  n := v.getLsbD 7
  v := v.getLsbD 6
  d := v.getLsbD 3
  i := v.getLsbD 2
  z := v.getLsbD 1
  c := v.getLsbD 0

/-- What the adder answers (R180): the byte, the carry out, the signed overflow. -/
structure Sum where
  r : Byte
  c : Bool
  v : Bool
  deriving DecidableEq, Repr

/-- `adc8(a, m, c)` (R180): the one adder. Always binary: D is not an input. -/
def adc8 (a m : Byte) (c : Bool) : Sum :=
  let sum := a.toNat + m.toNat + c.toNat
  let r := BitVec.ofNat 8 sum
  { r := r, c := decide (0xFF < sum), v := ((~~~(a ^^^ m)) &&& (a ^^^ r)).msb }

/-- `sbc8(a, m, c) = adc8(a, m ^ $FF, c)` (R180). -/
def sbc8 (a m : Byte) (c : Bool) : Sum := adc8 a (m ^^^ 0xFF) c

/-- `cmp8(r, m)` (R181): C is the unsigned comparison, V is not written, no carry in. -/
def Flags.compare (f : Flags) (r m : Byte) : Flags :=
  { f with c := decide (m.toNat ≤ r.toNat), z := r == m, n := (r - m).msb }

/-- `asl(d)` (R200): the byte and the carry out. -/
def asl8 (d : Byte) (_ : Bool) : Byte × Bool := (d <<< 1, d.getLsbD 7)

/-- `lsr(d)` (R200). -/
def lsr8 (d : Byte) (_ : Bool) : Byte × Bool := (d >>> 1, d.getLsbD 0)

/-- `rol(d, c)` (R200): the old carry enters bit 0. -/
def rol8 (d : Byte) (c : Bool) : Byte × Bool := (d <<< 1 ||| (BitVec.ofBool c).setWidth 8, d.getLsbD 7)

/-- `ror(d, c)` (R200): the old carry enters bit 7. -/
def ror8 (d : Byte) (c : Bool) : Byte × Bool := (d >>> 1 ||| (BitVec.ofBool c).setWidth 8 <<< 7, d.getLsbD 0)

/-- `inc(d)` (R200): modulo 256. -/
def inc8 (d : Byte) : Byte := d + 1

/-- `dec(d)` (R200): modulo 256. -/
def dec8 (d : Byte) : Byte := d - 1

/-! ## Registers and flags together -/

/-- `A <- v; setNZ(A)`. -/
def Cpu.setA (c : Cpu) (v : Byte) : Cpu := { c with a := v, p := c.p.setNZ v }

/-- `X <- v; setNZ(X)`. -/
def Cpu.setX (c : Cpu) (v : Byte) : Cpu := { c with x := v, p := c.p.setNZ v }

/-- `Y <- v; setNZ(Y)`. -/
def Cpu.setY (c : Cpu) (v : Byte) : Cpu := { c with y := v, p := c.p.setNZ v }

/-- `A <- r; P.C <- cout; P.V <- v; setNZ(A)`: how ADC, SBC, RRA and ISC take the adder's answer (R182, R183). -/
def Cpu.takeSum (c : Cpu) (s : Sum) : Cpu := { c with a := s.r, p := { c.p.setNZ s.r with c := s.c, v := s.v } }

/-- `P.C <- c'; setNZ(r)`: the flags of a shift or rotate (R200). -/
def Flags.shifted (f : Flags) (r : Byte × Bool) : Flags := { f.setNZ r.1 with c := r.2 }

end Sys2Proof.Machine
end

