-- ==== Sys2Proof/Machine/Ops.lean ====
section
/-! DEFINITION. The shared operations: memory, the bus transaction, the stall cycle, the sampling of the lines, the CPU
cycle (40_bus_cycles R110), the instruction boundary (R112), the interrupt sequence that takes every exception
(60_exceptions R330, R331; 70_reset R372), and the return from one (R140). -/

namespace Sys2Proof.Machine

/-! ## Memory -/

/-- The byte at a cell; a cell that is not listed holds `Config.ramInit`. -/
def Memory.read : Memory → Nat → Byte
  | [], _ => Config.ramInit
  | (k, v) :: rest, a => if a = k then v else Memory.read rest a

/-- The memory with one cell changed, in canonical form: writing what an unlisted cell reads as removes the entry. -/
def Memory.write : Memory → Nat → Byte → Memory
  | [], a, v => if v = Config.ramInit then [] else [(a, v)]
  | (k, w) :: rest, a, v =>
    if a < k then (if v = Config.ramInit then (k, w) :: rest else (a, v) :: (k, w) :: rest)
    else if a = k then (if v = Config.ramInit then rest else (a, v) :: rest)
    else (k, w) :: Memory.write rest a v

/-- Canonical from cell `b` on: cells at or above `b`, strictly rising, below $10000, none holding `Config.ramInit`. -/
def Memory.wfFrom : Nat → Memory → Bool
  | _, [] => true
  | b, (k, v) :: rest => decide (b ≤ k) && decide (k < 0x10000) && (v != Config.ramInit) && Memory.wfFrom (k + 1) rest

/-- The canonical form: equal memories are equal lists. -/
def Memory.wf (m : Memory) : Bool := Memory.wfFrom 0 m

/-- The cell that answers a bus address (R50, R54): RAM is mirrored under the console map, nothing is under the flat one. -/
def cellOf (map : AddressMap) (a : Word) : Nat :=
  match map with
  | .flat => a.toNat
  | .console => if a.toNat < 0x2000 then a.toNat % 0x0800 else a.toNat

/-- The memory after bytes stored at bus addresses, in order. -/
def Memory.writes (map : AddressMap) : Memory → List (Word × Byte) → Memory
  | m, [] => m
  | m, (a, v) :: rest => Memory.writes map (Memory.write m (cellOf map a) v) rest

/-- The byte memory would answer at a bus address. -/
def State.peek (s : State) (a : Word) : Byte := Memory.read s.bus.mem (cellOf s.cfg.map a)

/-! ## The bus transaction (R9, R50 to R52) -/

/-- The one transaction of an active cycle. -/
inductive BusOp where
  | read (a : Word)
  | write (a : Word) (v : Byte)
  deriving DecidableEq, Repr

/-- Who answers the next active cycle's transaction; memory, when the environment says nothing. -/
def Bus.target (b : Bus) : Target :=
  match b.inputs with
  | [] => .memory
  | i :: _ => i.target

/-- The lines as sampled at the end of the next active cycle; they keep their levels when the environment says nothing. -/
def Bus.nextLines (b : Bus) : Lines :=
  match b.inputs with
  | [] => b.lines
  | i :: _ => i.lines

/-- The bytes other agents store between the next active cycle's transaction and its sampling. -/
def Bus.nextWrites (b : Bus) : List (Word × Byte) :=
  match b.inputs with
  | [] => []
  | i :: _ => i.writes

/-- The byte on the bus in a transaction: read by the core, or driven by it. -/
def Bus.data (b : Bus) (map : AddressMap) : BusOp → Byte
  | .read a =>
    match b.target with
    | .memory => Memory.read b.mem (cellOf map a)
    | .device din => din
    | .unmapped => b.latch
  | .write _ v => v

/-- Memory after a transaction: a write reaches a cell only where memory answers. -/
def Bus.memAfter (b : Bus) (map : AddressMap) : BusOp → Memory
  | .read _ => b.mem
  | .write a v =>
    match b.target with
    | .memory => Memory.write b.mem (cellOf map a) v
    | .device _ | .unmapped => b.mem

/-- How a transaction stands in the log. -/
def BusOp.logged (d : Byte) : BusOp → BusCycle
  | .read a => .read a d
  | .write a v => .write a v

/-- How other agents' stores stand in the log, newest first. -/
def othersLogged : List (Word × Byte) → List BusCycle
  | [] => []
  | (a, v) :: rest => othersLogged rest ++ [.other a v]

/-- The bus after a transaction: memory, the data latch (R52: every transaction leaves its byte there), the log; then what
other agents store before the cycle ends (R59, R60). -/
def Bus.transact (b : Bus) (map : AddressMap) (op : BusOp) : Bus :=
  { mem := Memory.writes map (b.memAfter map op) b.nextWrites
    latch := b.data map op
    log := othersLogged b.nextWrites ++ op.logged (b.data map op) :: b.log
    inputs := b.inputs.tail
    lines := b.nextLines }

/-! ## Sampling the lines (R321, R322, R324, R331) -/

/-- The reset latch and the NMI edge detector, run in every cycle (R321, R322). -/
def Latches.sample (l : Latches) (n : Lines) : Latches :=
  { l with
    resetPending := l.resetPending || n.reset
    nmiPending := l.nmiPending || (n.nmi && !l.nmiPrev)
    nmiPrev := n.nmi }

/-- The interrupt poll (R324): `int_req <- int_req | nmi_pending | (irq_line & (1 - P.I))`. -/
def Latches.poll (l : Latches) (irqLine iFlag : Bool) : Latches :=
  { l with intReq := l.intReq || l.nmiPending || (irqLine && !iFlag) }

/-- The three vectors (R53): the address of the low byte. -/
def nmiVector : Word := 0xFFFA
def resetVector : Word := 0xFFFC
def irqVector : Word := 0xFFFE

/-- The vector selection (R331); taking the NMI vector consumes the edge. -/
def State.selectVector (s : State) : State :=
  match s.cpu.seq with
  | .reset => { s with cpu := { s.cpu with vec := resetVector } }
  | .instr | .int =>
    if s.irq.nmiPending then
      { s with cpu := { s.cpu with vec := nmiVector }, irq := { s.irq with nmiPending := false } }
    else { s with cpu := { s.cpu with vec := irqVector } }

/-- The cycle of a sequence at whose end the vector is selected (R331). -/
def windowCycle : HijackWindow → Nat
  | .two => 2
  | .four => 4

/-! ## The CPU cycle -/

/-- A stall cycle (R65): it counts, the edge detector and the reset latch run, and nothing else of the core changes; memory
takes what other agents store in it (R59). -/
def State.stallCycle (s : State) (i : Stall) : State :=
  { s with
    irq := s.irq.sample i.lines
    cyc := s.cyc + 1
    bus := { s.bus with
      mem := Memory.writes s.cfg.map s.bus.mem i.writes
      latch := i.dma.getD s.bus.latch
      log := othersLogged i.writes ++ .stall :: s.bus.log
      lines := i.lines } }

/-- The stall cycles the orchestrator has put before the next active cycle. -/
def State.serveStalls (s : State) : State :=
  match s.bus.inputs with
  | [] => s
  | i :: rest =>
    let s' := i.stalls.foldl State.stallCycle s
    { s' with bus := { s'.bus with inputs := { i with stalls := [] } :: rest } }

/-- One row of a cycle table (R13): the transaction, the `then` column, and the marks. The `then` column writes only
registers and sequencing latches, so a row cannot touch memory but through its transaction. -/
structure Row where
  bus : Cpu → BusOp
  act : Byte → Cpu → Cpu
  /-- `poll`: interrupts are polled at the end of this cycle; read after the `then` column. -/
  poll : Config → Cpu → Bool := fun _ _ => false
  /-- `end`: the next cycle is an instruction boundary. -/
  last : Cpu → Bool := fun _ => false
  /-- The row is one of an interrupt sequence or of BRK, so the vector may be selected at its end. -/
  selects : Bool := false

/-- Step 7 of R110: `T <- T + 1`, or back to 1 (and to `INSTR`, R31) when the row is marked `end`. -/
def Cpu.advance (c : Cpu) (last : Bool) : Cpu :=
  if last then { c with t := 1, seq := .instr } else { c with t := c.t + 1 }

/-- An active cycle (R110 steps 2 to 7): the transaction, the `then` actions, the count, the sampling (reset latch, edge
detector, poll, vector selection, in that order), and the advance of `T`. -/
def Row.active (r : Row) (s : State) : State :=
  let op := r.bus s.cpu
  let cpu := r.act (s.bus.data s.cfg.map op) s.cpu
  let bus := s.bus.transact s.cfg.map op
  let sampled := s.irq.sample bus.lines
  let irq := if r.poll s.cfg cpu then sampled.poll bus.lines.irq cpu.p.i else sampled
  let s' : State := { s with cpu := cpu, irq := irq, cyc := s.cyc + 1, bus := bus }
  let s'' := if r.selects && cpu.t == windowCycle s.cfg.hijackWindow then s'.selectVector else s'
  { s'' with cpu := s''.cpu.advance (r.last cpu) }

/-- The stall cycles granted before it, then the active cycle of a row. -/
def Row.cycle (r : Row) (s : State) : State := r.active s.serveStalls

/-- The rows of a cycle table one after the other, up to the one marked `end`. -/
def perform : List Row → State → State
  | [], s => s
  | r :: rest, s =>
    let s' := r.cycle s
    if s'.cpu.t = 1 then s' else perform rest s'

/-- An instruction from its first cycle to its last. -/
def runInstr (rows : List Row) (s : State) : Host.Outcome State Fault Refusal :=
  .next (perform rows { s with cpu := { s.cpu with t := 1, seq := .instr } })

/-! ## Rows many tables share -/

/-- Cycle 1 of every instruction: the opcode fetch (R113). -/
def opcodeRow (poll : Bool := false) : Row where
  bus := fun c => .read c.pc
  act := fun d c => { c with ir := d, pc := c.pc + 1 }
  poll := fun _ _ => poll

/-- The state after the opcode fetch alone: where an unlisted opcode value leaves the machine (R113, R298). -/
def State.fetchOpcode (s : State) : State := opcodeRow.cycle { s with cpu := { s.cpu with t := 1, seq := .instr } }

/-- A read of the byte at `PC`, which stays (the dummy read of one-byte instructions, R114). -/
def dummyPcRow (poll : Bool := false) : Row where
  bus := fun c => .read c.pc
  act := fun _ c => c
  poll := fun _ _ => poll

/-- The address of a stack slot: `STACK(s) = $0100 | s` (R10, R21). -/
def stackAddr (s : Byte) : Word := join 0x01 s

/-- A zero-page address, `$00:z` (R6, R82). -/
def zpAddr (z : Byte) : Word := join 0x00 z

/-- A dummy read of the stack slot, then `S <- (S + 1) & $FF` (R139, R140, R142). -/
def pullDummyRow (poll : Bool := false) : Row where
  bus := fun c => .read (stackAddr c.s)
  act := fun _ c => { c with s := c.s + 1 }
  poll := fun _ _ => poll

/-- A push (R21): the byte goes to the slot, then `S <- (S - 1) & $FF`. -/
def pushRow (v : Cpu → Byte) (poll : Bool := false) (last : Bool := false) : Row where
  bus := fun c => .write (stackAddr c.s) (v c)
  act := fun _ c => { c with s := c.s - 1 }
  poll := fun _ _ => poll
  last := fun _ => last

/-! ## Taking an exception and returning from one -/

/-- What runs the interrupt sequence (R330). -/
inductive Trap where
  | brk
  | int
  | reset
  deriving DecidableEq, Repr

/-- Rows 1 and 2 of R330: BRK steps over its opcode and its padding byte, INT and RESET leave `PC`. -/
def trapFetchRow (k : Trap) (opcode : Bool) : Row where
  bus := fun c => .read c.pc
  act := fun d c =>
    match k with
    | .brk => { c with ir := if opcode then d else c.ir, pc := c.pc + 1 }
    | .int | .reset => c
  selects := true

/-- Rows 3 to 5 of R330: a push, or for RESET a read of the slot; `S <- (S - 1) & $FF` in every case. -/
def trapPushRow (k : Trap) (v : Cpu → Byte) : Row where
  bus := fun c =>
    match k with
    | .brk | .int => .write (stackAddr c.s) (v c)
    | .reset => .read (stackAddr c.s)
  act := fun _ c => { c with s := c.s - 1 }
  selects := true

/-- The B bit of the status byte the sequence pushes (R320, R330). -/
def trapB : Trap → Bool
  | .brk => true
  | .int | .reset => false

/-- The interrupt sequence (R330), the one table by which BRK, IRQ, NMI and reset are all taken. No row polls (R329). -/
def trapRows (k : Trap) : List Row :=
  [ trapFetchRow k true,
    trapFetchRow k false,
    trapPushRow k (fun c => hiByte c.pc),
    trapPushRow k (fun c => loByte c.pc),
    trapPushRow k (fun c => pByte (trapB k) c.p),
    { bus := fun c => .read c.vec
      act := fun d c => { c with lo := d, p := { c.p with i := true } }
      selects := true },
    { bus := fun c => .read (c.vec + 1)
      act := fun d c => { c with pc := join d c.lo }
      last := fun _ => true
      selects := true } ]

/-- Taking a hardware interrupt or a reset, from cycle 1 of its sequence to the last. -/
def takeTrap (k : Trap) (s : State) : Host.Outcome State Fault Refusal := .next (perform (trapRows k) s)

/-- The return from an interrupt (R140, R263, R333): the status byte, then the low and the high byte of `PC`. -/
def returnRows : List Row :=
  [ opcodeRow,
    dummyPcRow,
    pullDummyRow,
    { bus := fun c => .read (stackAddr c.s)
      act := fun d c => { c with p := setPFrom d, s := c.s + 1 } },
    { bus := fun c => .read (stackAddr c.s)
      act := fun d c => { c with lo := d, s := c.s + 1 }
      poll := fun _ _ => true },
    { bus := fun c => .read (stackAddr c.s)
      act := fun d c => { c with pc := join d c.lo }
      last := fun _ => true } ]

/-! ## The instruction boundary (R112) -/

/-- What the coming cycles belong to: a latched reset first, then a requested interrupt, then the next instruction. -/
def State.boundary (s : State) : State :=
  if s.irq.resetPending then
    { s with
      cpu := { s.cpu with seq := .reset }
      irq := { s.irq with resetPending := false, intReq := false, nmiPending := false }
      cyc := 0 }
  else if s.irq.intReq then
    { s with cpu := { s.cpu with seq := .int }, irq := { s.irq with intReq := false } }
  else { s with cpu := { s.cpu with seq := .instr } }

end Sys2Proof.Machine
end

