-- ==== Sys2Proof/Machine/Operands.lean ====
section
/-! DEFINITION. The addressing modes: the address an operand names (30_encoding R81, R82), and the cycle table of every mode
for reads, writes and read-modify-writes (40_bus_cycles R114 to R134). -/

namespace Sys2Proof.Machine

/-! ## The address an operand names, in one formula (R81, R82, R57) -/

/-- The effective address: registers from `c`, pointer bytes through `rd`. -/
def addressOf (m : MemOperand) (c : Cpu) (rd : Word → Byte) : Word :=
  match m with
  | .zp z => zpAddr z
  | .zpx z => zpAddr (z + c.x)
  | .zpy z => zpAddr (z + c.y)
  | .abs w => w
  | .absx w => w + c.x.setWidth 16
  | .absy w => w + c.y.setWidth 16
  | .indx z => join (rd (zpAddr (z + c.x + 1))) (rd (zpAddr (z + c.x)))
  | .indy z => join (rd (zpAddr (z + 1))) (rd (zpAddr z)) + c.y.setWidth 16

/-- The address before it is indexed: what the index addition may carry out of the page of (R126, R132). -/
def baseOf (m : MemOperand) (rd : Word → Byte) : Word :=
  match m with
  | .zp z | .zpx z | .zpy z | .indx z => zpAddr z
  | .abs w | .absx w | .absy w => w
  | .indy z => join (rd (zpAddr (z + 1))) (rd (zpAddr z))

/-- The operand byte (R82): the immediate as it is, or the byte at the effective address. -/
def valueOf (m : ReadOperand) (c : Cpu) (rd : Word → Byte) : Byte :=
  match m with
  | .imm v => v
  | .mem m => rd (addressOf m c rd)

/-! ## Rows -/

/-- An extra `then` action of a row. -/
def Row.also (r : Row) (f : Cpu → Cpu) : Row := { r with act := fun d c => f (r.act d c) }

/-- The index addition carries out of the low byte. -/
def carries (a b : Byte) : Bool := decide (0xFF < a.toNat + b.toNat)

/-- The address in the latches, `hi:lo`. -/
def Cpu.hilo (c : Cpu) : Word := join c.hi c.lo

/-- `R(PC)`: `lo <- data; PC <- PC + 1`. The decoder has read the same byte: `b`. -/
def loRow (b : Byte) (poll : Bool := false) : Row where
  bus := fun c => .read c.pc
  act := fun _ c => { c with lo := b, pc := c.pc + 1 }
  poll := fun _ _ => poll

/-- `R(PC)`: `hi <- data; PC <- PC + 1`. -/
def hiRow (b : Byte) (poll : Bool := false) : Row where
  bus := fun c => .read c.pc
  act := fun _ c => { c with hi := b, pc := c.pc + 1 }
  poll := fun _ _ => poll

/-- `R(PC)`: `ptr <- data; PC <- PC + 1`. -/
def ptrRow (b : Byte) : Row where
  bus := fun c => .read c.pc
  act := fun _ c => { c with ptr := b, pc := c.pc + 1 }

/-- `cross <- (lo + idx > $FF); lo <- (lo + idx) & $FF`. -/
def Cpu.indexLo (c : Cpu) (idx : Byte) : Cpu := { c with cross := carries c.lo idx, lo := c.lo + idx }

/-- `hi <- (hi + cross) & $FF`. -/
def Cpu.fixHi (c : Cpu) : Cpu := { c with hi := if c.cross then c.hi + 1 else c.hi }

/-- `R($00:lo)`: the dummy read at the unindexed address; `lo <- (lo + idx) & $FF`. -/
def zpIndexRow (idx : Cpu → Byte) (poll : Bool := false) : Row where
  bus := fun c => .read (zpAddr c.lo)
  act := fun _ c => { c with lo := c.lo + idx c }
  poll := fun _ _ => poll

/-- `R($00:lo)`: the dummy read of the read-modify-write form (R122); `ea <- $00:((lo + idx) & $FF)`. -/
def zpIndexEaRow (idx : Cpu → Byte) : Row where
  bus := fun c => .read (zpAddr c.lo)
  act := fun _ c => { c with ea := zpAddr (c.lo + idx c) }

/-- `R(PC)`: the high byte arrives and the low byte is indexed; `pollIf` polls when no page is crossed. -/
def hiIndexRow (b : Byte) (idx : Cpu → Byte) (pollIf : Bool := false) : Row where
  bus := fun c => .read c.pc
  act := fun _ c => Cpu.indexLo { c with hi := b, pc := c.pc + 1 } (idx c)
  poll := fun _ c => pollIf && !c.cross

/-- `R($00:ptr)`: the dummy read; `ptr <- (ptr + X) & $FF`. -/
def ptrIndexRow : Row where
  bus := fun c => .read (zpAddr c.ptr)
  act := fun _ c => { c with ptr := c.ptr + c.x }

/-- `R($00:ptr)`: `lo <- data`. -/
def ptrLoRow : Row where
  bus := fun c => .read (zpAddr c.ptr)
  act := fun d c => { c with lo := d }

/-- `R($00:((ptr + 1) & $FF))`: `hi <- data`. -/
def ptrHiRow (poll : Bool := false) : Row where
  bus := fun c => .read (zpAddr (c.ptr + 1))
  act := fun d c => { c with hi := d }
  poll := fun _ _ => poll

/-- The same with `lo` indexed by Y; `pollIf` polls when no page is crossed. -/
def ptrHiIndexRow (pollIf : Bool := false) : Row where
  bus := fun c => .read (zpAddr (c.ptr + 1))
  act := fun d c => Cpu.indexLo { c with hi := d } c.y
  poll := fun _ c => pollIf && !c.cross

/-- `R(hi:lo)`: the dummy read at the pre-fixup address; `hi <- (hi + cross) & $FF`. -/
def fixupRow (poll : Bool := false) : Row where
  bus := fun c => .read c.hilo
  act := fun _ c => c.fixHi
  poll := fun _ _ => poll

/-- Row 4 of R126, row 5 of R132: the operand when no page is crossed, else the dummy read and a poll. -/
def fixupOrReadRow (f : Byte → Cpu → Cpu) : Row where
  bus := fun c => .read c.hilo
  act := fun d c => if c.cross then c.fixHi else f d c
  poll := fun _ c => c.cross
  last := fun c => !c.cross

/-- The read that delivers the operand, `exec`, `end`. -/
def readRow (addr : Cpu → Word) (f : Byte → Cpu → Cpu) : Row where
  bus := fun c => .read (addr c)
  act := f
  last := fun _ => true

/-- The write of a store, `end`. -/
def writeRow (addr : Cpu → Word) (v : Cpu → Byte) : Row where
  bus := fun c => .write (addr c) (v c)
  act := fun _ c => c
  last := fun _ => true

/-- `ea <- $00:lo`. -/
def Cpu.eaZp (c : Cpu) : Cpu := { c with ea := zpAddr c.lo }

/-- `ea <- hi:lo`. -/
def Cpu.eaHilo (c : Cpu) : Cpu := { c with ea := c.hilo }

/-- The zero-page address in `lo`. -/
def Cpu.zplo (c : Cpu) : Word := zpAddr c.lo

/-! ## Tables -/

/-- R114: two cycles, the second a dummy read of the next opcode. -/
def impliedRows (f : Cpu → Cpu) : List Row :=
  [opcodeRow true, { bus := fun c => .read c.pc, act := fun _ c => f c, last := fun _ => true }]

/-- R116. -/
def immediateRows (v : Byte) (f : Byte → Cpu → Cpu) : List Row :=
  [opcodeRow true,
   { bus := fun c => .read c.pc
     act := fun _ c => f v { c with pc := c.pc + 1 }
     last := fun _ => true }]

/-- The read tables: R117, R120, R123, R126, R129, R132. -/
def memReadRows (m : MemOperand) (f : Byte → Cpu → Cpu) : List Row :=
  match m with
  | .zp z => [opcodeRow, loRow z true, readRow Cpu.zplo f]
  | .zpx z => [opcodeRow, loRow z, zpIndexRow Cpu.x true, readRow Cpu.zplo f]
  | .zpy z => [opcodeRow, loRow z, zpIndexRow Cpu.y true, readRow Cpu.zplo f]
  | .abs w => [opcodeRow, loRow (loByte w), hiRow (hiByte w) true, readRow Cpu.hilo f]
  | .absx w => [opcodeRow, loRow (loByte w), hiIndexRow (hiByte w) Cpu.x true, fixupOrReadRow f, readRow Cpu.hilo f]
  | .absy w => [opcodeRow, loRow (loByte w), hiIndexRow (hiByte w) Cpu.y true, fixupOrReadRow f, readRow Cpu.hilo f]
  | .indx z => [opcodeRow, ptrRow z, ptrIndexRow, ptrLoRow, ptrHiRow true, readRow Cpu.hilo f]
  | .indy z => [opcodeRow, ptrRow z, ptrLoRow, ptrHiIndexRow true, fixupOrReadRow f, readRow Cpu.hilo f]

/-- The read tables, the immediate form with them. -/
def readRows (m : ReadOperand) (f : Byte → Cpu → Cpu) : List Row :=
  match m with
  | .imm v => immediateRows v f
  | .mem m => memReadRows m f

/-- The write tables up to the write: R118, R121, R124, R127, R130, R133. -/
def storeAddressRows : MemOperand → List Row
  | .zp z => [opcodeRow, loRow z true]
  | .zpx z => [opcodeRow, loRow z, zpIndexRow Cpu.x true]
  | .zpy z => [opcodeRow, loRow z, zpIndexRow Cpu.y true]
  | .abs w => [opcodeRow, loRow (loByte w), hiRow (hiByte w) true]
  | .absx w => [opcodeRow, loRow (loByte w), hiIndexRow (hiByte w) Cpu.x, fixupRow true]
  | .absy w => [opcodeRow, loRow (loByte w), hiIndexRow (hiByte w) Cpu.y, fixupRow true]
  | .indx z => [opcodeRow, ptrRow z, ptrIndexRow, ptrLoRow, ptrHiRow true]
  | .indy z => [opcodeRow, ptrRow z, ptrLoRow, ptrHiIndexRow, fixupRow true]

/-- Where the write of a store goes. -/
def storeAddress : MemOperand → Cpu → Word
  | .zp _ | .zpx _ | .zpy _ => Cpu.zplo
  | .abs _ | .absx _ | .absy _ | .indx _ | .indy _ => Cpu.hilo

/-- The write tables. -/
def storeRows (m : MemOperand) (v : Cpu → Byte) : List Row := storeAddressRows m ++ [writeRow (storeAddress m) v]

/-- The read-modify-write tables up to the cycle that completes `ea`: R119, R122, R125, R128, R131, R134. -/
def rmwAddressRows : MemOperand → List Row
  | .zp z => [opcodeRow, (loRow z).also Cpu.eaZp]
  | .zpx z => [opcodeRow, loRow z, zpIndexEaRow Cpu.x]
  | .zpy z => [opcodeRow, loRow z, zpIndexEaRow Cpu.y]
  | .abs w => [opcodeRow, loRow (loByte w), (hiRow (hiByte w)).also Cpu.eaHilo]
  | .absx w => [opcodeRow, loRow (loByte w), hiIndexRow (hiByte w) Cpu.x, fixupRow.also Cpu.eaHilo]
  | .absy w => [opcodeRow, loRow (loByte w), hiIndexRow (hiByte w) Cpu.y, fixupRow.also Cpu.eaHilo]
  | .indx z => [opcodeRow, ptrRow z, ptrIndexRow, ptrLoRow, ptrHiRow.also Cpu.eaHilo]
  | .indy z => [opcodeRow, ptrRow z, ptrLoRow, ptrHiIndexRow, fixupRow.also Cpu.eaHilo]

/-- The three rows every read-modify-write ends with (R119, R201): the read, the dummy write of the unmodified value, the
write of the modified one. `f` is the modify function, `exec` what the registers and flags become. -/
def rmwTail (f : Cpu → Byte) (exec : Cpu → Cpu) : List Row :=
  [{ bus := fun c => .read c.ea, act := fun d c => { c with dat := d } },
   { bus := fun c => .write c.ea c.dat, act := fun _ c => c, poll := fun _ _ => true },
   { bus := fun c => .write c.ea (f c), act := fun _ c => exec c, last := fun _ => true }]

/-- The read-modify-write tables. -/
def rmwRows (m : MemOperand) (f : Cpu → Byte) (exec : Cpu → Cpu) : List Row := rmwAddressRows m ++ rmwTail f exec

end Sys2Proof.Machine
end

