-- ==== Sys2Proof/Machine/Control.lean ====
section
/-! DEFINITION. Jumps, subroutine call and return, branches (44_control_flow R219 to R232). -/

namespace Sys2Proof.Machine

/-- JMP absolute (R136): `PC <- hi:lo` in the cycle that fetches the high byte. -/
def jmpRows (w : Word) : List Row :=
  [ opcodeRow,
    loRow (loByte w) true,
    { bus := fun c => .read c.pc
      act := fun _ c => { c with hi := hiByte w, pc := join (hiByte w) c.lo }
      last := fun _ => true } ]

/-- JMP absolute: `PC <- addr16` (R220). -/
def execJmp (w : Word) (s : State) : Host.Outcome State Fault Refusal := runInstr (jmpRows w) s

/-- JMP indirect (R137): the pointer's low byte is incremented without carry into its high byte. -/
def jmpIndRows (w : Word) : List Row :=
  [ opcodeRow,
    loRow (loByte w),
    hiRow (hiByte w),
    { bus := fun c => .read c.hilo
      act := fun d c => { c with dat := d }
      poll := fun _ _ => true },
    { bus := fun c => .read (join c.hi (c.lo + 1))
      act := fun d c => { c with pc := join d c.dat }
      last := fun _ => true } ]

/-- JMP indirect, with the page wrap (R221). -/
def execJmpInd (w : Word) (s : State) : Host.Outcome State Fault Refusal := runInstr (jmpIndRows w) s

/-- JSR (R138). The high byte of the target is what the bus answers in cycle 6, after the pushes (R222): the operand's
own high byte is what the decoder saw there before them. -/
def jsrRows (w : Word) : List Row :=
  [ opcodeRow,
    loRow (loByte w),
    { bus := fun c => .read (stackAddr c.s), act := fun _ c => c },
    pushRow fun c => hiByte c.pc,
    pushRow (fun c => loByte c.pc) true,
    { bus := fun c => .read c.pc
      act := fun d c => { c with hi := d, pc := join d c.lo }
      last := fun _ => true } ]

/-- JSR (R222). -/
def execJsr (w : Word) (s : State) : Host.Outcome State Fault Refusal := runInstr (jsrRows w) s

/-- RTS (R139). -/
def rtsRows : List Row :=
  [ opcodeRow,
    dummyPcRow,
    pullDummyRow,
    { bus := fun c => .read (stackAddr c.s)
      act := fun d c => { c with lo := d, s := c.s + 1 } },
    { bus := fun c => .read (stackAddr c.s)
      act := fun d c => { c with hi := d, pc := join d c.lo }
      poll := fun _ _ => true },
    { bus := fun c => .read c.pc
      act := fun _ c => { c with pc := c.pc + 1 }
      last := fun _ => true } ]

/-- RTS (R223). -/
def execRts (s : State) : Host.Outcome State Fault Refusal := runInstr rtsRows s

/-! ## Branches -/

/-- `(next + sext_16(rel8)) & $FFFF` (R224). -/
def branchTarget (next : Word) (rel : Byte) : Word := next + sext16 rel

/-- The target is in another page than the following instruction (R224). -/
def branchCrosses (next : Word) (rel : Byte) : Bool := hiByte (branchTarget next rel) != hiByte next

/-- Whether P1, the poll at the end of cycle 1, is active (R326). -/
def pollsFirst : BranchPoll → Bool → Bool → Bool
  | .doc, taken, cross => !taken || cross
  | .nesdev, _, _ => true

/-- Whether P2, the poll at the end of cycle 2 of a taken branch, is active (R326). -/
def pollsSecond : BranchPoll → Bool → Bool
  | .doc, cross => !cross
  | .nesdev, _ => false

/-- The branch table (R135). The condition and the target are known from the flags and the operand, so each poll point is
active or not at once; R326 says that this is the machine that or-s its samples in the last cycle. -/
def branchRows (cond : Flags → Bool) (r : Byte) : List Row :=
  [ { bus := fun c => .read c.pc
      act := fun d c => { c with ir := d, pc := c.pc + 1 }
      poll := fun cfg c => pollsFirst cfg.branchPoll (cond c.p) (branchCrosses (c.pc + 1) r) },
    { bus := fun c => .read c.pc
      act := fun _ c => { c with lo := r, pc := c.pc + 1, taken := cond c.p }
      poll := fun cfg c => c.taken && pollsSecond cfg.branchPoll (branchCrosses c.pc r)
      last := fun c => !c.taken },
    { bus := fun c => .read c.pc
      act := fun _ c =>
        { c with
          ea := branchTarget c.pc c.lo
          cross := branchCrosses c.pc c.lo
          pc := join (hiByte c.pc) (loByte (branchTarget c.pc c.lo)) }
      poll := fun _ c => c.cross
      last := fun c => !c.cross },
    { bus := fun c => .read c.pc
      act := fun _ c => { c with pc := c.ea }
      last := fun _ => true } ]

/-- BPL: branch if `P.N = 0` (R225): its cycle table. -/
def bplRows (r : Byte) : List Row := branchRows (fun p => !p.n) r

/-- BPL: branch if `P.N = 0` (R225). -/
def execBpl (r : Byte) (s : State) : Host.Outcome State Fault Refusal := runInstr (bplRows r) s

/-- BMI: branch if `P.N = 1` (R226): its cycle table. -/
def bmiRows (r : Byte) : List Row := branchRows (fun p => p.n) r

/-- BMI: branch if `P.N = 1` (R226). -/
def execBmi (r : Byte) (s : State) : Host.Outcome State Fault Refusal := runInstr (bmiRows r) s

/-- BVC: branch if `P.V = 0` (R227): its cycle table. -/
def bvcRows (r : Byte) : List Row := branchRows (fun p => !p.v) r

/-- BVC: branch if `P.V = 0` (R227). -/
def execBvc (r : Byte) (s : State) : Host.Outcome State Fault Refusal := runInstr (bvcRows r) s

/-- BVS: branch if `P.V = 1` (R228): its cycle table. -/
def bvsRows (r : Byte) : List Row := branchRows (fun p => p.v) r

/-- BVS: branch if `P.V = 1` (R228). -/
def execBvs (r : Byte) (s : State) : Host.Outcome State Fault Refusal := runInstr (bvsRows r) s

/-- BCC: branch if `P.C = 0` (R229): its cycle table. -/
def bccRows (r : Byte) : List Row := branchRows (fun p => !p.c) r

/-- BCC: branch if `P.C = 0` (R229). -/
def execBcc (r : Byte) (s : State) : Host.Outcome State Fault Refusal := runInstr (bccRows r) s

/-- BCS: branch if `P.C = 1` (R230): its cycle table. -/
def bcsRows (r : Byte) : List Row := branchRows (fun p => p.c) r

/-- BCS: branch if `P.C = 1` (R230). -/
def execBcs (r : Byte) (s : State) : Host.Outcome State Fault Refusal := runInstr (bcsRows r) s

/-- BNE: branch if `P.Z = 0` (R231): its cycle table. -/
def bneRows (r : Byte) : List Row := branchRows (fun p => !p.z) r

/-- BNE: branch if `P.Z = 0` (R231). -/
def execBne (r : Byte) (s : State) : Host.Outcome State Fault Refusal := runInstr (bneRows r) s

/-- BEQ: branch if `P.Z = 1` (R232): its cycle table. -/
def beqRows (r : Byte) : List Row := branchRows (fun p => p.z) r

/-- BEQ: branch if `P.Z = 1` (R232). -/
def execBeq (r : Byte) (s : State) : Host.Outcome State Fault Refusal := runInstr (beqRows r) s

end Sys2Proof.Machine
end

