-- ==== Sys2Proof/Machine/LoadStore.lean ====
section
/-! DEFINITION. Loads, stores and register transfers (41_load_store_transfer R160 to R172). -/

namespace Sys2Proof.Machine

/-- LDA: `A <- M; setNZ(A)` (R161): its cycle table. -/
def ldaRows (m : ReadOperand) : List Row := readRows m fun d c => Cpu.setA c d

/-- LDA: `A <- M; setNZ(A)` (R161). -/
def execLda (m : ReadOperand) (s : State) : Host.Outcome State Fault Refusal := runInstr (ldaRows m) s

/-- LDX: `X <- M; setNZ(X)` (R162): its cycle table. -/
def ldxRows (m : ReadOperand) : List Row := readRows m fun d c => Cpu.setX c d

/-- LDX: `X <- M; setNZ(X)` (R162). -/
def execLdx (m : ReadOperand) (s : State) : Host.Outcome State Fault Refusal := runInstr (ldxRows m) s

/-- LDY: `Y <- M; setNZ(Y)` (R163): its cycle table. -/
def ldyRows (m : ReadOperand) : List Row := readRows m fun d c => Cpu.setY c d

/-- LDY: `Y <- M; setNZ(Y)` (R163). -/
def execLdy (m : ReadOperand) (s : State) : Host.Outcome State Fault Refusal := runInstr (ldyRows m) s

/-- STA: `MemWrite(ea, 1, A)`, no flag (R164): its cycle table. -/
def staRows (m : MemOperand) : List Row := storeRows m Cpu.a

/-- STA: `MemWrite(ea, 1, A)`, no flag (R164). -/
def execSta (m : MemOperand) (s : State) : Host.Outcome State Fault Refusal := runInstr (staRows m) s

/-- STX: `MemWrite(ea, 1, X)`, no flag (R165): its cycle table. -/
def stxRows (m : MemOperand) : List Row := storeRows m Cpu.x

/-- STX: `MemWrite(ea, 1, X)`, no flag (R165). -/
def execStx (m : MemOperand) (s : State) : Host.Outcome State Fault Refusal := runInstr (stxRows m) s

/-- STY: `MemWrite(ea, 1, Y)`, no flag (R166): its cycle table. -/
def styRows (m : MemOperand) : List Row := storeRows m Cpu.y

/-- STY: `MemWrite(ea, 1, Y)`, no flag (R166). -/
def execSty (m : MemOperand) (s : State) : Host.Outcome State Fault Refusal := runInstr (styRows m) s

/-- TAX: `X <- A; setNZ(X)` (R167): its cycle table. -/
def taxRows : List Row := impliedRows fun c => c.setX c.a

/-- TAX: `X <- A; setNZ(X)` (R167). -/
def execTax (s : State) : Host.Outcome State Fault Refusal := runInstr taxRows s

/-- TAY: `Y <- A; setNZ(Y)` (R168): its cycle table. -/
def tayRows : List Row := impliedRows fun c => c.setY c.a

/-- TAY: `Y <- A; setNZ(Y)` (R168). -/
def execTay (s : State) : Host.Outcome State Fault Refusal := runInstr tayRows s

/-- TXA: `A <- X; setNZ(A)` (R169): its cycle table. -/
def txaRows : List Row := impliedRows fun c => c.setA c.x

/-- TXA: `A <- X; setNZ(A)` (R169). -/
def execTxa (s : State) : Host.Outcome State Fault Refusal := runInstr txaRows s

/-- TYA: `A <- Y; setNZ(A)` (R170): its cycle table. -/
def tyaRows : List Row := impliedRows fun c => c.setA c.y

/-- TYA: `A <- Y; setNZ(A)` (R170). -/
def execTya (s : State) : Host.Outcome State Fault Refusal := runInstr tyaRows s

/-- TSX: `X <- S; setNZ(X)` (R171): its cycle table. -/
def tsxRows : List Row := impliedRows fun c => c.setX c.s

/-- TSX: `X <- S; setNZ(X)` (R171). -/
def execTsx (s : State) : Host.Outcome State Fault Refusal := runInstr tsxRows s

/-- TXS: `S <- X`, no flag (R172): its cycle table. -/
def txsRows : List Row := impliedRows fun c => { c with s := c.x }

/-- TXS: `S <- X`, no flag (R172). -/
def execTxs (s : State) : Host.Outcome State Fault Refusal := runInstr txsRows s

end Sys2Proof.Machine
end

