-- ==== Sys2Proof/Machine/Rmw.lean ====
section
/-! DEFINITION. Shifts, rotates, increments and decrements (43_rmw_shift_incdec R200 to R211). -/

namespace Sys2Proof.Machine

/-- The two forms of a shift or rotate `op` (R201 to R205): on the accumulator (R115), or read-modify-write in memory. -/
def shiftRows (op : Byte → Bool → Byte × Bool) (m : ShiftOperand) : List Row :=
  match m with
  | .acc => impliedRows fun c => { c with a := (op c.a c.p.c).1, p := c.p.shifted (op c.a c.p.c) }
  | .mem m => rmwRows m (fun c => (op c.dat c.p.c).1) fun c => { c with p := c.p.shifted (op c.dat c.p.c) }

/-- INC and DEC (R201): the modify function `op`, N and Z from its result. -/
def countRows (op : Byte → Byte) (m : MemOperand) : List Row :=
  rmwRows m (fun c => op c.dat) fun c => { c with p := c.p.setNZ (op c.dat) }

/-- ASL (R202): its cycle table. -/
def aslRows (m : ShiftOperand) : List Row := shiftRows asl8 m

/-- ASL (R202). -/
def execAsl (m : ShiftOperand) (s : State) : Host.Outcome State Fault Refusal := runInstr (aslRows m) s

/-- LSR (R203): its cycle table. -/
def lsrRows (m : ShiftOperand) : List Row := shiftRows lsr8 m

/-- LSR (R203). -/
def execLsr (m : ShiftOperand) (s : State) : Host.Outcome State Fault Refusal := runInstr (lsrRows m) s

/-- ROL (R204): its cycle table. -/
def rolRows (m : ShiftOperand) : List Row := shiftRows rol8 m

/-- ROL (R204). -/
def execRol (m : ShiftOperand) (s : State) : Host.Outcome State Fault Refusal := runInstr (rolRows m) s

/-- ROR (R205): its cycle table. -/
def rorRows (m : ShiftOperand) : List Row := shiftRows ror8 m

/-- ROR (R205). -/
def execRor (m : ShiftOperand) (s : State) : Host.Outcome State Fault Refusal := runInstr (rorRows m) s

/-- INC, C and V unchanged (R206): its cycle table. -/
def incRows (m : MemOperand) : List Row := countRows inc8 m

/-- INC, C and V unchanged (R206). -/
def execInc (m : MemOperand) (s : State) : Host.Outcome State Fault Refusal := runInstr (incRows m) s

/-- DEC, C and V unchanged (R207): its cycle table. -/
def decRows (m : MemOperand) : List Row := countRows dec8 m

/-- DEC, C and V unchanged (R207). -/
def execDec (m : MemOperand) (s : State) : Host.Outcome State Fault Refusal := runInstr (decRows m) s

/-- INX (R208): its cycle table. -/
def inxRows : List Row := impliedRows fun c => c.setX (inc8 c.x)

/-- INX (R208). -/
def execInx (s : State) : Host.Outcome State Fault Refusal := runInstr inxRows s

/-- INY (R209): its cycle table. -/
def inyRows : List Row := impliedRows fun c => c.setY (inc8 c.y)

/-- INY (R209). -/
def execIny (s : State) : Host.Outcome State Fault Refusal := runInstr inyRows s

/-- DEX (R210): its cycle table. -/
def dexRows : List Row := impliedRows fun c => c.setX (dec8 c.x)

/-- DEX (R210). -/
def execDex (s : State) : Host.Outcome State Fault Refusal := runInstr dexRows s

/-- DEY (R211): its cycle table. -/
def deyRows : List Row := impliedRows fun c => c.setY (dec8 c.y)

/-- DEY (R211). -/
def execDey (s : State) : Host.Outcome State Fault Refusal := runInstr deyRows s

end Sys2Proof.Machine
end

