-- ==== Sys2Proof/Machine/System.lean ====
section
/-! DEFINITION. Stack, flag, NOP and system instructions (45_stack_flags_system R249 to R263). -/

namespace Sys2Proof.Machine

/-- PHA (R250, R141): its cycle table. -/
def phaRows : List Row := [opcodeRow, dummyPcRow true, pushRow Cpu.a false true]

/-- PHA (R250, R141). -/
def execPha (s : State) : Host.Outcome State Fault Refusal := runInstr phaRows s

/-- PHP: the byte pushed has bits 5 and 4 set (R251, R141): its cycle table. -/
def phpRows : List Row := [opcodeRow, dummyPcRow true, pushRow (fun c => pByte true c.p) false true]

/-- PHP: the byte pushed has bits 5 and 4 set (R251, R141). -/
def execPhp (s : State) : Host.Outcome State Fault Refusal := runInstr phpRows s

/-- The pulls (R142): `S <- S + 1`, then the byte at the slot goes through `f`. -/
def pullRows (f : Byte → Cpu → Cpu) : List Row :=
  [opcodeRow, dummyPcRow, pullDummyRow true, readRow (fun c => stackAddr c.s) f]

/-- PLA (R252, R142): its cycle table. -/
def plaRows : List Row := pullRows fun d c => c.setA d

/-- PLA (R252, R142). -/
def execPla (s : State) : Host.Outcome State Fault Refusal := runInstr plaRows s

/-- PLP: all six flags; the poll has used the old I (R253, R142): its cycle table. -/
def plpRows : List Row := pullRows fun d c => { c with p := setPFrom d }

/-- PLP: all six flags; the poll has used the old I (R253, R142). -/
def execPlp (s : State) : Host.Outcome State Fault Refusal := runInstr plpRows s

/-- CLC: `P.C <- 0` (R254): its cycle table. -/
def clcRows : List Row := impliedRows fun c => { c with p := { c.p with c := false } }

/-- CLC: `P.C <- 0` (R254). -/
def execClc (s : State) : Host.Outcome State Fault Refusal := runInstr clcRows s

/-- SEC: `P.C <- 1` (R255): its cycle table. -/
def secRows : List Row := impliedRows fun c => { c with p := { c.p with c := true } }

/-- SEC: `P.C <- 1` (R255). -/
def execSec (s : State) : Host.Outcome State Fault Refusal := runInstr secRows s

/-- CLI: `P.I <- 0` (R256): its cycle table. -/
def cliRows : List Row := impliedRows fun c => { c with p := { c.p with i := false } }

/-- CLI: `P.I <- 0` (R256). -/
def execCli (s : State) : Host.Outcome State Fault Refusal := runInstr cliRows s

/-- SEI: `P.I <- 1` (R257): its cycle table. -/
def seiRows : List Row := impliedRows fun c => { c with p := { c.p with i := true } }

/-- SEI: `P.I <- 1` (R257). -/
def execSei (s : State) : Host.Outcome State Fault Refusal := runInstr seiRows s

/-- CLV: `P.V <- 0` (R258): its cycle table. -/
def clvRows : List Row := impliedRows fun c => { c with p := { c.p with v := false } }

/-- CLV: `P.V <- 0` (R258). -/
def execClv (s : State) : Host.Outcome State Fault Refusal := runInstr clvRows s

/-- CLD: `P.D <- 0` (R259): its cycle table. -/
def cldRows : List Row := impliedRows fun c => { c with p := { c.p with d := false } }

/-- CLD: `P.D <- 0` (R259). -/
def execCld (s : State) : Host.Outcome State Fault Refusal := runInstr cldRows s

/-- SED: `P.D <- 1` (R260): its cycle table. -/
def sedRows : List Row := impliedRows fun c => { c with p := { c.p with d := true } }

/-- SED: `P.D <- 1` (R260). -/
def execSed (s : State) : Host.Outcome State Fault Refusal := runInstr sedRows s

/-- NOP (R261): its cycle table. -/
def nopRows : List Row := impliedRows id

/-- NOP (R261). -/
def execNop (s : State) : Host.Outcome State Fault Refusal := runInstr nopRows s

/-- BRK (R143, R262): the interrupt sequence with `kind = BRK`. -/
def brkRows : List Row := trapRows .brk

/-- BRK, the software interrupt (R262): takes the exception. -/
def execBrk (s : State) : Host.Outcome State Fault Refusal := runInstr brkRows s

/-- RTI (R140, R263): the shared return. -/
def rtiRows : List Row := returnRows

/-- RTI, return from interrupt (R263). -/
def execRti (s : State) : Host.Outcome State Fault Refusal := runInstr rtiRows s

end Sys2Proof.Machine
end

