-- ==== Sys2Proof/Machine/Alu.lean ====
section
/-! DEFINITION. Arithmetic, logic, compare and bit test (42_alu R180 to R191). -/

namespace Sys2Proof.Machine

/-- `(r, cout, v) <- adc8(A, m, P.C); A <- r; P.C <- cout; P.V <- v; setNZ(A)` (R182). -/
def Cpu.addWithCarry (m : Byte) (c : Cpu) : Cpu := c.takeSum (adc8 c.a m c.p.c)

/-- The same with `M ^ $FF` (R183). -/
def Cpu.subtractWithCarry (m : Byte) (c : Cpu) : Cpu := c.takeSum (sbc8 c.a m c.p.c)

/-- `P.Z <- ((A & M) = $00); P.N <- M[7]; P.V <- M[6]` (R190). -/
def Cpu.bitTest (m : Byte) (c : Cpu) : Cpu :=
  { c with p := { c.p with z := (c.a &&& m) == 0x00, n := m.getLsbD 7, v := m.getLsbD 6 } }

/-- ADC (R182): its cycle table. -/
def adcRows (m : ReadOperand) : List Row := readRows m Cpu.addWithCarry

/-- ADC (R182). -/
def execAdc (m : ReadOperand) (s : State) : Host.Outcome State Fault Refusal := runInstr (adcRows m) s

/-- SBC (R183): its cycle table. -/
def sbcRows (m : ReadOperand) : List Row := readRows m Cpu.subtractWithCarry

/-- SBC (R183). -/
def execSbc (m : ReadOperand) (s : State) : Host.Outcome State Fault Refusal := runInstr (sbcRows m) s

/-- AND: `A <- A & M; setNZ(A)` (R184): its cycle table. -/
def andRows (m : ReadOperand) : List Row := readRows m fun d c => c.setA (c.a &&& d)

/-- AND: `A <- A & M; setNZ(A)` (R184). -/
def execAnd (m : ReadOperand) (s : State) : Host.Outcome State Fault Refusal := runInstr (andRows m) s

/-- ORA: `A <- A | M; setNZ(A)` (R185): its cycle table. -/
def oraRows (m : ReadOperand) : List Row := readRows m fun d c => c.setA (c.a ||| d)

/-- ORA: `A <- A | M; setNZ(A)` (R185). -/
def execOra (m : ReadOperand) (s : State) : Host.Outcome State Fault Refusal := runInstr (oraRows m) s

/-- EOR: `A <- A ^ M; setNZ(A)` (R186): its cycle table. -/
def eorRows (m : ReadOperand) : List Row := readRows m fun d c => c.setA (c.a ^^^ d)

/-- EOR: `A <- A ^ M; setNZ(A)` (R186). -/
def execEor (m : ReadOperand) (s : State) : Host.Outcome State Fault Refusal := runInstr (eorRows m) s

/-- CMP: `cmp8(A, M)` (R187): its cycle table. -/
def cmpRows (m : ReadOperand) : List Row := readRows m fun d c => { c with p := c.p.compare c.a d }

/-- CMP: `cmp8(A, M)` (R187). -/
def execCmp (m : ReadOperand) (s : State) : Host.Outcome State Fault Refusal := runInstr (cmpRows m) s

/-- CPX: `cmp8(X, M)` (R188): its cycle table. -/
def cpxRows (m : ReadOperand) : List Row := readRows m fun d c => { c with p := c.p.compare c.x d }

/-- CPX: `cmp8(X, M)` (R188). -/
def execCpx (m : ReadOperand) (s : State) : Host.Outcome State Fault Refusal := runInstr (cpxRows m) s

/-- CPY: `cmp8(Y, M)` (R189): its cycle table. -/
def cpyRows (m : ReadOperand) : List Row := readRows m fun d c => { c with p := c.p.compare c.y d }

/-- CPY: `cmp8(Y, M)` (R189). -/
def execCpy (m : ReadOperand) (s : State) : Host.Outcome State Fault Refusal := runInstr (cpyRows m) s

/-- BIT (R190): its cycle table. -/
def bitRows (m : MemOperand) : List Row := memReadRows m Cpu.bitTest

/-- BIT (R190). -/
def execBit (m : MemOperand) (s : State) : Host.Outcome State Fault Refusal := runInstr (bitRows m) s

end Sys2Proof.Machine
end

