-- ==== Sys2Proof/Machine/Unofficial.lean ====
section
/-! DEFINITION. The admitted unofficial opcodes (46_unofficial R279 to R297). -/

namespace Sys2Proof.Machine

/-- LAX: `A <- M; X <- M; setNZ(M)` (R280): its cycle table. -/
def laxRows (m : MemOperand) : List Row := memReadRows m fun d c => { c.setX d with a := d }

/-- LAX: `A <- M; X <- M; setNZ(M)` (R280). -/
def execLax (m : MemOperand) (s : State) : Host.Outcome State Fault Refusal := runInstr (laxRows m) s

/-- SAX: the store value is `A & X`, no flag (R281): its cycle table. -/
def saxRows (m : MemOperand) : List Row := storeRows m fun c => c.a &&& c.x

/-- SAX: the store value is `A & X`, no flag (R281). -/
def execSax (m : MemOperand) (s : State) : Host.Outcome State Fault Refusal := runInstr (saxRows m) s

/-- DCP: decrement memory, then `cmp8(A, r)` (R282): its cycle table. -/
def dcpRows (m : MemOperand) : List Row := rmwRows m (fun c => dec8 c.dat) fun c => { c with p := c.p.compare c.a (dec8 c.dat) }

/-- DCP: decrement memory, then `cmp8(A, r)` (R282). -/
def execDcp (m : MemOperand) (s : State) : Host.Outcome State Fault Refusal := runInstr (dcpRows m) s

/-- ISC: increment memory, then SBC (R283): its cycle table. -/
def iscRows (m : MemOperand) : List Row := rmwRows m (fun c => inc8 c.dat) fun c => c.subtractWithCarry (inc8 c.dat)

/-- ISC: increment memory, then SBC (R283). -/
def execIsc (m : MemOperand) (s : State) : Host.Outcome State Fault Refusal := runInstr (iscRows m) s

/-- A shift or rotate of memory followed by a logic operation on A with the new memory value (R279 (c), R284 to R286):
C from the shift, N and Z from the new A. -/
def shiftLogicRows (op : Byte → Bool → Byte × Bool) (logic : Byte → Byte → Byte) (m : MemOperand) : List Row :=
  rmwRows m (fun c => (op c.dat c.p.c).1) fun c =>
    Cpu.setA { c with p := { c.p with c := (op c.dat c.p.c).2 } } (logic c.a (op c.dat c.p.c).1)

/-- SLO: ASL, then ORA (R284): its cycle table. -/
def sloRows (m : MemOperand) : List Row := shiftLogicRows asl8 (fun a r => a ||| r) m

/-- SLO: ASL, then ORA (R284). -/
def execSlo (m : MemOperand) (s : State) : Host.Outcome State Fault Refusal := runInstr (sloRows m) s

/-- RLA: ROL, then AND (R285): its cycle table. -/
def rlaRows (m : MemOperand) : List Row := shiftLogicRows rol8 (fun a r => a &&& r) m

/-- RLA: ROL, then AND (R285). -/
def execRla (m : MemOperand) (s : State) : Host.Outcome State Fault Refusal := runInstr (rlaRows m) s

/-- SRE: LSR, then EOR (R286): its cycle table. -/
def sreRows (m : MemOperand) : List Row := shiftLogicRows lsr8 (fun a r => a ^^^ r) m

/-- SRE: LSR, then EOR (R286). -/
def execSre (m : MemOperand) (s : State) : Host.Outcome State Fault Refusal := runInstr (sreRows m) s

/-- RRA: ROR, then ADC with the carry the rotate produced (R287): its cycle table. -/
def rraRows (m : MemOperand) : List Row := rmwRows m (fun c => (ror8 c.dat c.p.c).1) fun c =>
  c.takeSum (adc8 c.a (ror8 c.dat c.p.c).1 (ror8 c.dat c.p.c).2)

/-- RRA: ROR, then ADC with the carry the rotate produced (R287). -/
def execRra (m : MemOperand) (s : State) : Host.Outcome State Fault Refusal := runInstr (rraRows m) s

/-- `A <- A & imm8; setNZ(A); P.C <- A[7]` (R288). -/
def Cpu.ancOp (v : Byte) (c : Cpu) : Cpu :=
  { c with a := c.a &&& v, p := { c.p.setNZ (c.a &&& v) with c := (c.a &&& v).getLsbD 7 } }

/-- `t <- A & imm8; P.C <- t[0]; A <- t >> 1; setNZ(A)` (R289). -/
def Cpu.alrOp (v : Byte) (c : Cpu) : Cpu :=
  { c with a := (lsr8 (c.a &&& v) false).1, p := c.p.shifted (lsr8 (c.a &&& v) false) }

/-- `A <- (t >> 1) | (P.C << 7); setNZ(A); P.C <- A[6]; P.V <- A[6] ^ A[5]`, with `t = A & imm8` (R290). -/
def Cpu.arrOp (v : Byte) (c : Cpu) : Cpu :=
  let r := (ror8 (c.a &&& v) c.p.c).1
  { c with a := r, p := { c.p.setNZ r with c := r.getLsbD 6, v := r.getLsbD 6 ^^ r.getLsbD 5 } }

/-- `t <- A & X; P.C <- (t >= imm8); X <- t - imm8; setNZ(X)` (R291); the comparison of R181 sets the three flags. -/
def Cpu.axsOp (v : Byte) (c : Cpu) : Cpu :=
  { c with x := (c.a &&& c.x) - v, p := c.p.compare (c.a &&& c.x) v }

/-- ANC (R288): its cycle table, the same for both opcode values. -/
def ancRows (_ : Fin 2) (v : Byte) : List Row := immediateRows v Cpu.ancOp

/-- ANC (R288). -/
def execAnc (k : Fin 2) (v : Byte) (s : State) : Host.Outcome State Fault Refusal := runInstr (ancRows k v) s

/-- ALR (R289): its cycle table. -/
def alrRows (v : Byte) : List Row := immediateRows v Cpu.alrOp

/-- ALR (R289). -/
def execAlr (v : Byte) (s : State) : Host.Outcome State Fault Refusal := runInstr (alrRows v) s

/-- ARR (R290): its cycle table. -/
def arrRows (v : Byte) : List Row := immediateRows v Cpu.arrOp

/-- ARR (R290). -/
def execArr (v : Byte) (s : State) : Host.Outcome State Fault Refusal := runInstr (arrRows v) s

/-- AXS (R291): its cycle table. -/
def axsRows (v : Byte) : List Row := immediateRows v Cpu.axsOp

/-- AXS (R291). -/
def execAxs (v : Byte) (s : State) : Host.Outcome State Fault Refusal := runInstr (axsRows v) s

/-! ## The NOP variants: no register and no flag changes, every read of the table is performed -/

/-- NOP implied (R292): its cycle table. -/
def nopImpRows (_ : Fin 6) : List Row := impliedRows id

/-- NOP implied (R292). -/
def execNopImp (k : Fin 6) (s : State) : Host.Outcome State Fault Refusal := runInstr (nopImpRows k) s

/-- NOP immediate (R293): its cycle table. -/
def nopImmRows (_ : Fin 5) (v : Byte) : List Row := immediateRows v fun _ c => c

/-- NOP immediate (R293). -/
def execNopImm (k : Fin 5) (v : Byte) (s : State) : Host.Outcome State Fault Refusal := runInstr (nopImmRows k v) s

/-- NOP zero page (R294): its cycle table. -/
def nopZpRows (_ : Fin 3) (z : Byte) : List Row := memReadRows (.zp z) fun _ c => c

/-- NOP zero page (R294). -/
def execNopZp (k : Fin 3) (z : Byte) (s : State) : Host.Outcome State Fault Refusal := runInstr (nopZpRows k z) s

/-- NOP zero page,X (R295): its cycle table. -/
def nopZpxRows (_ : Fin 6) (z : Byte) : List Row := memReadRows (.zpx z) fun _ c => c

/-- NOP zero page,X (R295). -/
def execNopZpx (k : Fin 6) (z : Byte) (s : State) : Host.Outcome State Fault Refusal := runInstr (nopZpxRows k z) s

/-- NOP absolute (R296): its cycle table. -/
def nopAbsRows (w : Word) : List Row := memReadRows (.abs w) fun _ c => c

/-- NOP absolute (R296). -/
def execNopAbs (w : Word) (s : State) : Host.Outcome State Fault Refusal := runInstr (nopAbsRows w) s

/-- NOP absolute,X (R297): its cycle table. -/
def nopAbsxRows (_ : Fin 6) (w : Word) : List Row := memReadRows (.absx w) fun _ c => c

/-- NOP absolute,X (R297). -/
def execNopAbsx (k : Fin 6) (w : Word) (s : State) : Host.Outcome State Fault Refusal := runInstr (nopAbsxRows k w) s

end Sys2Proof.Machine
end

