-- ==== Sys2Proof/Machine/Unlisted.lean ====
section
/-! DEFINITION. The 21 unlisted opcode values (46_unofficial R298). Under `UnlistedPolicy.refuse`, the default, each is refused by
name; under `UnlistedPolicy.conventional` each has the behaviour 93_implementation_defined U1 to U9 records. -/

namespace Sys2Proof.Machine

/-- An unlisted opcode under the machine's `UNLISTED_POLICY` (R298): refused once its opcode is fetched, or run. -/
def unlisted (rows : List Row) (s : State) : Host.Outcome State Fault Refusal :=
  match s.cfg.unlisted with
  | .refuse => .refused (.unlistedOpcode s.fetchOpcode)
  | .conventional => runInstr rows s

/-- KIL: no row after the opcode fetch; under the conventional policy the CPU stops fetching (U1). -/
def kilRows (_ : Fin 12) : List Row := []

/-- KIL (R298, U1). -/
def execKil (_ : Fin 12) (s : State) : Host.Outcome State Fault Refusal :=
  match s.cfg.unlisted with
  | .refuse => .refused (.unlistedOpcode s.fetchOpcode)
  | .conventional => .fault (.jammed s.fetchOpcode)

/-- The next free value, and the latch that says it is taken. -/
def Cpu.free (c : Cpu) : Byte := Config.freeByte c.fresh
def Cpu.takeFree (c : Cpu) : Cpu := { c with fresh := c.fresh + 1 }

/-- `A <- (A | CONST) & X & imm` (U2), CONST a free value. -/
def Cpu.xaaOp (v : Byte) (c : Cpu) : Cpu := c.takeFree.setA ((c.a ||| c.free) &&& c.x &&& v)

/-- `A <- X <- (A | CONST) & imm` (U3), CONST a free value. -/
def Cpu.lxaOp (v : Byte) (c : Cpu) : Cpu :=
  { c.takeFree.setX ((c.a ||| c.free) &&& v) with a := (c.a ||| c.free) &&& v }

/-- `A <- X <- S <- M & S` (U9). -/
def Cpu.lasOp (m : Byte) (c : Cpu) : Cpu := { c.setX (m &&& c.s) with a := m &&& c.s, s := m &&& c.s }

/-- `H + 1` (U5), `H` the high byte of the base address; the fixup has already added the carry to `hi`. -/
def Cpu.baseHiPlusOne (c : Cpu) : Byte := if c.cross then c.hi else c.hi + 1

/-- Where an unstable store goes (U5 to U7): on a page cross the target's high byte is corrupted, a free value. -/
def Cpu.unstableTarget (c : Cpu) : Word := if c.cross then join c.free c.lo else c.hilo

/-- The tables of the unstable stores: R127 and R133 with that target; a page cross takes one free value. -/
def unstableStoreRows (m : MemOperand) (v : Cpu → Byte) : List Row :=
  storeAddressRows m ++
    [{ bus := fun c => .write c.unstableTarget (v c)
       act := fun _ c => if c.cross then c.takeFree else c
       last := fun _ => true }]

/-- XAA (R298, U2): its cycle table. -/
def xaaRows (v : Byte) : List Row := immediateRows v Cpu.xaaOp

/-- XAA (R298, U2). -/
def execXaa (v : Byte) (s : State) : Host.Outcome State Fault Refusal := unlisted (xaaRows v) s

/-- LXA (R298, U3): its cycle table. -/
def lxaRows (v : Byte) : List Row := immediateRows v Cpu.lxaOp

/-- LXA (R298, U3). -/
def execLxa (v : Byte) (s : State) : Host.Outcome State Fault Refusal := unlisted (lxaRows v) s

/-- SBC #imm, the duplicate $EB: identical to $E9 (R298, U4): its cycle table. -/
def usbcRows (v : Byte) : List Row := immediateRows v Cpu.subtractWithCarry

/-- SBC #imm, the duplicate $EB: identical to $E9 (R298, U4). -/
def execUsbc (v : Byte) (s : State) : Host.Outcome State Fault Refusal := unlisted (usbcRows v) s

/-- AHX (zp),Y (R298, U5): its cycle table. -/
def ahxIndyRows (z : Byte) : List Row := unstableStoreRows (.indy z) fun c => c.a &&& c.x &&& c.baseHiPlusOne

/-- AHX (zp),Y (R298, U5). -/
def execAhxIndy (z : Byte) (s : State) : Host.Outcome State Fault Refusal := unlisted (ahxIndyRows z) s

/-- AHX abs,Y (R298, U5): its cycle table. -/
def ahxAbsyRows (w : Word) : List Row := unstableStoreRows (.absy w) fun c => c.a &&& c.x &&& c.baseHiPlusOne

/-- AHX abs,Y (R298, U5). -/
def execAhxAbsy (w : Word) (s : State) : Host.Outcome State Fault Refusal := unlisted (ahxAbsyRows w) s

/-- SHY abs,X (R298, U6): its cycle table. -/
def shyRows (w : Word) : List Row := unstableStoreRows (.absx w) fun c => c.y &&& c.baseHiPlusOne

/-- SHY abs,X (R298, U6). -/
def execShy (w : Word) (s : State) : Host.Outcome State Fault Refusal := unlisted (shyRows w) s

/-- SHX abs,Y (R298, U7): its cycle table. -/
def shxRows (w : Word) : List Row := unstableStoreRows (.absy w) fun c => c.x &&& c.baseHiPlusOne

/-- SHX abs,Y (R298, U7). -/
def execShx (w : Word) (s : State) : Host.Outcome State Fault Refusal := unlisted (shxRows w) s

/-- TAS abs,Y: `S <- A & X`; stores `S & (H + 1)` (R298, U8): its cycle table. -/
def tasRows (w : Word) : List Row := storeAddressRows (.absy w) ++
    [{ bus := fun c => .write c.hilo (c.a &&& c.x &&& c.baseHiPlusOne)
       act := fun _ c => { c with s := c.a &&& c.x }
       last := fun _ => true }]

/-- TAS abs,Y: `S <- A & X`; stores `S & (H + 1)` (R298, U8). -/
def execTas (w : Word) (s : State) : Host.Outcome State Fault Refusal := unlisted (tasRows w) s

/-- LAS abs,Y (R298, U9): its cycle table. -/
def lasRows (w : Word) : List Row := memReadRows (.absy w) Cpu.lasOp

/-- LAS abs,Y (R298, U9). -/
def execLas (w : Word) (s : State) : Host.Outcome State Fault Refusal := unlisted (lasRows w) s

end Sys2Proof.Machine
end

