-- ==== Sys2Proof/Machine/Sequencer.lean ====
section
/-! DEFINITION. The sequencer: what the next step is (R112), the bytes the fetch will see, the machine one CPU cycle at a
time (R110), an instruction taken up in the middle (R29), and what the core shows the orchestrator (R66, R146). -/

namespace Sys2Proof.Machine

/-- The cycle table of an instruction; the meanings of Dispatch run the same tables. -/
def rowsOf : Instr → List Row
  | .lda m => ldaRows m
  | .ldx m => ldxRows m
  | .ldy m => ldyRows m
  | .sta m => staRows m
  | .stx m => stxRows m
  | .sty m => styRows m
  | .tax => taxRows
  | .tay => tayRows
  | .txa => txaRows
  | .tya => tyaRows
  | .tsx => tsxRows
  | .txs => txsRows
  | .adc m => adcRows m
  | .sbc m => sbcRows m
  | .and m => andRows m
  | .ora m => oraRows m
  | .eor m => eorRows m
  | .cmp m => cmpRows m
  | .cpx m => cpxRows m
  | .cpy m => cpyRows m
  | .bit m => bitRows m
  | .asl m => aslRows m
  | .lsr m => lsrRows m
  | .rol m => rolRows m
  | .ror m => rorRows m
  | .inc m => incRows m
  | .dec m => decRows m
  | .inx => inxRows
  | .iny => inyRows
  | .dex => dexRows
  | .dey => deyRows
  | .jmp w => jmpRows w
  | .jmpInd w => jmpIndRows w
  | .jsr w => jsrRows w
  | .rts => rtsRows
  | .bpl r => bplRows r
  | .bmi r => bmiRows r
  | .bvc r => bvcRows r
  | .bvs r => bvsRows r
  | .bcc r => bccRows r
  | .bcs r => bcsRows r
  | .bne r => bneRows r
  | .beq r => beqRows r
  | .pha => phaRows
  | .php => phpRows
  | .pla => plaRows
  | .plp => plpRows
  | .clc => clcRows
  | .sec => secRows
  | .cli => cliRows
  | .sei => seiRows
  | .clv => clvRows
  | .cld => cldRows
  | .sed => sedRows
  | .nop => nopRows
  | .brk => brkRows
  | .rti => rtiRows
  | .lax m => laxRows m
  | .sax m => saxRows m
  | .dcp m => dcpRows m
  | .isc m => iscRows m
  | .slo m => sloRows m
  | .rla m => rlaRows m
  | .sre m => sreRows m
  | .rra m => rraRows m
  | .anc k v => ancRows k v
  | .alr v => alrRows v
  | .arr v => arrRows v
  | .axs v => axsRows v
  | .nopImp k => nopImpRows k
  | .nopImm k v => nopImmRows k v
  | .nopZp k z => nopZpRows k z
  | .nopZpx k z => nopZpxRows k z
  | .nopAbs w => nopAbsRows w
  | .nopAbsx k w => nopAbsxRows k w
  | .kil k => kilRows k
  | .xaa v => xaaRows v
  | .lxa v => lxaRows v
  | .usbc v => usbcRows v
  | .ahxIndy z => ahxIndyRows z
  | .ahxAbsy w => ahxAbsyRows w
  | .shy w => shyRows w
  | .shx w => shxRows w
  | .tas w => tasRows w
  | .las w => lasRows w

/-- The 21 unlisted opcode values (R86). -/
def isUnlisted : Instr → Bool
  | .kil _ | .xaa _ | .lxa _ | .usbc _ | .ahxIndy _ | .ahxAbsy _ | .shy _ | .shx _ | .tas _ | .las _ => true
  | .lda _ | .ldx _ | .ldy _ | .sta _ | .stx _ | .sty _ | .tax | .tay | .txa | .tya | .tsx | .txs
  | .adc _ | .sbc _ | .and _ | .ora _ | .eor _ | .cmp _ | .cpx _ | .cpy _ | .bit _
  | .asl _ | .lsr _ | .rol _ | .ror _ | .inc _ | .dec _ | .inx | .iny | .dex | .dey
  | .jmp _ | .jmpInd _ | .jsr _ | .rts
  | .bpl _ | .bmi _ | .bvc _ | .bvs _ | .bcc _ | .bcs _ | .bne _ | .beq _
  | .pha | .php | .pla | .plp | .clc | .sec | .cli | .sei | .clv | .cld | .sed | .nop | .brk | .rti
  | .lax _ | .sax _ | .dcp _ | .isc _ | .slo _ | .rla _ | .sre _ | .rra _
  | .anc _ _ | .alr _ | .arr _ | .axs _
  | .nopImp _ | .nopImm _ _ | .nopZp _ _ | .nopZpx _ _ | .nopAbs _ | .nopAbsx _ _ => false

/-! ## The bytes at the program counter -/

/-- The bytes the next `n` cycles would read if each fetched at `PC`: the answer of memory, device or open bus. Nothing
is consumed; the cycles of the instruction perform these reads. -/
def fetchAhead : Nat → State → List Byte
  | 0, _ => []
  | n + 1, s =>
    let s' := opcodeRow.cycle s
    s'.bus.latch :: fetchAhead n s'

/-- The instruction at the program counter: no instruction is longer than three bytes (R80). -/
def State.fetched (s : State) : Option Instr := decodeInstr (fetchAhead 3 s)

/-- The instruction whose cycles are in progress: the opcode in `IR`, and for an operand byte still to come the byte at
`PC`. A row that has its operand takes it from the latches. -/
def State.inProgress (s : State) : Option Instr :=
  match fetchAhead 1 s with
  | b :: _ => decodeInstr [s.cpu.ir, b, b]
  | [] => none

/-! ## What the next step is -/

/-- The start of a step: a new log, and the stall cycles granted before the first active cycle. -/
def State.beginStep (s : State) : State := State.serveStalls { s with bus := { s.bus with log := [] } }

/-- What a step does. -/
inductive Plan where
  /-- A cycle table is in progress: its remaining cycles. -/
  | resume (s : State)
  | reset (s : State)
  | interrupt (s : State)
  | instruction (i : Instr) (s : State)
  /-- The decoder rejects the bytes. -/
  | undecoded

/-- The decision of R112, after the stall cycles; the instruction at `PC` when no sequence is due. -/
def plan (s : State) : Plan :=
  let s := s.beginStep
  if s.cpu.t = 1 then
    let s := s.boundary
    match s.cpu.seq with
    | .reset => .reset s
    | .int => .interrupt s
    | .instr =>
      match s.fetched with
      | some i => .instruction i s
      | none => .undecoded
  else .resume s

/-! ## One cycle at a time -/

/-- The table in progress, whole: of the sequence, or of the instruction (`IR` and the byte at `PC` say which). -/
def State.table (s : State) (i : Option Instr) : List Row :=
  match s.cpu.seq with
  | .reset => trapRows .reset
  | .int => trapRows .int
  | .instr =>
    match i with
    | some i => rowsOf i
    | none => []

/-- Why there is no row to perform: an unlisted opcode is refused or has jammed, its opcode fetched (R298), or the latches are
those of no table. -/
def noRow (s : State) (i : Option Instr) : Host.Outcome State Fault Refusal :=
  let fetched := if s.cpu.t = 1 then s.fetchOpcode else s
  match s.cpu.seq, i with
  | .instr, some i =>
    if isUnlisted i then
      match s.cfg.unlisted with
      | .refuse => .refused (.unlistedOpcode fetched)
      | .conventional => if (rowsOf i).isEmpty then .fault (.jammed fetched) else .fault .noSuchCycle
    else .fault .noSuchCycle
  | _, _ => .fault .noSuchCycle

/-- The rows from cycle `T` on; none for an unlisted opcode under the refusing policy. -/
def State.rowsLeft (s : State) (i : Option Instr) : List Row :=
  if s.cpu.t = 0 then []
  else if s.cpu.seq = .instr ∧ s.cfg.unlisted = .refuse ∧ (i.map isUnlisted).getD false then []
  else (s.table i).drop (s.cpu.t - 1)

/-- One active cycle of the core, after the stall cycles granted before it: one call of the orchestrator (R110). -/
def cycle (s : State) : Host.Outcome State Fault Refusal :=
  let s := s.serveStalls
  let s := if s.cpu.t = 1 then s.boundary else s
  let i := if s.cpu.t = 1 then s.fetched else s.inProgress
  match s.rowsLeft i with
  | [] => noRow s i
  | r :: _ => .next (r.cycle s)

/-- Cycles up to the next instruction boundary, at most `n`: none is eight away, the longest table has eight rows. -/
def cyclesToBoundary : Nat → State → Host.Outcome State Fault Refusal
  | 0, _ => .fault .noSuchCycle
  | n + 1, s =>
    match cycle s with
    | .next s' => if s'.cpu.t = 1 then .next s' else cyclesToBoundary n s'
    | .fault r => .fault r
    | .refused r => .refused r

/-- The remaining cycles of the table in progress, one at a time: each cycle reads its own operand byte (R29, R55, R63). -/
def resume (s : State) : Host.Outcome State Fault Refusal := cyclesToBoundary 8 s

/-! ## What the core shows the orchestrator -/

/-- `NextKind` (R66): the kind of the transaction the core performs in its next active cycle. -/
inductive NextKind where
  | read
  | write
  deriving DecidableEq, Repr

/-- `NextKind`, read off the cycle table in progress; at an instruction boundary it is `read` (R66, R146). -/
def State.nextKind (s : State) : NextKind :=
  if s.cpu.t = 1 then .read
  else
    match (s.table s.inProgress)[s.cpu.t - 1]? with
    | some r =>
      match r.bus s.cpu with
      | .read _ => .read
      | .write _ _ => .write
    | none => .read

/-! ## The host's operations (R375) -/

/-- `reset()` (R371): the line is asserted, and the latch holds it until the next instruction boundary. -/
def State.requestReset (s : State) : State := { s with irq := { s.irq with resetPending := true } }

/-- Bytes laid into memory from an address on, the first at the lowest; addresses wrap (R22, R55). -/
def State.placeBytes (s : State) : Word → List Byte → State
  | _, [] => s
  | a, b :: rest =>
    State.placeBytes { s with bus := { s.bus with mem := Memory.write s.bus.mem (cellOf s.cfg.map a) b } } (a + 1) rest

/-- The machine at an instruction boundary at which nothing but the instruction at `PC` is due, and memory answers. -/
def State.readyToFetch (s : State) : State :=
  { s with
    cpu := { s.cpu with t := 1 }
    irq := { s.irq with resetPending := false, intReq := false }
    bus := { s.bus with inputs := [] } }

end Sys2Proof.Machine
end

