-- ==== Sys2Proof/Machine/Step.lean ====
section
/-! DEFINITION. One step: from one instruction boundary to the next, an instruction or a whole interrupt or reset sequence. -/

namespace Sys2Proof.Machine

/-- One step (R110, R112): the stall cycles granted first, the boundary's decision, then the cycles of what it chose. -/
def step (s : State) : Host.Outcome State Fault Refusal :=
  match plan s with
  | .resume s' => resume s'
  | .reset s' => takeTrap .reset s'
  | .interrupt s' => takeTrap .int s'
  | .instruction i s' => exec i s'
  | .undecoded => .refused .truncated

/-- The state with an instruction's bytes where the next step fetches, and nothing due before it (log entry 5). -/
def State.withFetchWord (s : State) (nbits w : Nat) : State :=
  State.placeBytes s.readyToFetch s.cpu.pc (tableBytes nbits w)

end Sys2Proof.Machine
end

