-- ==== Sys2Proof/Safety.lean ====
section
/-! DEFINITION. What a safe run is, in the terms the statements use: the environment that says nothing, the invariant
of the states, the states a run can be in, the regions of the platform's address map, and the tables of what an
instruction may write and how long it takes (10_state R24, 40_bus_cycles R145). -/

namespace Sys2Proof.Machine

/-! ## Environments and states -/

/-- The environment says nothing: no stall, memory answers, no other agent stores, the lines keep their levels (the test
environment of 95_test_vectors, with constant lines). -/
abbrev State.quiet (s : State) : Prop := s.bus.inputs = []

/-- In the coming cycles no agent but the core stores a byte (R59). -/
abbrev State.alone (s : State) : Prop := ∀ i ∈ s.bus.inputs, i.writes = [] ∧ ∀ st ∈ i.stalls, st.writes = []

/-- In the coming cycles memory answers every transaction; stalls, lines and other agents' stores are free. -/
abbrev State.memoryServes (s : State) : Prop := ∀ i ∈ s.bus.inputs, i.target = .memory

/-- In the coming cycles memory answers every transaction, and no other agent stores into it; stalls and lines are free. -/
abbrev State.memoryAnswers (s : State) : Prop := s.memoryServes ∧ s.alone

/-- At an instruction boundary (R29, R31). -/
abbrev State.atBoundary (s : State) : Prop := s.cpu.t = 1 ∧ s.cpu.seq = .instr

/-- The invariant: memory is in canonical form, and the core is at an instruction boundary. -/
abbrev State.Inv (s : State) : Prop := Memory.wf s.bus.mem = true ∧ s.atBoundary

/-- No reset and no interrupt is due at the next boundary: the next step runs the instruction at `PC`. -/
abbrev State.noneDue (s : State) : Prop := s.irq.resetPending = false ∧ s.irq.intReq = false

/-- The NMI side is silent: no edge is latched, and the level held gives none. -/
abbrev State.nmiSilent (s : State) : Prop :=
  s.irq.nmiPending = false ∧ (s.bus.lines.nmi = true → s.irq.nmiPrev = true)

/-- A step that stops with no fault and no refusal. -/
abbrev SafeStep (s : State) : Prop := ∃ t, step s = .next t

/-- The states a run can be in: from power-on with any RAM contents and parameters (R370, R5), by steps, with the
environment choosing the coming cycles' inputs as it likes between steps (R59, R65). -/
inductive Reachable : State → Prop where
  | powerOn (m : Memory) (cfg : Config) (h : Memory.wf m = true) :
      Reachable { State.powerOn with bus := { State.powerOn.bus with mem := m }, cfg := cfg }
  | inputs (s : State) (is : List CycleInput) (h : Reachable s) :
      Reachable { s with bus := { s.bus with inputs := is } }
  | step (s t : State) (h : Reachable s) (hs : step s = .next t) : Reachable t

/-! ## What a program sees -/

/-- The complete register set of R26, without the sequencing latches. -/
structure Regs where
  a : Byte
  x : Byte
  y : Byte
  s : Byte
  pc : Word
  p : Flags
  deriving DecidableEq, Repr

/-- The registers of a state. -/
def State.regs (s : State) : Regs := ⟨s.cpu.a, s.cpu.x, s.cpu.y, s.cpu.s, s.cpu.pc, s.cpu.p⟩

/-- The effective address of an operand at a state (R81). -/
def State.address (s : State) (m : MemOperand) : Word := addressOf m s.cpu s.peek

/-- The operand byte at a state (R82). -/
def State.operand (s : State) (m : ReadOperand) : Byte := valueOf m s.cpu s.peek

/-- The address of the instruction that follows `i` (R22). -/
def State.following (s : State) (i : Instr) : Word := s.cpu.pc + BitVec.ofNat 16 i.length

/-- The stack slot `k` above the stack pointer (R21). -/
def State.slot (s : State) (k : Byte) : Byte := s.peek (stackAddr (s.cpu.s + k))

/-- From `s` to `t` memory has taken one byte, at one bus address, and every other address reads as before. -/
def State.storesByte (s t : State) (a : Word) (v : Byte) : Prop :=
  t.bus.mem = Memory.write s.bus.mem (cellOf s.cfg.map a) v ∧
  (Memory.wf s.bus.mem = true → t.peek a = v) ∧
  ∀ b, cellOf s.cfg.map b ≠ cellOf s.cfg.map a → t.peek b = s.peek b

/-! ## What stands in a log (newest first) -/

/-- The transaction of a bus cycle, without the byte a read gave; a stall has none, and other agents' stores are not the
core's. -/
def BusCycle.op? : BusCycle → Option BusOp
  | .read a _ => some (.read a)
  | .write a v => some (.write a v)
  | .stall | .other _ _ => none

/-- The core's transactions: the active cycles of R110, without the bytes read. -/
def transactions (log : List BusCycle) : List BusOp := log.filterMap BusCycle.op?

/-- The active cycles of R110, with the bytes read. -/
def activeCycles (log : List BusCycle) : List BusCycle := log.filter fun c => c.op?.isSome

/-- The CPU cycles, active and stall: other agents' stores take none of their own (R59, R110). -/
def cyclesOf (log : List BusCycle) : List BusCycle :=
  log.filter fun c => match c with
    | .read _ _ | .write _ _ | .stall => true
    | .other _ _ => false

/-- Memory after the stores of a log, the core's and other agents', when memory answers the core's. -/
def replay (map : AddressMap) (log : List BusCycle) (m : Memory) : Memory :=
  log.foldr (fun c m => match c with
    | .write a v | .other a v => Memory.write m (cellOf map a) v
    | .read _ _ | .stall => m) m

/-- From `s` to `t` the core has performed these transactions and no others, the first of them first. -/
def State.performs (s t : State) (ops : List BusOp) : Prop :=
  transactions t.bus.log = ops.reverse ++ transactions s.bus.log

/-- From `s` to `t` the core has stored nothing: no write transaction, and memory is as it was but for other agents' stores. -/
def State.writesNothing (s t : State) : Prop :=
  ∃ new, t.bus.log = new ++ s.bus.log ∧ (∀ (a : Word) (v : Byte), BusCycle.write a v ∉ new) ∧
    t.bus.mem = replay s.cfg.map new s.bus.mem ∧ (s.alone → t.bus.mem = s.bus.mem)

/-! ## Lines over several cycles -/

/-- A rising edge in a list of samples, after a sample `prev` (R321). -/
def risingEdge : Bool → List Bool → Bool
  | _, [] => false
  | prev, l :: ls => (l && !prev) || risingEdge l ls

/-- The lines sampled in an input's cycles: its stall cycles, then its active cycle (R65, R110). -/
def CycleInput.samples (i : CycleInput) : List Lines := i.stalls.map Stall.lines ++ [i.lines]

/-- The NMI levels sampled in a list of inputs. -/
def nmiSamples (is : List CycleInput) : List Bool := (is.flatMap CycleInput.samples).map Lines.nmi

/-- The NMI level last sampled. -/
def lastLevel (prev : Bool) (ls : List Bool) : Bool := ls.getLastD prev

/-- The condition and the offset of a branch (R225 to R232). -/
def branchOf : Instr → Option ((Flags → Bool) × Byte)
  | .bpl r => some (fun p => !p.n, r)
  | .bmi r => some (fun p => p.n, r)
  | .bvc r => some (fun p => !p.v, r)
  | .bvs r => some (fun p => p.v, r)
  | .bcc r => some (fun p => !p.c, r)
  | .bcs r => some (fun p => p.c, r)
  | .bne r => some (fun p => !p.z, r)
  | .beq r => some (fun p => p.z, r)
  | .lda _ | .ldx _ | .ldy _ | .sta _ | .stx _ | .sty _ | .tax | .tay | .txa | .tya | .tsx | .txs
  | .adc _ | .sbc _ | .and _ | .ora _ | .eor _ | .cmp _ | .cpx _ | .cpy _ | .bit _
  | .asl _ | .lsr _ | .rol _ | .ror _ | .inc _ | .dec _ | .inx | .iny | .dex | .dey
  | .jmp _ | .jmpInd _ | .jsr _ | .rts | .pha | .php | .pla | .plp
  | .clc | .sec | .cli | .sei | .clv | .cld | .sed | .nop | .brk | .rti
  | .lax _ | .sax _ | .dcp _ | .isc _ | .slo _ | .rla _ | .sre _ | .rra _
  | .anc _ _ | .alr _ | .arr _ | .axs _
  | .nopImp _ | .nopImm _ _ | .nopZp _ _ | .nopZpx _ _ | .nopAbs _ | .nopAbsx _ _
  | .kil _ | .xaa _ | .lxa _ | .usbc _ | .ahxIndy _ | .ahxAbsy _ | .shy _ | .shx _ | .tas _ | .las _ => none

/-- The same state with another D flag. -/
def State.withD (s : State) (b : Bool) : State := { s with cpu := { s.cpu with p := { s.cpu.p with d := b } } }

/-! ## The platform's address map (R54) -/

/-- The regions R54 names. -/
inductive Region where
  | ram
  | ppu
  | io
  | unstated
  | cartridge
  deriving DecidableEq, Repr

/-- The region of an address (R54). -/
def regionOf (a : Word) : Region :=
  if a.toNat < 0x2000 then .ram
  else if a.toNat < 0x4000 then .ppu
  else if a.toNat < 0x4020 then .io
  else if a.toNat < 0x6000 then .unstated
  else .cartridge

/-- Whether a bus cycle touches only RAM or the cartridge: no device register, whose reads have side effects (R58). -/
def BusCycle.deviceFree : BusCycle → Bool
  | .read a _ | .write a _ => regionOf a == .ram || regionOf a == .cartridge
  | .stall | .other _ _ => true

/-- The last step touched no device register, so memory answering all of it is what the platform does (log entry 3). -/
def State.deviceFree (s : State) : Bool := s.bus.log.all BusCycle.deviceFree

/-! ## What an instruction may write -/

/-- A set of flags or of registers, one Bool each. -/
structure FlagSet where
  n : Bool := false
  v : Bool := false
  d : Bool := false
  i : Bool := false
  z : Bool := false
  c : Bool := false
  deriving DecidableEq, Repr

/-- The table of R24, with the unlisted opcodes as 93 U1 to U9 have them. -/
def flagsWritten : Instr → FlagSet
  | .lda _ | .ldx _ | .ldy _ | .tax | .tay | .txa | .tya | .tsx | .pla | .and _ | .ora _ | .eor _ | .inc _ | .dec _
  | .inx | .iny | .dex | .dey | .lax _ | .xaa _ | .lxa _ | .las _ => { n := true, z := true }
  | .adc _ | .sbc _ | .rra _ | .isc _ | .arr _ | .usbc _ => { n := true, v := true, z := true, c := true }
  | .cmp _ | .cpx _ | .cpy _ | .dcp _ | .axs _ => { n := true, z := true, c := true }
  | .asl _ | .rol _ | .ror _ | .slo _ | .rla _ | .sre _ | .anc _ _ | .lsr _ | .alr _ => { n := true, z := true, c := true }
  | .bit _ => { n := true, v := true, z := true }
  | .clc | .sec => { c := true }
  | .cld | .sed => { d := true }
  | .cli | .sei | .brk => { i := true }
  | .clv => { v := true }
  | .plp | .rti => { n := true, v := true, d := true, i := true, z := true, c := true }
  | .sta _ | .stx _ | .sty _ | .sax _ | .txs | .pha | .php | .jmp _ | .jmpInd _ | .jsr _ | .rts
  | .nop | .nopImp _ | .nopImm _ _ | .nopZp _ _ | .nopZpx _ _ | .nopAbs _ | .nopAbsx _ _
  | .bpl _ | .bmi _ | .bvc _ | .bvs _ | .bcc _ | .bcs _ | .bne _ | .beq _
  | .kil _ | .ahxIndy _ | .ahxAbsy _ | .shy _ | .shx _ | .tas _ => {}

/-- Two flag registers agree outside a set of flags. -/
def Flags.agreeOutside (w : FlagSet) (p q : Flags) : Prop :=
  (w.n = false → p.n = q.n) ∧ (w.v = false → p.v = q.v) ∧ (w.d = false → p.d = q.d) ∧
  (w.i = false → p.i = q.i) ∧ (w.z = false → p.z = q.z) ∧ (w.c = false → p.c = q.c)

/-- A set of the byte registers. -/
structure RegSet where
  a : Bool := false
  x : Bool := false
  y : Bool := false
  s : Bool := false
  deriving DecidableEq, Repr

/-- Which byte registers an instruction's rule writes (R20, R21 and the rules of files 41 to 46; 93 U1 to U9). -/
def registersWritten : Instr → RegSet
  | .lda _ | .txa | .tya | .adc _ | .sbc _ | .and _ | .ora _ | .eor _
  | .isc _ | .slo _ | .rla _ | .sre _ | .rra _ | .anc _ _ | .alr _ | .arr _ | .xaa _ | .usbc _ => { a := true }
  | .asl m | .lsr m | .rol m | .ror m => { a := m == .acc }
  | .ldx _ | .tax | .tsx | .inx | .dex | .axs _ => { x := true }
  | .ldy _ | .tay | .iny | .dey => { y := true }
  | .lax _ | .lxa _ => { a := true, x := true }
  | .las _ => { a := true, x := true, s := true }
  | .pla => { a := true, s := true }
  | .txs | .pha | .php | .plp | .jsr _ | .rts | .brk | .rti | .tas _ => { s := true }
  | .sta _ | .stx _ | .sty _ | .cmp _ | .cpx _ | .cpy _ | .bit _ | .inc _ | .dec _ | .jmp _ | .jmpInd _
  | .bpl _ | .bmi _ | .bvc _ | .bvs _ | .bcc _ | .bcs _ | .bne _ | .beq _
  | .clc | .sec | .cli | .sei | .clv | .cld | .sed | .nop | .sax _ | .dcp _
  | .nopImp _ | .nopImm _ _ | .nopZp _ _ | .nopZpx _ _ | .nopAbs _ | .nopAbsx _ _
  | .kil _ | .ahxIndy _ | .ahxAbsy _ | .shy _ | .shx _ => {}

/-- Two register files agree outside a set of byte registers. -/
def Cpu.agreeOutside (w : RegSet) (p q : Cpu) : Prop :=
  (w.a = false → p.a = q.a) ∧ (w.x = false → p.x = q.x) ∧ (w.y = false → p.y = q.y) ∧ (w.s = false → p.s = q.s)

/-- Whether an instruction performs a write transaction (R160, R200, R201; the stack instructions; R146). -/
def writesMemory : Instr → Bool
  | .sta _ | .stx _ | .sty _ | .sax _ | .inc _ | .dec _ | .dcp _ | .isc _ | .slo _ | .rla _ | .sre _ | .rra _
  | .pha | .php | .jsr _ | .brk | .ahxIndy _ | .ahxAbsy _ | .shy _ | .shx _ | .tas _ => true
  | .asl m | .lsr m | .rol m | .ror m => m != .acc
  | .lda _ | .ldx _ | .ldy _ | .tax | .tay | .txa | .tya | .tsx | .txs
  | .adc _ | .sbc _ | .and _ | .ora _ | .eor _ | .cmp _ | .cpx _ | .cpy _ | .bit _
  | .inx | .iny | .dex | .dey | .jmp _ | .jmpInd _ | .rts
  | .bpl _ | .bmi _ | .bvc _ | .bvs _ | .bcc _ | .bcs _ | .bne _ | .beq _
  | .pla | .plp | .clc | .sec | .cli | .sei | .clv | .cld | .sed | .nop | .rti
  | .lax _ | .anc _ _ | .alr _ | .arr _ | .axs _
  | .nopImp _ | .nopImm _ _ | .nopZp _ _ | .nopZpx _ _ | .nopAbs _ | .nopAbsx _ _
  | .kil _ | .xaa _ | .lxa _ | .usbc _ | .las _ => false

/-! ## Cycle counts (R145) -/

/-- The index addition leaves the page of the base address: the `+1` of R145. -/
def pageCross (m : MemOperand) (c : Cpu) (rd : Word → Byte) : Bool :=
  hiByte (addressOf m c rd) != hiByte (baseOf m rd)

/-- The pre-fixup address of an indexed form: the page of the base, the low byte already indexed (R126, R132). -/
def preFixup (m : MemOperand) (c : Cpu) (rd : Word → Byte) : Word :=
  join (hiByte (baseOf m rd)) (loByte (addressOf m c rd))

/-- The reads before an instruction's access to its operand, in order: opcode, operand bytes, dummy reads, pointer bytes
(R117 to R134). The pre-fixup address is read on a page cross, or, `always`, in the write and read-modify-write tables. -/
def leadIn (always : Bool) (m : MemOperand) (c : Cpu) (rd : Word → Byte) : List BusOp :=
  let fixup := if always || pageCross m c rd then [.read (preFixup m c rd)] else []
  match m with
  | .zp _ => [.read c.pc, .read (c.pc + 1)]
  | .zpx z | .zpy z => [.read c.pc, .read (c.pc + 1), .read (zpAddr z)]
  | .abs _ => [.read c.pc, .read (c.pc + 1), .read (c.pc + 2)]
  | .absx _ | .absy _ => [.read c.pc, .read (c.pc + 1), .read (c.pc + 2)] ++ fixup
  | .indx z =>
    [.read c.pc, .read (c.pc + 1), .read (zpAddr z), .read (zpAddr (z + c.x)), .read (zpAddr (z + c.x + 1))]
  | .indy z => [.read c.pc, .read (c.pc + 1), .read (zpAddr z), .read (zpAddr (z + 1))] ++ fixup

/-- The transactions of an instruction that reads its operand (R116, R117, R120, R123, R126, R129, R132). -/
def State.readOps (s : State) : ReadOperand → List BusOp
  | .imm _ => [.read s.cpu.pc, .read (s.cpu.pc + 1)]
  | .mem m => leadIn false m s.cpu s.peek ++ [.read (s.address m)]

/-- The transactions of a store (R118, R121, R124, R127, R130, R133). -/
def State.storeOps (s : State) (m : MemOperand) (v : Byte) : List BusOp :=
  leadIn true m s.cpu s.peek ++ [.write (s.address m) v]

/-- The transactions of a read-modify-write: the read, the dummy write of the byte read, the write of the result (R119, R122,
R125, R128, R131, R134). -/
def State.rmwOps (s : State) (m : MemOperand) (r : Byte) : List BusOp :=
  leadIn true m s.cpu s.peek ++
    [.read (s.address m), .write (s.address m) (s.operand (.mem m)), .write (s.address m) r]

/-- The read column of R145. -/
def readCycles (m : MemOperand) (c : Cpu) (rd : Word → Byte) : Nat :=
  match m with
  | .zp _ => 3
  | .zpx _ | .zpy _ | .abs _ => 4
  | .absx _ | .absy _ => if pageCross m c rd then 5 else 4
  | .indx _ => 6
  | .indy _ => if pageCross m c rd then 6 else 5

/-- The read column, the immediate form with it. -/
def operandCycles (m : ReadOperand) (c : Cpu) (rd : Word → Byte) : Nat :=
  match m with
  | .imm _ => 2
  | .mem m => readCycles m c rd

/-- The write column of R145. -/
def writeCycles : MemOperand → Nat
  | .zp _ => 3
  | .zpx _ | .zpy _ | .abs _ => 4
  | .absx _ | .absy _ => 5
  | .indx _ | .indy _ => 6

/-- The RMW column of R145. -/
def rmwCycles : MemOperand → Nat
  | .zp _ => 5
  | .zpx _ | .zpy _ | .abs _ => 6
  | .absx _ | .absy _ => 7
  | .indx _ | .indy _ => 8

/-- A shift on the accumulator takes two cycles (R115). -/
def shiftCycles : ShiftOperand → Nat
  | .acc => 2
  | .mem m => rmwCycles m

/-- The REL row of R145: 2 not taken, 3 taken, 4 taken with page cross. -/
def branchCycles (taken : Bool) (next : Word) (r : Byte) : Nat :=
  if taken then (if branchCrosses next r then 4 else 3) else 2

/-- The documented cycle table, R145 (and 93 U1 to U9 for the unlisted opcodes): the cycles of an instruction at `PC` of
`c`, memory read through `rd`. -/
def cycleCount (i : Instr) (c : Cpu) (rd : Word → Byte) : Nat :=
  match i with
  | .lda m | .ldx m | .ldy m | .adc m | .sbc m | .and m | .ora m | .eor m | .cmp m | .cpx m | .cpy m => operandCycles m c rd
  | .bit m | .lax m => readCycles m c rd
  | .sta m | .stx m | .sty m | .sax m => writeCycles m
  | .inc m | .dec m | .dcp m | .isc m | .slo m | .rla m | .sre m | .rra m => rmwCycles m
  | .asl m | .lsr m | .rol m | .ror m => shiftCycles m
  | .tax | .tay | .txa | .tya | .tsx | .txs | .inx | .iny | .dex | .dey
  | .clc | .sec | .cli | .sei | .clv | .cld | .sed | .nop | .nopImp _ => 2
  | .anc _ _ | .alr _ | .arr _ | .axs _ | .nopImm _ _ | .xaa _ | .lxa _ | .usbc _ => 2
  | .nopZp _ z => readCycles (.zp z) c rd
  | .nopZpx _ z => readCycles (.zpx z) c rd
  | .nopAbs w => readCycles (.abs w) c rd
  | .nopAbsx _ w => readCycles (.absx w) c rd
  | .jmp _ => 3
  | .jmpInd _ => 5
  | .jsr _ | .rts | .rti => 6
  | .bpl r => branchCycles (!c.p.n) (c.pc + 2) r
  | .bmi r => branchCycles c.p.n (c.pc + 2) r
  | .bvc r => branchCycles (!c.p.v) (c.pc + 2) r
  | .bvs r => branchCycles c.p.v (c.pc + 2) r
  | .bcc r => branchCycles (!c.p.c) (c.pc + 2) r
  | .bcs r => branchCycles c.p.c (c.pc + 2) r
  | .bne r => branchCycles (!c.p.z) (c.pc + 2) r
  | .beq r => branchCycles c.p.z (c.pc + 2) r
  | .pha | .php => 3
  | .pla | .plp => 4
  | .brk => 7
  | .kil _ => 1
  | .ahxIndy z => writeCycles (.indy z)
  | .ahxAbsy w | .shx w | .tas w => writeCycles (.absy w)
  | .shy w => writeCycles (.absx w)
  | .las w => readCycles (.absy w) c rd

end Sys2Proof.Machine
end

