-- ==== Sys2Proof/Certificates/Slice0/Obligations.lean ====
section
/-! DEFINITION. The statements for the provers, in the order of OBLIGATIONS.json. -/

open Sys2Proof Sys2Proof.Machine

/-! ## Encoding -/

/-- Words written out from the encodings of R84 and of the instructions' own rules, one or more of every family, are the
instructions they stand for. -/
def Obligations.SampleWordsDecode : Prop :=
  decodeInstr [0xA9, 0x80] = some (.lda (.imm 0x80)) ∧
  decodeInstr [0xB6, 0x80] = some (.ldx (.mem (.zpy 0x80))) ∧
  decodeInstr [0x8D, 0x00, 0x02] = some (.sta (.abs 0x0200)) ∧
  decodeInstr [0xAA] = some .tax ∧
  decodeInstr [0x71, 0x20] = some (.adc (.mem (.indy 0x20))) ∧
  decodeInstr [0xC1, 0x20] = some (.cmp (.mem (.indx 0x20))) ∧
  decodeInstr [0x2C, 0x02, 0x20] = some (.bit (.abs 0x2002)) ∧
  decodeInstr [0x0A] = some (.asl .acc) ∧
  decodeInstr [0x7E, 0x34, 0x12] = some (.ror (.mem (.absx 0x1234))) ∧
  decodeInstr [0xE6, 0x10] = some (.inc (.zp 0x10)) ∧
  decodeInstr [0x6C, 0xFF, 0x02] = some (.jmpInd 0x02FF) ∧
  decodeInstr [0x20, 0x34, 0x12] = some (.jsr 0x1234) ∧
  decodeInstr [0xD0, 0xFB] = some (.bne 0xFB) ∧
  decodeInstr [0x28] = some .plp ∧
  decodeInstr [0x00] = some .brk ∧
  decodeInstr [0x97, 0x05] = some (.sax (.zpy 0x05)) ∧
  decodeInstr [0xDB, 0x00, 0x03] = some (.dcp (.absy 0x0300)) ∧
  decodeInstr [0x2B, 0x0F] = some (.anc 1 0x0F) ∧
  decodeInstr [0xFC, 0x00, 0x20] = some (.nopAbsx 5 0x2000) ∧
  decodeInstr [0xF2] = some (.kil 11) ∧
  decodeInstr [0x9E, 0x00, 0x80] = some (.shx 0x8000)

/-- Decoding the bytes of a well-formed instruction gives the instruction back, every operand at every value, and
leaves the bytes after it (R80 to R84 against the encoding tables of files 41 to 46). -/
def Obligations.DecodeReadsEncode : Prop :=
  ∀ (i : Instr) (rest : List Byte), i.wellFormed = true → decode (encode i ++ rest) = .ok (i, rest)

/-- What decodes is a well-formed instruction, and encoding it gives back the bytes that were read: no two byte strings
are one instruction (R80, R84). -/
def Obligations.EncodeRestoresTheBytes : Prop :=
  ∀ (bs rest : List Byte) (i : Instr), decode bs = .ok (i, rest) → i.wellFormed = true ∧ encode i ++ rest = bs

/-- The first byte alone decides instruction, format and length (R80, R83): every value is an opcode, and whatever the
two bytes after it are, they are operand only. -/
def Obligations.OpcodeAloneDecides : Prop :=
  ∀ op : Byte, ∃ md : Mode, ∀ (b1 b2 : Byte) (rest : List Byte), ∃ i : Instr,
    decode (op :: b1 :: b2 :: rest) = .ok (i, (op :: b1 :: b2 :: rest).drop i.length) ∧
    opcode i = some op ∧ i.mode = md ∧ i.length = md.length ∧ 1 ≤ i.length ∧ i.length ≤ 3

/-! ## The step -/

/-- A step at an instruction boundary at which nothing is due runs the instruction whose bytes stand at `PC`: memory
answers, no reset and no interrupt is latched, and `exec` runs from cycle 1 with an empty log. -/
def Obligations.StepRunsTheDecodedInstruction : Prop :=
  ∀ (s : State) (i : Instr) (rest : List Byte),
    s.quiet → s.cpu.t = 1 → s.noneDue →
    decode [s.peek s.cpu.pc, s.peek (s.cpu.pc + 1), s.peek (s.cpu.pc + 2)] = .ok (i, rest) →
    step s = exec i { s with cpu := { s.cpu with seq := .instr }, bus := { s.bus with log := [] } }

/-- A step is its CPU cycles (R110, R29, C1): from every state, in any environment, the whole step and the machine that
performs one cycle a call end in the same outcome; and a step taken up after any cycle of it ends where the whole step ends,
with the log of what was left to do: what an instruction does is the same wherever it is interrupted and continued. -/
def Obligations.StepIsItsCycles : Prop :=
  (∀ s : State, step s = cyclesToBoundary 8 { s with bus := { s.bus with log := [] } }) ∧
  ∀ s u t : State, cycle s = .next u → u.cpu.t ≠ 1 → step s = .next t →
    ∃ first rest : List BusCycle, u.bus.log = first ++ s.bus.log ∧ t.bus.log = rest ++ first ∧
      step u = .next { t with bus := { t.bus with log := rest } }

/-- Every step keeps memory in canonical form and ends at an instruction boundary (R29, R31), from every state. -/
def Obligations.EveryStepKeepsTheInvariant : Prop :=
  ∀ s t : State, s.Inv → step s = .next t → t.Inv

/-- The power-on state and the reset state meet the invariant (R31). -/
def Obligations.ResetMeetsTheInvariant : Prop := State.powerOn.Inv ∧ State.reset.Inv

/-- The only step that stops is one that runs an unlisted opcode value: no address, no operand and no interrupt stops
the machine (R11, R51, R298). -/
def Obligations.OnlyUnlistedOpcodesStop : Prop :=
  ∀ s : State, s.atBoundary → (∀ (i : Instr) (u : State), plan s = .instruction i u → isUnlisted i = false) → SafeStep s

/-- Every admitted instruction completes, in every state and every environment: devices, open bus and stalls included. It
ends at an instruction boundary (R11, R51, R323). -/
def Obligations.AdmittedInstructionsComplete : Prop :=
  ∀ (i : Instr) (s : State), isUnlisted i = false →
    ∃ t, exec i s = .next t ∧ t.atBoundary ∧ t.cfg = s.cfg

/-! ## Reset, interrupts and the polls -/

/-- From power-on the first step is the reset sequence, and it leaves the reset state (R31 columns (a) and (b), R370). The
model's choices in it: the memory that nothing has written (log entry 2); the values of the sequencing latches, of the data
latch and of the lines, which R31 leaves without meaning (log entries 8 and 16); the log of the seven cycles (log entry 18). -/
def Obligations.PowerOnStepIsReset : Prop := step State.powerOn = .next State.reset

/-- The reset sequence (R372, R373), whatever else is pending: seven reads at the addresses of the table, `S` minus 3, I
set, `PC` from $FFFC and $FFFD, everything else of the registers and memory kept, `cyc` at 7; the boundary discards a pending
NMI and a requested interrupt (R112), so that only what the lines show during the sequence is latched after it. -/
def Obligations.ResetSequence : Prop :=
  ∀ s : State, s.quiet → s.cpu.t = 1 → s.irq.resetPending = true →
    ∃ t, step s = .next t ∧
      t.regs = { s.regs with
        s := s.cpu.s - 3
        p := { s.cpu.p with i := true }
        pc := join (s.peek 0xFFFD) (s.peek 0xFFFC) } ∧
      t.bus.mem = s.bus.mem ∧ t.cyc = 7 ∧ t.atBoundary ∧
      t.irq = {
        nmiPrev := s.bus.lines.nmi
        nmiPending := s.bus.lines.nmi && !s.irq.nmiPrev
        resetPending := s.bus.lines.reset
        intReq := false } ∧
      t.bus.log.reverse =
        [.read s.cpu.pc (s.peek s.cpu.pc), .read s.cpu.pc (s.peek s.cpu.pc),
         .read (stackAddr s.cpu.s) (s.slot 0), .read (stackAddr (s.cpu.s - 1)) (s.peek (stackAddr (s.cpu.s - 1))),
         .read (stackAddr (s.cpu.s - 2)) (s.peek (stackAddr (s.cpu.s - 2))),
         .read 0xFFFC (s.peek 0xFFFC), .read 0xFFFD (s.peek 0xFFFD)]

/-- A reset writes nothing and keeps A, X, Y and the other flags in every environment: stalls, devices, lines and other
agents' stores as they may be (R372, R31 column (c)). -/
def Obligations.ResetPreservesMemory : Prop :=
  ∀ s : State, s.cpu.t = 1 → s.beginStep.irq.resetPending = true →
    ∃ t, step s = .next t ∧ { s with bus := { s.bus with log := [] } }.writesNothing t ∧
      t.cpu.a = s.cpu.a ∧ t.cpu.x = s.cpu.x ∧ t.cpu.y = s.cpu.y ∧ t.cpu.s = s.cpu.s - 3 ∧
      t.cpu.p = { s.cpu.p with i := true } ∧ t.irq.intReq = false ∧ t.atBoundary

/-- A requested interrupt replaces the next instruction with the interrupt sequence (R112, R330): `PC` and the status
with B = 0 are pushed, I is set, D and the rest are kept, and `PC` comes from $FFFA when an NMI edge is latched, else from
$FFFE. The vector's own bytes are read after the pushes, which cannot reach them. -/
def Obligations.InterruptSequence : Prop :=
  ∀ s : State, s.quiet → s.cpu.t = 1 → s.irq.resetPending = false → s.irq.intReq = true →
    let v : Word := if s.irq.nmiPending || (s.bus.lines.nmi && !s.irq.nmiPrev) then 0xFFFA else 0xFFFE
    ∃ t, step s = .next t ∧
      t.regs = { s.regs with
        s := s.cpu.s - 3
        p := { s.cpu.p with i := true }
        pc := join (s.peek (v + 1)) (s.peek v) } ∧
      t.irq.nmiPending = false ∧ t.irq.intReq = false ∧ t.atBoundary ∧
      t.bus.log.reverse =
        [.read s.cpu.pc (s.peek s.cpu.pc), .read s.cpu.pc (s.peek s.cpu.pc),
         .write (stackAddr s.cpu.s) (hiByte s.cpu.pc), .write (stackAddr (s.cpu.s - 1)) (loByte s.cpu.pc),
         .write (stackAddr (s.cpu.s - 2)) (pByte false s.cpu.p),
         .read v (s.peek v), .read (v + 1) (s.peek (v + 1))] ∧
      t.bus.mem = replay s.cfg.map t.bus.log s.bus.mem

/-- BRK (R262, R330): `a + 2` and the status with B = 1 are pushed, I is set, and `PC` comes from $FFFE, or from $FFFA
when an NMI edge is latched in time. -/
def Obligations.BrkSequence : Prop :=
  ∀ s : State, s.quiet →
    let v : Word := if s.irq.nmiPending || (s.bus.lines.nmi && !s.irq.nmiPrev) then 0xFFFA else 0xFFFE
    let cycles : List BusCycle :=
      [.read (v + 1) (s.peek (v + 1)), .read v (s.peek v),
       .write (stackAddr (s.cpu.s - 2)) (pByte true s.cpu.p),
       .write (stackAddr (s.cpu.s - 1)) (loByte (s.cpu.pc + 2)), .write (stackAddr s.cpu.s) (hiByte (s.cpu.pc + 2)),
       .read (s.cpu.pc + 1) (s.peek (s.cpu.pc + 1)), .read s.cpu.pc (s.peek s.cpu.pc)]
    ∃ t, exec .brk s = .next t ∧
      t.regs = { s.regs with
        s := s.cpu.s - 3
        p := { s.cpu.p with i := true }
        pc := join (s.peek (v + 1)) (s.peek v) } ∧
      t.irq.nmiPending = false ∧ t.irq.intReq = s.irq.intReq ∧ t.atBoundary ∧
      t.bus.log = cycles ++ s.bus.log ∧ t.bus.mem = replay s.cfg.map cycles s.bus.mem

/-- The hijack window (R331), for BRK and for a hardware interrupt, with the line moving as it will and stalls anywhere:
the NMI vector is read exactly when an edge is latched by the end of cycle `HIJACK_WINDOW`, and the edge is then consumed; an
edge after that stays pending. The last two transactions say which vector it was. -/
def Obligations.HijackWindow : Prop :=
  ∀ (s t : State), 7 ≤ s.bus.inputs.length → (exec .brk s = .next t ∨ (s.cpu.t = 1 ∧ s.cpu.seq = .int ∧ takeTrap .int s = .next t)) →
    let w := windowCycle s.cfg.hijackWindow
    let early := nmiSamples (s.bus.inputs.take w)
    let late := nmiSamples ((s.bus.inputs.take 7).drop w)
    let v : Word := if s.irq.nmiPending || risingEdge s.irq.nmiPrev early then 0xFFFA else 0xFFFE
    (transactions t.bus.log).take 2 = [.read (v + 1), .read v] ∧
    t.irq.nmiPending = risingEdge (lastLevel s.irq.nmiPrev early) late

/-- BRK and the hardware sequences do not poll (R329): in every environment no interrupt is requested during them. -/
def Obligations.SequencesDoNotPoll : Prop :=
  (∀ s t : State, exec .brk s = .next t → t.irq.intReq = s.irq.intReq) ∧
  (∀ s t : State, s.cpu.t = 1 → s.beginStep.boundary.cpu.seq ≠ .instr → step s = .next t → t.irq.intReq = false)

/-- The interrupt latches after an instruction under steady lines (R324, R144, R321, R322): every instruction but BRK polls;
the poll uses the I flag from before CLI, SEI and PLP and the restored one in RTI. -/
def Obligations.LatchesAfterAnInstruction : Prop :=
  ∀ (i : Instr) (s t : State), s.quiet → i ≠ .brk → exec i s = .next t →
    t.irq = {
      nmiPrev := s.bus.lines.nmi
      nmiPending := s.irq.nmiPending || (s.bus.lines.nmi && !s.irq.nmiPrev)
      resetPending := s.irq.resetPending || s.bus.lines.reset
      intReq := s.irq.intReq || s.irq.nmiPending || (s.bus.lines.nmi && !s.irq.nmiPrev) ||
        (s.bus.lines.irq && !(if i = .rti then t.cpu.p.i else s.cpu.p.i)) }

/-- The delay of I-flag changes (R327), IRQ asserted and no NMI: after CLI nothing is requested and the next polling
instruction requests it; after SEI from I = 0 it is requested though I is now 1; RTI counts the restored I at once. -/
def Obligations.IFlagDelay : Prop :=
  ∀ s : State, s.quiet → s.nmiSilent → s.bus.lines.irq = true → s.irq.intReq = false →
    (s.cpu.p.i = true →
      ∃ t, exec .cli s = .next t ∧ t.irq.intReq = false ∧ t.cpu.p.i = false ∧
        ∀ (j : Instr) (u : State), j ≠ .brk → j ≠ .rti → exec j t = .next u → u.irq.intReq = true) ∧
    (s.cpu.p.i = false → ∃ t, exec .sei s = .next t ∧ t.irq.intReq = true ∧ t.cpu.p.i = true) ∧
    (∃ t, exec .plp s = .next t ∧ t.irq.intReq = !s.cpu.p.i ∧ t.cpu.p.i = (s.slot 1).getLsbD 2) ∧
    (∃ t, exec .rti s = .next t ∧ t.cpu.p.i = (s.slot 1).getLsbD 2 ∧ t.irq.intReq = !(s.slot 1).getLsbD 2)

/-- Which poll points of a branch are active (R326), under both values of `BRANCH_POLL`: the IRQ line and the NMI line may
differ at the end of each of the branch's cycles. -/
def Obligations.BranchPollPoints : Prop :=
  ∀ (i : Instr) (cond : Flags → Bool) (r : Byte) (s t : State) (l1 l2 l3 l4 : Lines) (tg : Target) (rest : List CycleInput),
    branchOf i = some (cond, r) →
    s.bus.inputs = [⟨[], tg, l1, []⟩, ⟨[], tg, l2, []⟩, ⟨[], tg, l3, []⟩, ⟨[], tg, l4, []⟩] ++ rest →
    exec i s = .next t →
    let sample := fun (ls : List Lines) (l : Lines) =>
      s.irq.nmiPending || risingEdge s.irq.nmiPrev (ls.map Lines.nmi) || (l.irq && !s.cpu.p.i)
    let s1 := sample [l1] l1
    let s2 := sample [l1, l2] l2
    let s3 := sample [l1, l2, l3] l3
    t.irq.intReq = (s.irq.intReq ||
      (if cond s.cpu.p then
        if branchCrosses (s.cpu.pc + 2) r then s1 || s3
        else match s.cfg.branchPoll with
          | .doc => s2
          | .nesdev => s1
      else s1))

/-- The NMI edge detector and the reset latch over any run of sampled cycles (R321, R322): pending after it exactly when
pending before it or when some sample is 1 and the one before it is 0; a reset exactly when some sample shows it. -/
def Obligations.EdgeDetector : Prop :=
  ∀ (l : Latches) (ns : List Lines),
    let l' : Latches := ns.foldl Latches.sample l
    let levels : List Bool := ns.map Lines.nmi
    (l'.nmiPending = true ↔ l.nmiPending = true ∨
      ∃ k : Nat, levels[k]? = some true ∧ (l.nmiPrev :: levels)[k]? = some false) ∧
    (l'.resetPending = true ↔ l.resetPending = true ∨ ∃ n ∈ ns, n.reset = true) ∧
    l'.nmiPrev = levels.getLastD l.nmiPrev ∧
    l'.intReq = l.intReq

/-! ## The bus -/

/-- A run of stall cycles (R65): only the count, the edge detector and the reset latch, the data latch and the lines change,
and memory by what other agents store in it (R59). -/
def Obligations.StallCyclesTouchNothingElse : Prop :=
  ∀ (s : State) (is : List Stall),
    let s' := is.foldl State.stallCycle s
    s'.cpu = s.cpu ∧ s'.cfg = s.cfg ∧ s'.bus.inputs = s.bus.inputs ∧
    s'.bus.mem = Memory.writes s.cfg.map s.bus.mem (is.flatMap Stall.writes) ∧
    s'.cyc = s.cyc + BitVec.ofNat 64 is.length ∧
    s'.irq = (is.map Stall.lines).foldl Latches.sample s.irq

/-- Where memory answers, no stall, no DMA byte and no level of a line changes what an instruction does to registers,
memory and the bus (R62, R65, R111): it ends as it would in silence. BRK alone may take another vector. -/
def Obligations.StallsAndLinesChangeNoResult : Prop :=
  ∀ (i : Instr) (s t : State), s.memoryAnswers → i ≠ .brk → exec i s = .next t →
    ∃ u, exec i { s with bus := { s.bus with inputs := [] } } = .next u ∧
      t.cpu = u.cpu ∧ t.bus.mem = u.bus.mem ∧ t.bus.latch = u.bus.latch ∧
      activeCycles t.bus.log = activeCycles u.bus.log

/-- Memory consistency (R59, R50), wherever memory answers, other agents storing as they will: memory after a step is memory
before it with every store of the step applied in order, the core's and theirs; and every read of the core gives the byte of
the latest earlier store to its cell. For instructions, sequences and an instruction taken up in the middle. -/
def Obligations.MemoryIsTheWritesReplayed : Prop :=
  ∀ s t : State, s.memoryServes → step s = .next t →
    t.bus.mem = replay s.cfg.map t.bus.log s.bus.mem ∧
    ∀ (newer older : List BusCycle) (a : Word) (d : Byte), t.bus.log = newer ++ .read a d :: older →
      d = Memory.read (replay s.cfg.map older s.bus.mem) (cellOf s.cfg.map a)

/-- In every environment, an address whose cell no store of the step names, the core's or another agent's, reads as before
(R50, R51, R59). -/
def Obligations.UnwrittenAddressesKeepTheirBytes : Prop :=
  ∀ (s t : State) (a : Word), step s = .next t →
    (∀ (b : Word) (v : Byte), BusCycle.write b v ∈ t.bus.log ∨ BusCycle.other b v ∈ t.bus.log →
      cellOf s.cfg.map b ≠ cellOf s.cfg.map a) →
    t.peek a = s.peek a

/-- `cyc` counts every CPU cycle, stall cycles included, and restarts at 0 at the boundary that starts a reset sequence
(R27, R65, R112). -/
def Obligations.CycCountsEveryCycle : Prop :=
  ∀ s t : State, step s = .next t →
    let stalled := ((s.bus.inputs.head?).map fun i => i.stalls.length).getD 0
    t.cyc =
      if s.cpu.t = 1 ∧ s.beginStep.irq.resetPending = true then BitVec.ofNat 64 ((cyclesOf t.bus.log).length - stalled)
      else s.cyc + BitVec.ofNat 64 (cyclesOf t.bus.log).length

/-- The data latch after a step is the byte of its last transaction, read or written (R52). -/
def Obligations.LatchIsTheLastByte : Prop :=
  ∀ s t : State, step s = .next t →
    ∃ (c : BusCycle) (rest : List BusCycle) (a : Word), cyclesOf t.bus.log = c :: rest ∧
      (c = .read a t.bus.latch ∨ c = .write a t.bus.latch)

/-- Every instruction's first cycle reads the opcode at `PC` into `IR`, in every environment (R113). That `IR` still holds it
at the boundary after the instruction, where R29 gives it no meaning, is the model's choice (log entry 16). -/
def Obligations.FirstCycleIsTheFetch : Prop :=
  ∀ (i : Instr) (s t : State), exec i s = .next t →
    ∃ (cycles : List BusCycle), activeCycles t.bus.log = cycles ++ [.read s.cpu.pc t.cpu.ir] ++ activeCycles s.bus.log

/-- The documented cycle table (R145): the active cycles of every instruction, the page-cross cycle and the branch cases
included, stalls or not. -/
def Obligations.CycleCounts : Prop :=
  ∀ (i : Instr) (s t : State), s.memoryAnswers → exec i s = .next t →
    (activeCycles t.bus.log).length = (activeCycles s.bus.log).length + cycleCount i s.cpu s.peek

/-- `NextKind` tells the kind of the very next transaction (R66, R146), at a boundary and inside every table. -/
def Obligations.NextKindIsRight : Prop :=
  ∀ s t : State, cycle s = .next t →
    ∃ (a : Word) (v : Byte) (rest : List BusCycle),
      cyclesOf t.bus.log = (match s.nextKind with | .read => BusCycle.read a v | .write => BusCycle.write a v) :: rest

/-- The platform's RAM answers alike at every mirror (R54): a byte stored through one mirror reads at every other. -/
def Obligations.RamIsMirrored : Prop :=
  ∀ (s : State) (m : MemOperand), s.cfg.map = .console → s.memoryAnswers → Memory.wf s.bus.mem = true →
    (s.address m).toNat < 0x2000 →
    ∃ t, exec (.sta m) s = .next t ∧
      ∀ a : Word, a.toNat < 0x2000 → a.toNat % 0x0800 = (s.address m).toNat % 0x0800 → t.peek a = s.cpu.a

/-! ## What instructions may write -/

/-- The table of R24: every flag but those listed for the instruction is kept, in every environment. -/
def Obligations.FlagsFrame : Prop :=
  ∀ (i : Instr) (s t : State), exec i s = .next t → Flags.agreeOutside (flagsWritten i) t.cpu.p s.cpu.p

/-- Every byte register but those the instruction's rule writes is kept, in every environment (R20, R21). -/
def Obligations.RegistersFrame : Prop :=
  ∀ (i : Instr) (s t : State), exec i s = .next t → Cpu.agreeOutside (registersWritten i) t.cpu s.cpu

/-- An instruction without a write cycle performs no write transaction and leaves every byte of memory, in every environment:
other agents' stores apart (R160, R146, R59). -/
def Obligations.MemoryFrame : Prop :=
  ∀ (i : Instr) (s t : State), writesMemory i = false → exec i s = .next t →
    s.writesNothing t ∧
    ∀ a : Word, (∀ (b : Word) (v : Byte), BusCycle.other b v ∈ t.bus.log → cellOf s.cfg.map b ≠ cellOf s.cfg.map a) →
      t.peek a = s.peek a

/-- D is kept and read by nothing but the pushes (R24, R180, R279): an instruction that neither pushes nor loads P does
the same from the state with another D, and leaves that D. -/
def Obligations.DecimalFlagIsInert : Prop :=
  ∀ (i : Instr) (s t : State) (b : Bool), i ∉ [.php, .brk, .plp, .rti, .cld, .sed] → exec i s = .next t →
    exec i (s.withD b) = .next (t.withD b)

/-! ## Arithmetic -/

/-- The adder (R180) against the integers: the sum with its carry out is exact, the overflow says that the signed sum lies
outside -128 to 127; subtraction likewise, its carry out being "no borrow". -/
def Obligations.AdderIsExact : Prop :=
  ∀ (a m : Byte) (c : Bool),
    (adc8 a m c).r.toNat + 256 * (adc8 a m c).c.toNat = a.toNat + m.toNat + c.toNat ∧
    ((adc8 a m c).v = true ↔ a.toInt + m.toInt + c.toNat < -128 ∨ 127 < a.toInt + m.toInt + c.toNat) ∧
    sbc8 a m c = adc8 a (m ^^^ 0xFF) c ∧
    (sbc8 a m c).r = a - m - (BitVec.ofBool !c).setWidth 8 ∧
    ((sbc8 a m c).c = true ↔ m.toNat + (!c).toNat ≤ a.toNat) ∧
    ((sbc8 a m c).v = true ↔ a.toInt - m.toInt - (!c).toNat < -128 ∨ 127 < a.toInt - m.toInt - (!c).toNat)

/-- The comparison (R181): C is the unsigned `r >= m`, Z is `r = m`, N is bit 7 of the difference; V, D and I are kept and the
carry flag is not an input. They are the flags of the subtraction without borrow. -/
def Obligations.CompareIsSubtraction : Prop :=
  ∀ (p : Flags) (r m : Byte),
    p.compare r m = { p with
      n := (r - m).getLsbD 7, z := decide (r = m), c := decide (m.toNat ≤ r.toNat) } ∧
    p.compare r m = { p.setNZ (sbc8 r m true).r with c := (sbc8 r m true).c }

/-- The modify functions (R200): the rotates are 9-bit rotations through the carry, each the other's inverse; the shifts
double and halve; the counts wrap. -/
def Obligations.RotatesAreNineBit : Prop :=
  ∀ (d : Byte) (c : Bool),
    (rol8 d c).1.toNat + 256 * (rol8 d c).2.toNat = 2 * d.toNat + c.toNat ∧
    2 * (ror8 d c).1.toNat + (ror8 d c).2.toNat = d.toNat + 256 * c.toNat ∧
    ror8 (rol8 d c).1 (rol8 d c).2 = (d, c) ∧ rol8 (ror8 d c).1 (ror8 d c).2 = (d, c) ∧
    asl8 d c = rol8 d false ∧ lsr8 d c = ror8 d false ∧
    (inc8 d).toNat = (d.toNat + 1) % 256 ∧ dec8 (inc8 d) = d

/-! ## Results: loads, stores, transfers -/

/-- LDA, LDX, LDY and LAX (R161 to R163, R280), every operand form: the register takes the operand byte, N and Z follow
it, `PC` stands at the next instruction, nothing else changes; and the reads are those of the form's cycle table in its order,
the dummy reads at their addresses among them (R116, R117, R120, R123, R126, R129, R132). -/
def Obligations.LoadsRun : Prop :=
  ∀ s : State, s.memoryAnswers →
    (∀ m : ReadOperand, ∃ t, exec (.lda m) s = .next t ∧
      t.regs = { s.regs with a := s.operand m, p := s.cpu.p.setNZ (s.operand m), pc := s.following (.lda m) } ∧
      t.bus.mem = s.bus.mem ∧ s.performs t (s.readOps m)) ∧
    (∀ m : ReadOperand, ∃ t, exec (.ldx m) s = .next t ∧
      t.regs = { s.regs with x := s.operand m, p := s.cpu.p.setNZ (s.operand m), pc := s.following (.ldx m) } ∧
      t.bus.mem = s.bus.mem ∧ s.performs t (s.readOps m)) ∧
    (∀ m : ReadOperand, ∃ t, exec (.ldy m) s = .next t ∧
      t.regs = { s.regs with y := s.operand m, p := s.cpu.p.setNZ (s.operand m), pc := s.following (.ldy m) } ∧
      t.bus.mem = s.bus.mem ∧ s.performs t (s.readOps m)) ∧
    (∀ m : MemOperand, ∃ t, exec (.lax m) s = .next t ∧
      t.regs = { s.regs with
        a := s.operand (.mem m), x := s.operand (.mem m), p := s.cpu.p.setNZ (s.operand (.mem m)), pc := s.following (.lax m) } ∧
      t.bus.mem = s.bus.mem ∧ s.performs t (s.readOps (.mem m)))

/-- The six transfers (R167 to R172), in every environment: opcode, one byte, two cycles, both reads (R114), the value moved, N
and Z from it but for TXS. -/
def Obligations.TransfersRun : Prop :=
  opcode .tax = some 0xAA ∧ opcode .tay = some 0xA8 ∧ opcode .txa = some 0x8A ∧ opcode .tya = some 0x98 ∧
  opcode .tsx = some 0xBA ∧ opcode .txs = some 0x9A ∧
  ∀ s : State,
    let done := fun (i : Instr) (r : Regs) => ∃ t, exec i s = .next t ∧ t.regs = r ∧ s.writesNothing t ∧
      i.length = 1 ∧ s.performs t [.read s.cpu.pc, .read (s.cpu.pc + 1)]
    done .tax { s.regs with x := s.cpu.a, p := s.cpu.p.setNZ s.cpu.a, pc := s.cpu.pc + 1 } ∧
    done .tay { s.regs with y := s.cpu.a, p := s.cpu.p.setNZ s.cpu.a, pc := s.cpu.pc + 1 } ∧
    done .txa { s.regs with a := s.cpu.x, p := s.cpu.p.setNZ s.cpu.x, pc := s.cpu.pc + 1 } ∧
    done .tya { s.regs with a := s.cpu.y, p := s.cpu.p.setNZ s.cpu.y, pc := s.cpu.pc + 1 } ∧
    done .tsx { s.regs with x := s.cpu.s, p := s.cpu.p.setNZ s.cpu.s, pc := s.cpu.pc + 1 } ∧
    done .txs { s.regs with s := s.cpu.x, pc := s.cpu.pc + 1 }

/-- STA, STX, STY and SAX (R164 to R166, R281), every form: the byte goes to the effective address, in the last cycle, after
the reads of the form's cycle table, the pre-fixup address always among them (R118, R121, R124, R127, R130, R133); no register
but `PC` and no flag changes, and no other byte of memory. -/
def Obligations.StoresRun : Prop :=
  ∀ (s : State) (m : MemOperand), s.memoryAnswers →
    let done := fun (i : Instr) (v : Byte) => ∃ t, exec i s = .next t ∧
      t.regs = { s.regs with pc := s.following i } ∧ s.storesByte t (s.address m) v ∧
      s.performs t (s.storeOps m v)
    done (.sta m) s.cpu.a ∧ done (.stx m) s.cpu.x ∧ done (.sty m) s.cpu.y ∧ done (.sax m) (s.cpu.a &&& s.cpu.x)

/-! ## Results: arithmetic, logic, compares -/

/-- ADC and SBC (R182, R183), every form: A, C and V from the adder, N and Z from the byte, the carry in; the reads of the
form's cycle table. -/
def Obligations.AddAndSubtractRun : Prop :=
  ∀ (s : State) (m : ReadOperand), s.memoryAnswers →
    let done := fun (i : Instr) (r : Sum) => ∃ t, exec i s = .next t ∧
      t.regs = { s.regs with
        a := r.r, p := { s.cpu.p with n := r.r.msb, z := r.r == 0, c := r.c, v := r.v }, pc := s.following i } ∧
      t.bus.mem = s.bus.mem ∧ s.performs t (s.readOps m)
    done (.adc m) (adc8 s.cpu.a (s.operand m) s.cpu.p.c) ∧ done (.sbc m) (sbc8 s.cpu.a (s.operand m) s.cpu.p.c)

/-- AND, ORA and EOR (R184 to R186), every form, with the reads of the form's cycle table. -/
def Obligations.LogicRuns : Prop :=
  ∀ (s : State) (m : ReadOperand), s.memoryAnswers →
    let done := fun (i : Instr) (r : Byte) => ∃ t, exec i s = .next t ∧
      t.regs = { s.regs with a := r, p := s.cpu.p.setNZ r, pc := s.following i } ∧ t.bus.mem = s.bus.mem ∧
      s.performs t (s.readOps m)
    done (.and m) (s.cpu.a &&& s.operand m) ∧ done (.ora m) (s.cpu.a ||| s.operand m) ∧
    done (.eor m) (s.cpu.a ^^^ s.operand m)

/-- CMP, CPX, CPY (R187 to R189) and BIT (R190), every form: flags only; BIT takes N and V from the operand and Z from the
and; the reads of the form's cycle table. -/
def Obligations.ComparesRun : Prop :=
  ∀ s : State, s.memoryAnswers →
    let done := fun (i : Instr) (m : ReadOperand) (p : Flags) => ∃ t, exec i s = .next t ∧
      t.regs = { s.regs with p := p, pc := s.following i } ∧ t.bus.mem = s.bus.mem ∧ s.performs t (s.readOps m)
    (∀ m : ReadOperand, done (.cmp m) m (s.cpu.p.compare s.cpu.a (s.operand m)) ∧
      done (.cpx m) m (s.cpu.p.compare s.cpu.x (s.operand m)) ∧ done (.cpy m) m (s.cpu.p.compare s.cpu.y (s.operand m))) ∧
    (∀ m : MemOperand, done (.bit m) (.mem m) { s.cpu.p with
      n := (s.operand (.mem m)).getLsbD 7, v := (s.operand (.mem m)).getLsbD 6,
      z := (s.cpu.a &&& s.operand (.mem m)) == 0 })

/-! ## Results: read-modify-write and counts -/

/-- The shifts and rotates (R200 to R205): the accumulator form in two cycles, both reads (R115), without a write, in every
environment; the memory forms read the byte, write it back unmodified and write the result, after the reads of the form's cycle
table (R119, R122, R125, R128), C from the bit shifted out, N and Z from the result. -/
def Obligations.ShiftsRun : Prop :=
  ∀ (s : State) (i : ShiftOperand → Instr) (f : Byte → Bool → Byte × Bool),
    (i, f) ∈ [(Instr.asl, asl8), (Instr.lsr, lsr8), (Instr.rol, rol8), (Instr.ror, ror8)] →
    (∃ t, exec (i .acc) s = .next t ∧
      t.regs = { s.regs with
        a := (f s.cpu.a s.cpu.p.c).1, p := s.cpu.p.shifted (f s.cpu.a s.cpu.p.c), pc := s.cpu.pc + 1 } ∧
      s.writesNothing t ∧ s.performs t [.read s.cpu.pc, .read (s.cpu.pc + 1)]) ∧
    ∀ m : MemOperand, s.memoryAnswers →
      let d := s.operand (.mem m)
      ∃ t, exec (i (.mem m)) s = .next t ∧
        t.regs = { s.regs with p := s.cpu.p.shifted (f d s.cpu.p.c), pc := s.following (i (.mem m)) } ∧
        (Memory.wf s.bus.mem = true → s.storesByte t (s.address m) (f d s.cpu.p.c).1) ∧
        s.performs t (s.rmwOps m (f d s.cpu.p.c).1)

/-- INC and DEC (R206, R207): the transactions of the form's cycle table, the dummy write, then the write of the counted byte; N
and Z from it, C and V kept. -/
def Obligations.MemoryCountsRun : Prop :=
  ∀ (s : State) (m : MemOperand), s.memoryAnswers →
    let d := s.operand (.mem m)
    let done := fun (i : Instr) (r : Byte) => ∃ t, exec i s = .next t ∧
      t.regs = { s.regs with p := s.cpu.p.setNZ r, pc := s.following i } ∧
      (Memory.wf s.bus.mem = true → s.storesByte t (s.address m) r) ∧
      s.performs t (s.rmwOps m r)
    done (.inc m) (d + 1) ∧ done (.dec m) (d - 1)

/-- INX, INY, DEX and DEY (R208 to R211), in every environment: two reads (R114), no write. -/
def Obligations.RegisterCountsRun : Prop :=
  opcode .inx = some 0xE8 ∧ opcode .iny = some 0xC8 ∧ opcode .dex = some 0xCA ∧ opcode .dey = some 0x88 ∧
  ∀ s : State,
    let done := fun (i : Instr) (r : Regs) => ∃ t, exec i s = .next t ∧ t.regs = r ∧ s.writesNothing t ∧
      i.length = 1 ∧ s.performs t [.read s.cpu.pc, .read (s.cpu.pc + 1)]
    done .inx { s.regs with x := s.cpu.x + 1, p := s.cpu.p.setNZ (s.cpu.x + 1), pc := s.cpu.pc + 1 } ∧
    done .iny { s.regs with y := s.cpu.y + 1, p := s.cpu.p.setNZ (s.cpu.y + 1), pc := s.cpu.pc + 1 } ∧
    done .dex { s.regs with x := s.cpu.x - 1, p := s.cpu.p.setNZ (s.cpu.x - 1), pc := s.cpu.pc + 1 } ∧
    done .dey { s.regs with y := s.cpu.y - 1, p := s.cpu.p.setNZ (s.cpu.y - 1), pc := s.cpu.pc + 1 }

/-- DCP, ISC, SLO, RLA, SRE and RRA (R282 to R287): the memory operation of the first half with the transactions of the form's
cycle table, its dummy write among them, then the accumulator operation of the second half on the new byte. -/
def Obligations.CombinedReadModifyWritesRun : Prop :=
  ∀ (s : State) (m : MemOperand), s.memoryAnswers →
    let d := s.operand (.mem m)
    let c := s.cpu.p.c
    let done := fun (i : Instr) (r a : Byte) (p : Flags) => ∃ t, exec i s = .next t ∧
      t.regs = { s.regs with a := a, p := p, pc := s.following i } ∧
      (Memory.wf s.bus.mem = true → s.storesByte t (s.address m) r) ∧
      s.performs t (s.rmwOps m r)
    let summed := fun (x : Sum) => { s.cpu.p.setNZ x.r with c := x.c, v := x.v }
    done (.dcp m) (d - 1) s.cpu.a (s.cpu.p.compare s.cpu.a (d - 1)) ∧
    done (.isc m) (d + 1) (sbc8 s.cpu.a (d + 1) c).r (summed (sbc8 s.cpu.a (d + 1) c)) ∧
    done (.slo m) (asl8 d c).1 (s.cpu.a ||| (asl8 d c).1) { s.cpu.p.setNZ (s.cpu.a ||| (asl8 d c).1) with c := (asl8 d c).2 } ∧
    done (.rla m) (rol8 d c).1 (s.cpu.a &&& (rol8 d c).1) { s.cpu.p.setNZ (s.cpu.a &&& (rol8 d c).1) with c := (rol8 d c).2 } ∧
    done (.sre m) (lsr8 d c).1 (s.cpu.a ^^^ (lsr8 d c).1) { s.cpu.p.setNZ (s.cpu.a ^^^ (lsr8 d c).1) with c := (lsr8 d c).2 } ∧
    done (.rra m) (ror8 d c).1 (adc8 s.cpu.a (ror8 d c).1 (ror8 d c).2).r
      (summed (adc8 s.cpu.a (ror8 d c).1 (ror8 d c).2))

/-- ANC, ALR, ARR and AXS (R288 to R291), in every environment: two reads (R116), no write; the flags bit by bit as the rules
give them. -/
def Obligations.ImmediateCombinationsRun : Prop :=
  opcode (.anc 0 0) = some 0x0B ∧ opcode (.anc 1 0) = some 0x2B ∧ opcode (.alr 0) = some 0x4B ∧
  opcode (.arr 0) = some 0x6B ∧ opcode (.axs 0) = some 0xCB ∧
  ∀ (s : State) (v : Byte),
    let done := fun (i : Instr) (a x : Byte) (p : Flags) => ∃ t, exec i s = .next t ∧
      t.regs = { s.regs with a := a, x := x, p := p, pc := s.cpu.pc + 2 } ∧ s.writesNothing t ∧
      s.performs t [.read s.cpu.pc, .read (s.cpu.pc + 1)]
    let b := s.cpu.a &&& v
    let h := b >>> 1
    let r := h ||| (if s.cpu.p.c then 0x80 else 0x00)
    let u := s.cpu.a &&& s.cpu.x
    (∀ k, done (.anc k v) b s.cpu.x { s.cpu.p with n := b.msb, z := b == 0, c := b.msb }) ∧
    done (.alr v) h s.cpu.x { s.cpu.p with n := false, z := h == 0, c := b.getLsbD 0 } ∧
    done (.arr v) r s.cpu.x { s.cpu.p with
      n := s.cpu.p.c, z := r == 0, c := r.getLsbD 6, v := r.getLsbD 6 ^^ r.getLsbD 5 } ∧
    done (.axs v) s.cpu.a (u - v) { s.cpu.p with
      n := (u - v).msb, z := (u - v) == 0, c := decide (v.toNat ≤ u.toNat) }

/-- NOP and the NOP variants (R261, R292 to R297), in every environment: `PC` alone moves, nothing is written; the memory forms
perform the reads of their form's cycle table, the read of the effective address the last, whatever answers it. -/
def Obligations.NopsRun : Prop :=
  ∀ s : State,
    let done := fun (i : Instr) (ops : List BusOp) => ∃ t, exec i s = .next t ∧
      t.regs = { s.regs with pc := s.following i } ∧ s.writesNothing t ∧ s.performs t ops
    done .nop [.read s.cpu.pc, .read (s.cpu.pc + 1)] ∧
    (∀ k, done (.nopImp k) [.read s.cpu.pc, .read (s.cpu.pc + 1)]) ∧
    (∀ k v, done (.nopImm k v) (s.readOps (.imm v))) ∧
    (∀ k z, done (.nopZp k z) (s.readOps (.mem (.zp z)))) ∧ (∀ k z, done (.nopZpx k z) (s.readOps (.mem (.zpx z)))) ∧
    (∀ w, done (.nopAbs w) (s.readOps (.mem (.abs w)))) ∧ (∀ k w, done (.nopAbsx k w) (s.readOps (.mem (.absx w))))

/-! ## Results: control flow -/

/-- JMP (R220, R221): absolute in every environment; indirect with the pointer's high byte from the pointer's own page, its low
byte read first (R136, R137). -/
def Obligations.JumpsRun : Prop :=
  ∀ (s : State) (w : Word),
    (∃ t, exec (.jmp w) s = .next t ∧ t.regs = { s.regs with pc := w } ∧ s.writesNothing t ∧
      s.performs t [.read s.cpu.pc, .read (s.cpu.pc + 1), .read (s.cpu.pc + 2)]) ∧
    (s.memoryAnswers → ∃ t, exec (.jmpInd w) s = .next t ∧
      t.regs = { s.regs with pc := join (s.peek (join (hiByte w) (loByte w + 1))) (s.peek w) } ∧ t.bus.mem = s.bus.mem ∧
      s.performs t [.read s.cpu.pc, .read (s.cpu.pc + 1), .read (s.cpu.pc + 2), .read w,
        .read (join (hiByte w) (loByte w + 1))])

/-- JSR and RTS (R222, R223): the return address minus one is pushed, high byte first; the target's high byte is fetched
after the pushes, so it is the operand's own unless the pushes reached it; RTS pulls and adds one; the transactions are those of
R138 and R139, the dummy reads of the stack slot and of the return address among them. -/
def Obligations.CallAndReturnRun : Prop :=
  ∀ (s : State) (w : Word), s.memoryAnswers →
    (∃ t, exec (.jsr w) s = .next t ∧
      t.bus.mem = Memory.write (Memory.write s.bus.mem (cellOf s.cfg.map (stackAddr s.cpu.s)) (hiByte (s.cpu.pc + 2)))
        (cellOf s.cfg.map (stackAddr (s.cpu.s - 1))) (loByte (s.cpu.pc + 2)) ∧
      t.regs = { s.regs with s := s.cpu.s - 2, pc := join (t.peek (s.cpu.pc + 2)) (loByte w) } ∧
      (s.peek (s.cpu.pc + 2) = hiByte w →
        cellOf s.cfg.map (s.cpu.pc + 2) ≠ cellOf s.cfg.map (stackAddr s.cpu.s) →
        cellOf s.cfg.map (s.cpu.pc + 2) ≠ cellOf s.cfg.map (stackAddr (s.cpu.s - 1)) → t.cpu.pc = w) ∧
      s.performs t [.read s.cpu.pc, .read (s.cpu.pc + 1), .read (stackAddr s.cpu.s),
        .write (stackAddr s.cpu.s) (hiByte (s.cpu.pc + 2)), .write (stackAddr (s.cpu.s - 1)) (loByte (s.cpu.pc + 2)),
        .read (s.cpu.pc + 2)]) ∧
    (∃ t, exec .rts s = .next t ∧
      t.regs = { s.regs with s := s.cpu.s + 2, pc := join (s.slot 2) (s.slot 1) + 1 } ∧ t.bus.mem = s.bus.mem ∧
      s.performs t [.read s.cpu.pc, .read (s.cpu.pc + 1), .read (stackAddr s.cpu.s), .read (stackAddr (s.cpu.s + 1)),
        .read (stackAddr (s.cpu.s + 2)), .read (join (s.slot 2) (s.slot 1))])

/-- A return undoes a call (R222, R223): RTS right after JSR continues after the JSR, the stack pointer and every other
register as they were. -/
def Obligations.ReturnUndoesCall : Prop :=
  ∀ (s t u : State) (w : Word), s.memoryAnswers → Memory.wf s.bus.mem = true →
    exec (.jsr w) s = .next t → exec .rts t = .next u → u.regs = { s.regs with pc := s.cpu.pc + 3 }

/-- The eight branches (R224 to R232), in every environment: the condition, the target from the following instruction's
address, nothing else changed, and 2, 3 or 4 cycles, all reads (R135): the two bytes of the branch, when taken the next opcode,
and when the target is in another page the pre-fixup address, in the next instruction's page. -/
def Obligations.BranchesRun : Prop :=
  ∀ (s : State) (r : Byte),
    let next := s.cpu.pc + 2
    let target := next + r.signExtend 16
    let done := fun (i : Instr) (op : Byte) (cond : Bool) => opcode i = some op ∧ ∃ t, exec i s = .next t ∧
      t.regs = { s.regs with pc := if cond then target else next } ∧ s.writesNothing t ∧
      s.performs t ([.read s.cpu.pc, .read (s.cpu.pc + 1)] ++
        (if cond then [.read next] else []) ++
        (if cond ∧ hiByte target ≠ hiByte next then [.read (join (hiByte next) (loByte target))] else []))
    done (.bpl r) 0x10 (!s.cpu.p.n) ∧ done (.bmi r) 0x30 s.cpu.p.n ∧
    done (.bvc r) 0x50 (!s.cpu.p.v) ∧ done (.bvs r) 0x70 s.cpu.p.v ∧
    done (.bcc r) 0x90 (!s.cpu.p.c) ∧ done (.bcs r) 0xB0 s.cpu.p.c ∧
    done (.bne r) 0xD0 (!s.cpu.p.z) ∧ done (.beq r) 0xF0 s.cpu.p.z

/-! ## Results: stack, flags, system -/

/-- PHA, PHP, PLA and PLP (R250 to R253): the slot, the wrap of `S`, B and bit 5 set in the pushed status, bits 5 and 4
ignored in the pulled one; the transactions of R141 and R142, the pulls' dummy read of the slot among them. -/
def Obligations.PushesAndPullsRun : Prop :=
  ∀ s : State, s.memoryAnswers →
    let pushes := fun (v : Byte) => [BusOp.read s.cpu.pc, .read (s.cpu.pc + 1), .write (stackAddr s.cpu.s) v]
    let pulls := [BusOp.read s.cpu.pc, .read (s.cpu.pc + 1), .read (stackAddr s.cpu.s), .read (stackAddr (s.cpu.s + 1))]
    (∃ t, exec .pha s = .next t ∧ t.regs = { s.regs with s := s.cpu.s - 1, pc := s.cpu.pc + 1 } ∧
      s.storesByte t (stackAddr s.cpu.s) s.cpu.a ∧ s.performs t (pushes s.cpu.a)) ∧
    (∃ t, exec .php s = .next t ∧ t.regs = { s.regs with s := s.cpu.s - 1, pc := s.cpu.pc + 1 } ∧
      s.storesByte t (stackAddr s.cpu.s) (pByte true s.cpu.p) ∧ s.performs t (pushes (pByte true s.cpu.p)) ∧
      (pByte true s.cpu.p).getLsbD 4 = true ∧ (pByte true s.cpu.p).getLsbD 5 = true) ∧
    (∃ t, exec .pla s = .next t ∧
      t.regs = { s.regs with a := s.slot 1, p := s.cpu.p.setNZ (s.slot 1), s := s.cpu.s + 1, pc := s.cpu.pc + 1 } ∧
      t.bus.mem = s.bus.mem ∧ s.performs t pulls) ∧
    (∃ t, exec .plp s = .next t ∧
      t.regs = { s.regs with p := setPFrom (s.slot 1), s := s.cpu.s + 1, pc := s.cpu.pc + 1 } ∧
      t.bus.mem = s.bus.mem ∧ s.performs t pulls ∧ ∀ b : Bool, setPFrom (pByte b s.cpu.p) = s.cpu.p)

/-- The seven flag instructions (R254 to R260), in every environment: opcode, two reads (R114), one flag, nothing else. -/
def Obligations.FlagInstructionsRun : Prop :=
  ∀ s : State,
    let done := fun (i : Instr) (op : Byte) (p : Flags) => opcode i = some op ∧ ∃ t, exec i s = .next t ∧
      t.regs = { s.regs with p := p, pc := s.cpu.pc + 1 } ∧ s.writesNothing t ∧
      s.performs t [.read s.cpu.pc, .read (s.cpu.pc + 1)]
    done .clc 0x18 { s.cpu.p with c := false } ∧ done .sec 0x38 { s.cpu.p with c := true } ∧
    done .cli 0x58 { s.cpu.p with i := false } ∧ done .sei 0x78 { s.cpu.p with i := true } ∧
    done .clv 0xB8 { s.cpu.p with v := false } ∧ done .cld 0xD8 { s.cpu.p with d := false } ∧
    done .sed 0xF8 { s.cpu.p with d := true }

/-- RTI (R263): status, then the low and the high byte of `PC`, no plus one; the six reads of R140. -/
def Obligations.ReturnFromInterruptRuns : Prop :=
  ∀ s : State, s.memoryAnswers →
    ∃ t, exec .rti s = .next t ∧
      t.regs = { s.regs with p := setPFrom (s.slot 1), s := s.cpu.s + 3, pc := join (s.slot 3) (s.slot 2) } ∧
      t.bus.mem = s.bus.mem ∧
      s.performs t [.read s.cpu.pc, .read (s.cpu.pc + 1), .read (stackAddr s.cpu.s), .read (stackAddr (s.cpu.s + 1)),
        .read (stackAddr (s.cpu.s + 2)), .read (stackAddr (s.cpu.s + 3))]

/-- An interrupt leaves no trace in the registers (R330, R333): RTI right after the sequence of a hardware interrupt gives
every register and flag back, at the instruction that was replaced; after BRK at `a + 2`. -/
def Obligations.ReturnUndoesInterrupt : Prop :=
  ∀ s t u : State, s.memoryAnswers → Memory.wf s.bus.mem = true → s.cpu.t = 1 →
    exec .rti t = .next u →
    (s.cpu.seq = .int → takeTrap .int s = .next t → u.regs = s.regs) ∧
    (exec .brk s = .next t → u.regs = { s.regs with pc := s.cpu.pc + 2 })

/-! ## The unlisted opcode values -/

/-- Under the spec's own policy each of the 21 unlisted values is refused by name, once its opcode is fetched (R298, R113): the
refusal carries the state in which the read at `PC` has been performed, `IR` holds the value read, `PC` is one further and the
cycle is counted, and nothing else of the registers has changed. -/
def Obligations.UnlistedOpcodesAreRefused : Prop :=
  ∀ (i : Instr) (s : State), isUnlisted i = true → s.cfg.unlisted = .refuse →
    ∃ (u : State) (new : List BusCycle), exec i s = .refused (.unlistedOpcode u) ∧
      u.regs = { s.regs with pc := s.cpu.pc + 1 } ∧ s.writesNothing u ∧
      u.bus.log = new ++ s.bus.log ∧ activeCycles new = [.read s.cpu.pc u.cpu.ir] ∧
      u.cyc = s.cyc + BitVec.ofNat 64 (cyclesOf new).length ∧ u.irq.intReq = s.irq.intReq

/-- Under the other admitted policy they have the behaviour 93 U1 to U9 records: KIL jams after its opcode fetch; CONST and a
corrupted page are free values; $EB is SBC. -/
def Obligations.UnlistedOpcodesConventionally : Prop :=
  ∀ s : State, s.memoryAnswers → s.cfg.unlisted = .conventional →
    let free := Config.freeByte s.cpu.fresh
    let stores := fun (i : Instr) (m : MemOperand) (r : Byte) => ∃ t, exec i s = .next t ∧
      t.regs = { s.regs with pc := s.following i } ∧
      s.storesByte t
        (if pageCross m s.cpu s.peek then join free (loByte (s.address m)) else s.address m)
        (r &&& (hiByte (baseOf m s.peek) + 1))
    (∀ k, ∃ u, exec (.kil k) s = .fault (.jammed u) ∧ u.regs = { s.regs with pc := s.cpu.pc + 1 } ∧
      u.bus.mem = s.bus.mem ∧ s.performs u [.read s.cpu.pc]) ∧
    (∀ v, ∃ t, exec (.xaa v) s = .next t ∧ t.cpu.fresh = s.cpu.fresh + 1 ∧ t.bus.mem = s.bus.mem ∧
      t.regs = { s.regs with
        a := (s.cpu.a ||| free) &&& s.cpu.x &&& v, p := s.cpu.p.setNZ ((s.cpu.a ||| free) &&& s.cpu.x &&& v),
        pc := s.cpu.pc + 2 }) ∧
    (∀ v, ∃ t, exec (.lxa v) s = .next t ∧ t.cpu.fresh = s.cpu.fresh + 1 ∧ t.bus.mem = s.bus.mem ∧
      t.regs = { s.regs with
        a := (s.cpu.a ||| free) &&& v, x := (s.cpu.a ||| free) &&& v, p := s.cpu.p.setNZ ((s.cpu.a ||| free) &&& v),
        pc := s.cpu.pc + 2 }) ∧
    (∀ v, ∃ t, exec (.usbc v) s = .next t ∧ exec (.sbc (.imm v)) s = .next t) ∧
    (∀ z, stores (.ahxIndy z) (.indy z) (s.cpu.a &&& s.cpu.x)) ∧
    (∀ w, stores (.ahxAbsy w) (.absy w) (s.cpu.a &&& s.cpu.x)) ∧
    (∀ w, stores (.shy w) (.absx w) s.cpu.y) ∧
    (∀ w, stores (.shx w) (.absy w) s.cpu.x) ∧
    (∀ w, ∃ t, exec (.tas w) s = .next t ∧
      t.regs = { s.regs with s := s.cpu.a &&& s.cpu.x, pc := s.cpu.pc + 3 } ∧
      s.storesByte t (s.address (.absy w)) (s.cpu.a &&& s.cpu.x &&& (hiByte w + 1))) ∧
    (∀ w, ∃ t, exec (.las w) s = .next t ∧ t.bus.mem = s.bus.mem ∧
      let r := s.operand (.mem (.absy w)) &&& s.cpu.s
      t.regs = { s.regs with a := r, x := r, s := r, p := s.cpu.p.setNZ r, pc := s.cpu.pc + 3 })
end

