-- ==== Sys2Proof/Laws/State.lean ====
section
/-! SUPPORT. One lemma per field per named update, true by `rfl`: no later proof unfolds a record update. -/

namespace Sys2Proof.Machine

/-! ### Flags -/

section
variable (f : Flags) (v : Byte)

@[simp] theorem Flags.setNZ_n : (Flags.setNZ f v).n = v.msb := rfl
@[simp] theorem Flags.setNZ_v : (Flags.setNZ f v).v = f.v := rfl
@[simp] theorem Flags.setNZ_d : (Flags.setNZ f v).d = f.d := rfl
@[simp] theorem Flags.setNZ_i : (Flags.setNZ f v).i = f.i := rfl
@[simp] theorem Flags.setNZ_z : (Flags.setNZ f v).z = (v == 0x00) := rfl
@[simp] theorem Flags.setNZ_c : (Flags.setNZ f v).c = f.c := rfl

end

/-! ### Comparison -/

section
variable (f : Flags) (r m : Byte)

@[simp] theorem Flags.compare_n : (Flags.compare f r m).n = (r - m).msb := rfl
@[simp] theorem Flags.compare_v : (Flags.compare f r m).v = f.v := rfl
@[simp] theorem Flags.compare_d : (Flags.compare f r m).d = f.d := rfl
@[simp] theorem Flags.compare_i : (Flags.compare f r m).i = f.i := rfl
@[simp] theorem Flags.compare_z : (Flags.compare f r m).z = (r == m) := rfl
@[simp] theorem Flags.compare_c : (Flags.compare f r m).c = decide (m.toNat ≤ r.toNat) := rfl

end

/-! ### Shifts -/

section
variable (f : Flags) (r : Byte × Bool)

@[simp] theorem Flags.shifted_n : (Flags.shifted f r).n = r.1.msb := rfl
@[simp] theorem Flags.shifted_v : (Flags.shifted f r).v = f.v := rfl
@[simp] theorem Flags.shifted_d : (Flags.shifted f r).d = f.d := rfl
@[simp] theorem Flags.shifted_i : (Flags.shifted f r).i = f.i := rfl
@[simp] theorem Flags.shifted_z : (Flags.shifted f r).z = (r.1 == 0x00) := rfl
@[simp] theorem Flags.shifted_c : (Flags.shifted f r).c = r.2 := rfl

end

/-! ### Register writes: A -/

section
variable (c : Cpu) (v : Byte)

@[simp] theorem Cpu.setA_a : (Cpu.setA c v).a = v := rfl
@[simp] theorem Cpu.setA_x : (Cpu.setA c v).x = c.x := rfl
@[simp] theorem Cpu.setA_y : (Cpu.setA c v).y = c.y := rfl
@[simp] theorem Cpu.setA_s : (Cpu.setA c v).s = c.s := rfl
@[simp] theorem Cpu.setA_pc : (Cpu.setA c v).pc = c.pc := rfl
@[simp] theorem Cpu.setA_p : (Cpu.setA c v).p = c.p.setNZ v := rfl
@[simp] theorem Cpu.setA_ir : (Cpu.setA c v).ir = c.ir := rfl
@[simp] theorem Cpu.setA_t : (Cpu.setA c v).t = c.t := rfl
@[simp] theorem Cpu.setA_seq : (Cpu.setA c v).seq = c.seq := rfl
@[simp] theorem Cpu.setA_lo : (Cpu.setA c v).lo = c.lo := rfl
@[simp] theorem Cpu.setA_hi : (Cpu.setA c v).hi = c.hi := rfl
@[simp] theorem Cpu.setA_ptr : (Cpu.setA c v).ptr = c.ptr := rfl
@[simp] theorem Cpu.setA_ea : (Cpu.setA c v).ea = c.ea := rfl
@[simp] theorem Cpu.setA_dat : (Cpu.setA c v).dat = c.dat := rfl
@[simp] theorem Cpu.setA_cross : (Cpu.setA c v).cross = c.cross := rfl
@[simp] theorem Cpu.setA_vec : (Cpu.setA c v).vec = c.vec := rfl
@[simp] theorem Cpu.setA_taken : (Cpu.setA c v).taken = c.taken := rfl
@[simp] theorem Cpu.setA_fresh : (Cpu.setA c v).fresh = c.fresh := rfl

end

/-! ### Register writes: X -/

section
variable (c : Cpu) (v : Byte)

@[simp] theorem Cpu.setX_a : (Cpu.setX c v).a = c.a := rfl
@[simp] theorem Cpu.setX_x : (Cpu.setX c v).x = v := rfl
@[simp] theorem Cpu.setX_y : (Cpu.setX c v).y = c.y := rfl
@[simp] theorem Cpu.setX_s : (Cpu.setX c v).s = c.s := rfl
@[simp] theorem Cpu.setX_pc : (Cpu.setX c v).pc = c.pc := rfl
@[simp] theorem Cpu.setX_p : (Cpu.setX c v).p = c.p.setNZ v := rfl
@[simp] theorem Cpu.setX_ir : (Cpu.setX c v).ir = c.ir := rfl
@[simp] theorem Cpu.setX_t : (Cpu.setX c v).t = c.t := rfl
@[simp] theorem Cpu.setX_seq : (Cpu.setX c v).seq = c.seq := rfl
@[simp] theorem Cpu.setX_lo : (Cpu.setX c v).lo = c.lo := rfl
@[simp] theorem Cpu.setX_hi : (Cpu.setX c v).hi = c.hi := rfl
@[simp] theorem Cpu.setX_ptr : (Cpu.setX c v).ptr = c.ptr := rfl
@[simp] theorem Cpu.setX_ea : (Cpu.setX c v).ea = c.ea := rfl
@[simp] theorem Cpu.setX_dat : (Cpu.setX c v).dat = c.dat := rfl
@[simp] theorem Cpu.setX_cross : (Cpu.setX c v).cross = c.cross := rfl
@[simp] theorem Cpu.setX_vec : (Cpu.setX c v).vec = c.vec := rfl
@[simp] theorem Cpu.setX_taken : (Cpu.setX c v).taken = c.taken := rfl
@[simp] theorem Cpu.setX_fresh : (Cpu.setX c v).fresh = c.fresh := rfl

end

/-! ### Register writes: Y -/

section
variable (c : Cpu) (v : Byte)

@[simp] theorem Cpu.setY_a : (Cpu.setY c v).a = c.a := rfl
@[simp] theorem Cpu.setY_x : (Cpu.setY c v).x = c.x := rfl
@[simp] theorem Cpu.setY_y : (Cpu.setY c v).y = v := rfl
@[simp] theorem Cpu.setY_s : (Cpu.setY c v).s = c.s := rfl
@[simp] theorem Cpu.setY_pc : (Cpu.setY c v).pc = c.pc := rfl
@[simp] theorem Cpu.setY_p : (Cpu.setY c v).p = c.p.setNZ v := rfl
@[simp] theorem Cpu.setY_ir : (Cpu.setY c v).ir = c.ir := rfl
@[simp] theorem Cpu.setY_t : (Cpu.setY c v).t = c.t := rfl
@[simp] theorem Cpu.setY_seq : (Cpu.setY c v).seq = c.seq := rfl
@[simp] theorem Cpu.setY_lo : (Cpu.setY c v).lo = c.lo := rfl
@[simp] theorem Cpu.setY_hi : (Cpu.setY c v).hi = c.hi := rfl
@[simp] theorem Cpu.setY_ptr : (Cpu.setY c v).ptr = c.ptr := rfl
@[simp] theorem Cpu.setY_ea : (Cpu.setY c v).ea = c.ea := rfl
@[simp] theorem Cpu.setY_dat : (Cpu.setY c v).dat = c.dat := rfl
@[simp] theorem Cpu.setY_cross : (Cpu.setY c v).cross = c.cross := rfl
@[simp] theorem Cpu.setY_vec : (Cpu.setY c v).vec = c.vec := rfl
@[simp] theorem Cpu.setY_taken : (Cpu.setY c v).taken = c.taken := rfl
@[simp] theorem Cpu.setY_fresh : (Cpu.setY c v).fresh = c.fresh := rfl

end

/-! ### The adder's answer -/

section
variable (c : Cpu) (r : Sum)

@[simp] theorem Cpu.takeSum_a : (Cpu.takeSum c r).a = r.r := rfl
@[simp] theorem Cpu.takeSum_x : (Cpu.takeSum c r).x = c.x := rfl
@[simp] theorem Cpu.takeSum_y : (Cpu.takeSum c r).y = c.y := rfl
@[simp] theorem Cpu.takeSum_s : (Cpu.takeSum c r).s = c.s := rfl
@[simp] theorem Cpu.takeSum_pc : (Cpu.takeSum c r).pc = c.pc := rfl
@[simp] theorem Cpu.takeSum_p : (Cpu.takeSum c r).p = { c.p.setNZ r.r with c := r.c, v := r.v } := rfl
@[simp] theorem Cpu.takeSum_ir : (Cpu.takeSum c r).ir = c.ir := rfl
@[simp] theorem Cpu.takeSum_t : (Cpu.takeSum c r).t = c.t := rfl
@[simp] theorem Cpu.takeSum_seq : (Cpu.takeSum c r).seq = c.seq := rfl
@[simp] theorem Cpu.takeSum_lo : (Cpu.takeSum c r).lo = c.lo := rfl
@[simp] theorem Cpu.takeSum_hi : (Cpu.takeSum c r).hi = c.hi := rfl
@[simp] theorem Cpu.takeSum_ptr : (Cpu.takeSum c r).ptr = c.ptr := rfl
@[simp] theorem Cpu.takeSum_ea : (Cpu.takeSum c r).ea = c.ea := rfl
@[simp] theorem Cpu.takeSum_dat : (Cpu.takeSum c r).dat = c.dat := rfl
@[simp] theorem Cpu.takeSum_cross : (Cpu.takeSum c r).cross = c.cross := rfl
@[simp] theorem Cpu.takeSum_vec : (Cpu.takeSum c r).vec = c.vec := rfl
@[simp] theorem Cpu.takeSum_taken : (Cpu.takeSum c r).taken = c.taken := rfl
@[simp] theorem Cpu.takeSum_fresh : (Cpu.takeSum c r).fresh = c.fresh := rfl

end

/-! ### Indexing -/

section
variable (c : Cpu) (b : Byte)

@[simp] theorem Cpu.indexLo_a : (Cpu.indexLo c b).a = c.a := rfl
@[simp] theorem Cpu.indexLo_x : (Cpu.indexLo c b).x = c.x := rfl
@[simp] theorem Cpu.indexLo_y : (Cpu.indexLo c b).y = c.y := rfl
@[simp] theorem Cpu.indexLo_s : (Cpu.indexLo c b).s = c.s := rfl
@[simp] theorem Cpu.indexLo_pc : (Cpu.indexLo c b).pc = c.pc := rfl
@[simp] theorem Cpu.indexLo_p : (Cpu.indexLo c b).p = c.p := rfl
@[simp] theorem Cpu.indexLo_ir : (Cpu.indexLo c b).ir = c.ir := rfl
@[simp] theorem Cpu.indexLo_t : (Cpu.indexLo c b).t = c.t := rfl
@[simp] theorem Cpu.indexLo_seq : (Cpu.indexLo c b).seq = c.seq := rfl
@[simp] theorem Cpu.indexLo_lo : (Cpu.indexLo c b).lo = c.lo + b := rfl
@[simp] theorem Cpu.indexLo_hi : (Cpu.indexLo c b).hi = c.hi := rfl
@[simp] theorem Cpu.indexLo_ptr : (Cpu.indexLo c b).ptr = c.ptr := rfl
@[simp] theorem Cpu.indexLo_ea : (Cpu.indexLo c b).ea = c.ea := rfl
@[simp] theorem Cpu.indexLo_dat : (Cpu.indexLo c b).dat = c.dat := rfl
@[simp] theorem Cpu.indexLo_cross : (Cpu.indexLo c b).cross = carries c.lo b := rfl
@[simp] theorem Cpu.indexLo_vec : (Cpu.indexLo c b).vec = c.vec := rfl
@[simp] theorem Cpu.indexLo_taken : (Cpu.indexLo c b).taken = c.taken := rfl
@[simp] theorem Cpu.indexLo_fresh : (Cpu.indexLo c b).fresh = c.fresh := rfl

end

/-! ### The carry into the high byte -/

section
variable (c : Cpu)

@[simp] theorem Cpu.fixHi_a : (Cpu.fixHi c).a = c.a := rfl
@[simp] theorem Cpu.fixHi_x : (Cpu.fixHi c).x = c.x := rfl
@[simp] theorem Cpu.fixHi_y : (Cpu.fixHi c).y = c.y := rfl
@[simp] theorem Cpu.fixHi_s : (Cpu.fixHi c).s = c.s := rfl
@[simp] theorem Cpu.fixHi_pc : (Cpu.fixHi c).pc = c.pc := rfl
@[simp] theorem Cpu.fixHi_p : (Cpu.fixHi c).p = c.p := rfl
@[simp] theorem Cpu.fixHi_ir : (Cpu.fixHi c).ir = c.ir := rfl
@[simp] theorem Cpu.fixHi_t : (Cpu.fixHi c).t = c.t := rfl
@[simp] theorem Cpu.fixHi_seq : (Cpu.fixHi c).seq = c.seq := rfl
@[simp] theorem Cpu.fixHi_lo : (Cpu.fixHi c).lo = c.lo := rfl
@[simp] theorem Cpu.fixHi_hi : (Cpu.fixHi c).hi = (if c.cross then c.hi + 1 else c.hi) := rfl
@[simp] theorem Cpu.fixHi_ptr : (Cpu.fixHi c).ptr = c.ptr := rfl
@[simp] theorem Cpu.fixHi_ea : (Cpu.fixHi c).ea = c.ea := rfl
@[simp] theorem Cpu.fixHi_dat : (Cpu.fixHi c).dat = c.dat := rfl
@[simp] theorem Cpu.fixHi_cross : (Cpu.fixHi c).cross = c.cross := rfl
@[simp] theorem Cpu.fixHi_vec : (Cpu.fixHi c).vec = c.vec := rfl
@[simp] theorem Cpu.fixHi_taken : (Cpu.fixHi c).taken = c.taken := rfl
@[simp] theorem Cpu.fixHi_fresh : (Cpu.fixHi c).fresh = c.fresh := rfl

end

/-! ### Effective address, zero page -/

section
variable (c : Cpu)

@[simp] theorem Cpu.eaZp_a : (Cpu.eaZp c).a = c.a := rfl
@[simp] theorem Cpu.eaZp_x : (Cpu.eaZp c).x = c.x := rfl
@[simp] theorem Cpu.eaZp_y : (Cpu.eaZp c).y = c.y := rfl
@[simp] theorem Cpu.eaZp_s : (Cpu.eaZp c).s = c.s := rfl
@[simp] theorem Cpu.eaZp_pc : (Cpu.eaZp c).pc = c.pc := rfl
@[simp] theorem Cpu.eaZp_p : (Cpu.eaZp c).p = c.p := rfl
@[simp] theorem Cpu.eaZp_ir : (Cpu.eaZp c).ir = c.ir := rfl
@[simp] theorem Cpu.eaZp_t : (Cpu.eaZp c).t = c.t := rfl
@[simp] theorem Cpu.eaZp_seq : (Cpu.eaZp c).seq = c.seq := rfl
@[simp] theorem Cpu.eaZp_lo : (Cpu.eaZp c).lo = c.lo := rfl
@[simp] theorem Cpu.eaZp_hi : (Cpu.eaZp c).hi = c.hi := rfl
@[simp] theorem Cpu.eaZp_ptr : (Cpu.eaZp c).ptr = c.ptr := rfl
@[simp] theorem Cpu.eaZp_ea : (Cpu.eaZp c).ea = zpAddr c.lo := rfl
@[simp] theorem Cpu.eaZp_dat : (Cpu.eaZp c).dat = c.dat := rfl
@[simp] theorem Cpu.eaZp_cross : (Cpu.eaZp c).cross = c.cross := rfl
@[simp] theorem Cpu.eaZp_vec : (Cpu.eaZp c).vec = c.vec := rfl
@[simp] theorem Cpu.eaZp_taken : (Cpu.eaZp c).taken = c.taken := rfl
@[simp] theorem Cpu.eaZp_fresh : (Cpu.eaZp c).fresh = c.fresh := rfl

end

/-! ### Effective address, 16 bits -/

section
variable (c : Cpu)

@[simp] theorem Cpu.eaHilo_a : (Cpu.eaHilo c).a = c.a := rfl
@[simp] theorem Cpu.eaHilo_x : (Cpu.eaHilo c).x = c.x := rfl
@[simp] theorem Cpu.eaHilo_y : (Cpu.eaHilo c).y = c.y := rfl
@[simp] theorem Cpu.eaHilo_s : (Cpu.eaHilo c).s = c.s := rfl
@[simp] theorem Cpu.eaHilo_pc : (Cpu.eaHilo c).pc = c.pc := rfl
@[simp] theorem Cpu.eaHilo_p : (Cpu.eaHilo c).p = c.p := rfl
@[simp] theorem Cpu.eaHilo_ir : (Cpu.eaHilo c).ir = c.ir := rfl
@[simp] theorem Cpu.eaHilo_t : (Cpu.eaHilo c).t = c.t := rfl
@[simp] theorem Cpu.eaHilo_seq : (Cpu.eaHilo c).seq = c.seq := rfl
@[simp] theorem Cpu.eaHilo_lo : (Cpu.eaHilo c).lo = c.lo := rfl
@[simp] theorem Cpu.eaHilo_hi : (Cpu.eaHilo c).hi = c.hi := rfl
@[simp] theorem Cpu.eaHilo_ptr : (Cpu.eaHilo c).ptr = c.ptr := rfl
@[simp] theorem Cpu.eaHilo_ea : (Cpu.eaHilo c).ea = join c.hi c.lo := rfl
@[simp] theorem Cpu.eaHilo_dat : (Cpu.eaHilo c).dat = c.dat := rfl
@[simp] theorem Cpu.eaHilo_cross : (Cpu.eaHilo c).cross = c.cross := rfl
@[simp] theorem Cpu.eaHilo_vec : (Cpu.eaHilo c).vec = c.vec := rfl
@[simp] theorem Cpu.eaHilo_taken : (Cpu.eaHilo c).taken = c.taken := rfl
@[simp] theorem Cpu.eaHilo_fresh : (Cpu.eaHilo c).fresh = c.fresh := rfl

end

/-! ### Free values -/

section
variable (c : Cpu)

@[simp] theorem Cpu.takeFree_a : (Cpu.takeFree c).a = c.a := rfl
@[simp] theorem Cpu.takeFree_x : (Cpu.takeFree c).x = c.x := rfl
@[simp] theorem Cpu.takeFree_y : (Cpu.takeFree c).y = c.y := rfl
@[simp] theorem Cpu.takeFree_s : (Cpu.takeFree c).s = c.s := rfl
@[simp] theorem Cpu.takeFree_pc : (Cpu.takeFree c).pc = c.pc := rfl
@[simp] theorem Cpu.takeFree_p : (Cpu.takeFree c).p = c.p := rfl
@[simp] theorem Cpu.takeFree_ir : (Cpu.takeFree c).ir = c.ir := rfl
@[simp] theorem Cpu.takeFree_t : (Cpu.takeFree c).t = c.t := rfl
@[simp] theorem Cpu.takeFree_seq : (Cpu.takeFree c).seq = c.seq := rfl
@[simp] theorem Cpu.takeFree_lo : (Cpu.takeFree c).lo = c.lo := rfl
@[simp] theorem Cpu.takeFree_hi : (Cpu.takeFree c).hi = c.hi := rfl
@[simp] theorem Cpu.takeFree_ptr : (Cpu.takeFree c).ptr = c.ptr := rfl
@[simp] theorem Cpu.takeFree_ea : (Cpu.takeFree c).ea = c.ea := rfl
@[simp] theorem Cpu.takeFree_dat : (Cpu.takeFree c).dat = c.dat := rfl
@[simp] theorem Cpu.takeFree_cross : (Cpu.takeFree c).cross = c.cross := rfl
@[simp] theorem Cpu.takeFree_vec : (Cpu.takeFree c).vec = c.vec := rfl
@[simp] theorem Cpu.takeFree_taken : (Cpu.takeFree c).taken = c.taken := rfl
@[simp] theorem Cpu.takeFree_fresh : (Cpu.takeFree c).fresh = c.fresh + 1 := rfl

end

/-! ### Sampling -/

section
variable (l : Latches) (n : Lines)

@[simp] theorem Latches.sample_nmiPrev : (Latches.sample l n).nmiPrev = n.nmi := rfl
@[simp] theorem Latches.sample_nmiPending : (Latches.sample l n).nmiPending = (l.nmiPending || (n.nmi && !l.nmiPrev)) := rfl
@[simp] theorem Latches.sample_resetPending : (Latches.sample l n).resetPending = (l.resetPending || n.reset) := rfl
@[simp] theorem Latches.sample_intReq : (Latches.sample l n).intReq = l.intReq := rfl

end

/-! ### Polling -/

section
variable (l : Latches) (irqLine iFlag : Bool)

@[simp] theorem Latches.poll_nmiPrev : (Latches.poll l irqLine iFlag).nmiPrev = l.nmiPrev := rfl
@[simp] theorem Latches.poll_nmiPending : (Latches.poll l irqLine iFlag).nmiPending = l.nmiPending := rfl
@[simp] theorem Latches.poll_resetPending : (Latches.poll l irqLine iFlag).resetPending = l.resetPending := rfl
@[simp] theorem Latches.poll_intReq : (Latches.poll l irqLine iFlag).intReq = (l.intReq || l.nmiPending || (irqLine && !iFlag)) := rfl

end

/-! ### A transaction -/

section
variable (b : Bus) (map : AddressMap) (op : BusOp)

@[simp] theorem Bus.transact_mem : (Bus.transact b map op).mem =
    Memory.writes map (b.memAfter map op) b.nextWrites := rfl
@[simp] theorem Bus.transact_latch : (Bus.transact b map op).latch = b.data map op := rfl
@[simp] theorem Bus.transact_log : (Bus.transact b map op).log =
    othersLogged b.nextWrites ++ op.logged (b.data map op) :: b.log := rfl
@[simp] theorem Bus.transact_inputs : (Bus.transact b map op).inputs = b.inputs.tail := rfl
@[simp] theorem Bus.transact_lines : (Bus.transact b map op).lines = b.nextLines := rfl

end

/-! ### A stall cycle -/

section
variable (s : State) (i : Stall)

@[simp] theorem State.stallCycle_cpu : (State.stallCycle s i).cpu = s.cpu := rfl
@[simp] theorem State.stallCycle_irq : (State.stallCycle s i).irq = s.irq.sample i.lines := rfl
@[simp] theorem State.stallCycle_cyc : (State.stallCycle s i).cyc = s.cyc + 1 := rfl
@[simp] theorem State.stallCycle_bus : (State.stallCycle s i).bus = { s.bus with
    mem := Memory.writes s.cfg.map s.bus.mem i.writes, latch := i.dma.getD s.bus.latch,
    log := othersLogged i.writes ++ .stall :: s.bus.log, lines := i.lines } := rfl
@[simp] theorem State.stallCycle_cfg : (State.stallCycle s i).cfg = s.cfg := rfl

end

/-! ### A requested reset -/

section
variable (s : State)

@[simp] theorem State.requestReset_cpu : (State.requestReset s).cpu = s.cpu := rfl
@[simp] theorem State.requestReset_irq : (State.requestReset s).irq = { s.irq with resetPending := true } := rfl
@[simp] theorem State.requestReset_cyc : (State.requestReset s).cyc = s.cyc := rfl
@[simp] theorem State.requestReset_bus : (State.requestReset s).bus = s.bus := rfl
@[simp] theorem State.requestReset_cfg : (State.requestReset s).cfg = s.cfg := rfl

end

/-! ### Ready to fetch -/

section
variable (s : State)

@[simp] theorem State.readyToFetch_cpu : (State.readyToFetch s).cpu = { s.cpu with t := 1 } := rfl
@[simp] theorem State.readyToFetch_irq : (State.readyToFetch s).irq = { s.irq with resetPending := false, intReq := false } := rfl
@[simp] theorem State.readyToFetch_cyc : (State.readyToFetch s).cyc = s.cyc := rfl
@[simp] theorem State.readyToFetch_bus : (State.readyToFetch s).bus = { s.bus with inputs := [] } := rfl
@[simp] theorem State.readyToFetch_cfg : (State.readyToFetch s).cfg = s.cfg := rfl

end

/-! ### The advance of `T` -/

section
variable (c : Cpu) (last : Bool)

@[simp] theorem Cpu.advance_a : (c.advance last).a = c.a := by cases last <;> rfl
@[simp] theorem Cpu.advance_x : (c.advance last).x = c.x := by cases last <;> rfl
@[simp] theorem Cpu.advance_y : (c.advance last).y = c.y := by cases last <;> rfl
@[simp] theorem Cpu.advance_s : (c.advance last).s = c.s := by cases last <;> rfl
@[simp] theorem Cpu.advance_pc : (c.advance last).pc = c.pc := by cases last <;> rfl
@[simp] theorem Cpu.advance_p : (c.advance last).p = c.p := by cases last <;> rfl
@[simp] theorem Cpu.advance_ir : (c.advance last).ir = c.ir := by cases last <;> rfl
@[simp] theorem Cpu.advance_t : (c.advance last).t = if last then 1 else c.t + 1 := by cases last <;> rfl
@[simp] theorem Cpu.advance_seq : (c.advance last).seq = if last then .instr else c.seq := by cases last <;> rfl
@[simp] theorem Cpu.advance_lo : (c.advance last).lo = c.lo := by cases last <;> rfl
@[simp] theorem Cpu.advance_hi : (c.advance last).hi = c.hi := by cases last <;> rfl
@[simp] theorem Cpu.advance_ptr : (c.advance last).ptr = c.ptr := by cases last <;> rfl
@[simp] theorem Cpu.advance_ea : (c.advance last).ea = c.ea := by cases last <;> rfl
@[simp] theorem Cpu.advance_dat : (c.advance last).dat = c.dat := by cases last <;> rfl
@[simp] theorem Cpu.advance_cross : (c.advance last).cross = c.cross := by cases last <;> rfl
@[simp] theorem Cpu.advance_vec : (c.advance last).vec = c.vec := by cases last <;> rfl
@[simp] theorem Cpu.advance_taken : (c.advance last).taken = c.taken := by cases last <;> rfl
@[simp] theorem Cpu.advance_fresh : (c.advance last).fresh = c.fresh := by cases last <;> rfl

end

/-! ### The vector selection -/

section
variable (s : State)

/-- The vector selection touches `vec` and `nmi_pending` only (R331). -/
theorem State.selectVector_eq :
    s.selectVector =
      { s with
        cpu := { s.cpu with vec := s.selectVector.cpu.vec }
        irq := { s.irq with nmiPending := s.selectVector.irq.nmiPending } } := by
  unfold State.selectVector
  split
  · rfl
  all_goals split <;> rfl

@[simp] theorem State.selectVector_a : s.selectVector.cpu.a = s.cpu.a := by rw [State.selectVector_eq]
@[simp] theorem State.selectVector_x : s.selectVector.cpu.x = s.cpu.x := by rw [State.selectVector_eq]
@[simp] theorem State.selectVector_y : s.selectVector.cpu.y = s.cpu.y := by rw [State.selectVector_eq]
@[simp] theorem State.selectVector_s : s.selectVector.cpu.s = s.cpu.s := by rw [State.selectVector_eq]
@[simp] theorem State.selectVector_pc : s.selectVector.cpu.pc = s.cpu.pc := by rw [State.selectVector_eq]
@[simp] theorem State.selectVector_p : s.selectVector.cpu.p = s.cpu.p := by rw [State.selectVector_eq]
@[simp] theorem State.selectVector_ir : s.selectVector.cpu.ir = s.cpu.ir := by rw [State.selectVector_eq]
@[simp] theorem State.selectVector_t : s.selectVector.cpu.t = s.cpu.t := by rw [State.selectVector_eq]
@[simp] theorem State.selectVector_seq : s.selectVector.cpu.seq = s.cpu.seq := by rw [State.selectVector_eq]
@[simp] theorem State.selectVector_lo : s.selectVector.cpu.lo = s.cpu.lo := by rw [State.selectVector_eq]
@[simp] theorem State.selectVector_hi : s.selectVector.cpu.hi = s.cpu.hi := by rw [State.selectVector_eq]
@[simp] theorem State.selectVector_ptr : s.selectVector.cpu.ptr = s.cpu.ptr := by rw [State.selectVector_eq]
@[simp] theorem State.selectVector_ea : s.selectVector.cpu.ea = s.cpu.ea := by rw [State.selectVector_eq]
@[simp] theorem State.selectVector_dat : s.selectVector.cpu.dat = s.cpu.dat := by rw [State.selectVector_eq]
@[simp] theorem State.selectVector_cross : s.selectVector.cpu.cross = s.cpu.cross := by rw [State.selectVector_eq]
@[simp] theorem State.selectVector_taken : s.selectVector.cpu.taken = s.cpu.taken := by rw [State.selectVector_eq]
@[simp] theorem State.selectVector_fresh : s.selectVector.cpu.fresh = s.cpu.fresh := by rw [State.selectVector_eq]
@[simp] theorem State.selectVector_nmiPrev : s.selectVector.irq.nmiPrev = s.irq.nmiPrev := by rw [State.selectVector_eq]
@[simp] theorem State.selectVector_resetPending : s.selectVector.irq.resetPending = s.irq.resetPending := by rw [State.selectVector_eq]
@[simp] theorem State.selectVector_intReq : s.selectVector.irq.intReq = s.irq.intReq := by rw [State.selectVector_eq]
@[simp] theorem State.selectVector_cyc : s.selectVector.cyc = s.cyc := by rw [State.selectVector_eq]
@[simp] theorem State.selectVector_bus : s.selectVector.bus = s.bus := by rw [State.selectVector_eq]
@[simp] theorem State.selectVector_cfg : s.selectVector.cfg = s.cfg := by rw [State.selectVector_eq]

end

/-! ### The boundary -/

section
variable (s : State)

/-- The boundary touches `seq`, the latches and `cyc` only (R112). -/
theorem State.boundary_eq :
    s.boundary =
      { s with cpu := { s.cpu with seq := s.boundary.cpu.seq }, irq := s.boundary.irq, cyc := s.boundary.cyc } := by
  unfold State.boundary
  split
  · rfl
  · split <;> rfl

@[simp] theorem State.boundary_a : s.boundary.cpu.a = s.cpu.a := by rw [State.boundary_eq]
@[simp] theorem State.boundary_x : s.boundary.cpu.x = s.cpu.x := by rw [State.boundary_eq]
@[simp] theorem State.boundary_y : s.boundary.cpu.y = s.cpu.y := by rw [State.boundary_eq]
@[simp] theorem State.boundary_s : s.boundary.cpu.s = s.cpu.s := by rw [State.boundary_eq]
@[simp] theorem State.boundary_pc : s.boundary.cpu.pc = s.cpu.pc := by rw [State.boundary_eq]
@[simp] theorem State.boundary_p : s.boundary.cpu.p = s.cpu.p := by rw [State.boundary_eq]
@[simp] theorem State.boundary_ir : s.boundary.cpu.ir = s.cpu.ir := by rw [State.boundary_eq]
@[simp] theorem State.boundary_t : s.boundary.cpu.t = s.cpu.t := by rw [State.boundary_eq]
@[simp] theorem State.boundary_lo : s.boundary.cpu.lo = s.cpu.lo := by rw [State.boundary_eq]
@[simp] theorem State.boundary_hi : s.boundary.cpu.hi = s.cpu.hi := by rw [State.boundary_eq]
@[simp] theorem State.boundary_ptr : s.boundary.cpu.ptr = s.cpu.ptr := by rw [State.boundary_eq]
@[simp] theorem State.boundary_ea : s.boundary.cpu.ea = s.cpu.ea := by rw [State.boundary_eq]
@[simp] theorem State.boundary_dat : s.boundary.cpu.dat = s.cpu.dat := by rw [State.boundary_eq]
@[simp] theorem State.boundary_cross : s.boundary.cpu.cross = s.cpu.cross := by rw [State.boundary_eq]
@[simp] theorem State.boundary_vec : s.boundary.cpu.vec = s.cpu.vec := by rw [State.boundary_eq]
@[simp] theorem State.boundary_taken : s.boundary.cpu.taken = s.cpu.taken := by rw [State.boundary_eq]
@[simp] theorem State.boundary_fresh : s.boundary.cpu.fresh = s.cpu.fresh := by rw [State.boundary_eq]
@[simp] theorem State.boundary_bus : s.boundary.bus = s.bus := by rw [State.boundary_eq]
@[simp] theorem State.boundary_cfg : s.boundary.cfg = s.cfg := by rw [State.boundary_eq]

end

end Sys2Proof.Machine
end

