-- ==== Sys2Proof/Laws/Memory.lean ====
section
/-! SUPPORT. The laws of memory: read after write, the canonical form, and that equal contents are equal lists. -/

namespace Sys2Proof.Machine

/-- Below its first cell a canonical memory lists nothing. -/
theorem Memory.read_below {m : Memory} {b a : Nat} (h : Memory.wfFrom b m = true) (ha : a < b) :
    Memory.read m a = Config.ramInit := by
  induction m generalizing b with
  | nil => rfl
  | cons e m ih =>
    obtain ⟨k, v⟩ := e
    simp only [Memory.wfFrom, Bool.and_eq_true, decide_eq_true_eq] at h
    rw [Memory.read, if_neg (by omega)]
    exact ih h.2 (by omega)

/-- The canonical form from a cell on is the canonical form from any lower cell. -/
theorem Memory.wfFrom_mono {m : Memory} {b b' : Nat} (h : Memory.wfFrom b m = true) (hb : b' ≤ b) :
    Memory.wfFrom b' m = true := by
  cases m with
  | nil => rfl
  | cons e m =>
    simp only [Memory.wfFrom, Bool.and_eq_true, decide_eq_true_eq] at h ⊢
    exact ⟨⟨⟨by omega, h.1.1.2⟩, h.1.2⟩, h.2⟩

/-- Reading the cell that was written gives the byte written. -/
theorem Memory.read_write_same_from {m : Memory} {b : Nat} (a : Nat) (v : Byte) (h : Memory.wfFrom b m = true) :
    Memory.read (Memory.write m a v) a = v := by
  induction m generalizing b with
  | nil => by_cases hv : v = Config.ramInit <;> simp [Memory.write, Memory.read, hv]
  | cons e m ih =>
    obtain ⟨k, w⟩ := e
    simp only [Memory.wfFrom, Bool.and_eq_true, decide_eq_true_eq] at h
    rw [Memory.write]
    split
    · split
      · rename_i h1 h2
        rw [Memory.read, if_neg (by omega), Memory.read_below h.2 (by omega), h2]
      · simp [Memory.read]
    · split
      · rename_i h1 h2
        split
        · rename_i h3
          rw [Memory.read_below h.2 (by omega), h3]
        · simp [Memory.read]
      · rename_i h1 h2
        rw [Memory.read, if_neg h2]
        exact ih h.2

/-- Reading the cell that was written gives the byte written. -/
theorem Memory.read_write_same {m : Memory} (a : Nat) (v : Byte) (h : Memory.wf m = true) :
    Memory.read (Memory.write m a v) a = v := Memory.read_write_same_from a v h

/-- Reading any other cell gives what it gave before. -/
theorem Memory.read_write_other (m : Memory) {a c : Nat} (v : Byte) (h : c ≠ a) :
    Memory.read (Memory.write m a v) c = Memory.read m c := by
  induction m with
  | nil =>
    by_cases hv : v = Config.ramInit <;> simp [Memory.write, Memory.read, hv, h]
  | cons e m ih =>
    obtain ⟨k, w⟩ := e
    rw [Memory.write]
    split
    · split
      · rfl
      · rw [Memory.read, if_neg h]
    · split
      · rename_i h1 h2
        subst h2
        split
        · rw [Memory.read, if_neg h]
        · rw [Memory.read, Memory.read, if_neg h, if_neg h]
      · rw [Memory.read, Memory.read, ih]

/-- A write keeps the canonical form. -/
theorem Memory.wfFrom_write {m : Memory} {b : Nat} (a : Nat) (v : Byte) (h : Memory.wfFrom b m = true)
    (hb : b ≤ a) (ha : a < 0x10000) : Memory.wfFrom b (Memory.write m a v) = true := by
  induction m generalizing b with
  | nil => by_cases hv : v = Config.ramInit <;> simp [Memory.write, Memory.wfFrom, hv, hb, ha]
  | cons e m ih =>
    obtain ⟨k, w⟩ := e
    have h' := h
    simp only [Memory.wfFrom, Bool.and_eq_true, decide_eq_true_eq] at h'
    rw [Memory.write]
    split
    · split
      · exact h
      · rename_i h1 h2
        simp only [Memory.wfFrom, Bool.and_eq_true, decide_eq_true_eq]
        exact ⟨⟨⟨hb, ha⟩, by simpa using h2⟩, ⟨⟨by omega, h'.1.1.2⟩, h'.1.2⟩, h'.2⟩
    · split
      · rename_i h1 h2
        subst h2
        split
        · exact Memory.wfFrom_mono h'.2 (by omega)
        · rename_i h3
          simp only [Memory.wfFrom, Bool.and_eq_true, decide_eq_true_eq]
          exact ⟨⟨⟨hb, ha⟩, by simpa using h3⟩, h'.2⟩
      · simp only [Memory.wfFrom, Bool.and_eq_true, decide_eq_true_eq]
        exact ⟨h'.1, ih h'.2 (by omega)⟩

/-- A write to a cell of the address space keeps the canonical form. -/
theorem Memory.wf_write {m : Memory} (a : Nat) (v : Byte) (h : Memory.wf m = true) (ha : a < 0x10000) :
    Memory.wf (Memory.write m a v) = true := Memory.wfFrom_write a v h (Nat.zero_le a) ha

/-- Writing the byte a cell already holds changes nothing: the dummy write of a read-modify-write (R119). -/
theorem Memory.write_read_from {m : Memory} {b : Nat} (a : Nat) (h : Memory.wfFrom b m = true) :
    Memory.write m a (Memory.read m a) = m := by
  induction m generalizing b with
  | nil => simp [Memory.write, Memory.read]
  | cons e m ih =>
    obtain ⟨k, w⟩ := e
    simp only [Memory.wfFrom, Bool.and_eq_true, decide_eq_true_eq] at h
    rw [Memory.write, Memory.read]
    split
    · rename_i h1
      rw [if_neg (by omega : a ≠ k), if_pos (Memory.read_below h.2 (by omega))]
    · split
      · rename_i h1 h2
        subst h2
        rw [if_neg (by simpa using h.1.2)]
      · rw [ih h.2]

theorem Memory.write_read {m : Memory} (a : Nat) (h : Memory.wf m = true) :
    Memory.write m a (Memory.read m a) = m := Memory.write_read_from a h

/-- The second of two writes to one cell is the one that stays. -/
theorem Memory.write_write_same_from {m : Memory} {b : Nat} (a : Nat) (v w : Byte) (h : Memory.wfFrom b m = true) :
    Memory.write (Memory.write m a v) a w = Memory.write m a w := by
  induction m generalizing b with
  | nil => by_cases hv : v = Config.ramInit <;> simp [Memory.write, hv]
  | cons e m ih =>
    obtain ⟨k, u⟩ := e
    simp only [Memory.wfFrom, Bool.and_eq_true, decide_eq_true_eq] at h
    simp only [Memory.write]
    split
    · rename_i h1
      split <;> simp [Memory.write, h1]
    · split
      · rename_i h1 h2
        subst h2
        split
        · cases m with
          | nil => simp [Memory.write]
          | cons e m =>
            obtain ⟨k', u'⟩ := e
            simp only [Memory.wfFrom, Bool.and_eq_true, decide_eq_true_eq] at h
            rw [Memory.write, if_pos (by omega)]
        · simp [Memory.write]
      · rename_i h1 h2
        rw [Memory.write, if_neg h1, if_neg h2, ih h.2]

theorem Memory.write_write_same {m : Memory} (a : Nat) (v w : Byte) (h : Memory.wf m = true) :
    Memory.write (Memory.write m a v) a w = Memory.write m a w := Memory.write_write_same_from a v w h

/-- A cell of a bus address is in the address space. -/
theorem cellOf_lt (map : AddressMap) (a : Word) : cellOf map a < 0x10000 := by
  have := a.isLt
  cases map <;> simp only [cellOf]
  · omega
  · split <;> omega

/-- A transaction keeps the canonical form of the memory it acts on. -/
theorem Bus.wf_memAfter {b : Bus} (map : AddressMap) (op : BusOp) (h : Memory.wf b.mem = true) :
    Memory.wf (b.memAfter map op) = true := by
  cases op with
  | read a => exact h
  | write a v =>
    simp only [Bus.memAfter]
    split
    · exact Memory.wf_write _ _ h (cellOf_lt map a)
    all_goals exact h

/-- Stores of other agents keep the canonical form. -/
theorem Memory.wf_writes {m : Memory} (map : AddressMap) (ws : List (Word × Byte)) (h : Memory.wf m = true) :
    Memory.wf (Memory.writes map m ws) = true := by
  induction ws generalizing m with
  | nil => exact h
  | cons w ws ih => exact ih (Memory.wf_write _ _ h (cellOf_lt map w.1))

/-- Stores one after the other. -/
theorem Memory.writes_append (map : AddressMap) (m : Memory) (ws vs : List (Word × Byte)) :
    Memory.writes map m (ws ++ vs) = Memory.writes map (Memory.writes map m ws) vs := by
  induction ws generalizing m with
  | nil => rfl
  | cons w ws ih => exact ih _

/-- The memory of the reset state is canonical. -/
theorem Memory.wf_reset : Memory.wf State.reset.bus.mem = true := rfl

end Sys2Proof.Machine
end

