-- ==== Sys2Proof/Laws/Log.lean ====
section
/-! SUPPORT. The laws of logs: what the readings of a log (`transactions`, `activeCycles`, `cyclesOf`, `replay`) make of its
pieces, and of other agents' stores. -/

namespace Sys2Proof.Machine

/-! ### Readings of a log, entry by entry -/

section
variable (log old : List BusCycle) (a : Word) (d : Byte)

@[simp] theorem transactions_nil : transactions [] = [] := rfl
@[simp] theorem transactions_read : transactions (.read a d :: log) = .read a :: transactions log := rfl
@[simp] theorem transactions_write : transactions (.write a d :: log) = .write a d :: transactions log := rfl
@[simp] theorem transactions_stall : transactions (.stall :: log) = transactions log := rfl
@[simp] theorem transactions_other : transactions (.other a d :: log) = transactions log := rfl
@[simp] theorem transactions_append : transactions (log ++ old) = transactions log ++ transactions old :=
  List.filterMap_append

@[simp] theorem activeCycles_nil : activeCycles [] = [] := rfl
@[simp] theorem activeCycles_read : activeCycles (.read a d :: log) = .read a d :: activeCycles log := rfl
@[simp] theorem activeCycles_write : activeCycles (.write a d :: log) = .write a d :: activeCycles log := rfl
@[simp] theorem activeCycles_stall : activeCycles (.stall :: log) = activeCycles log := rfl
@[simp] theorem activeCycles_other : activeCycles (.other a d :: log) = activeCycles log := rfl
@[simp] theorem activeCycles_append : activeCycles (log ++ old) = activeCycles log ++ activeCycles old :=
  List.filter_append ..

@[simp] theorem cyclesOf_nil : cyclesOf [] = [] := rfl
@[simp] theorem cyclesOf_read : cyclesOf (.read a d :: log) = .read a d :: cyclesOf log := rfl
@[simp] theorem cyclesOf_write : cyclesOf (.write a d :: log) = .write a d :: cyclesOf log := rfl
@[simp] theorem cyclesOf_stall : cyclesOf (.stall :: log) = .stall :: cyclesOf log := rfl
@[simp] theorem cyclesOf_other : cyclesOf (.other a d :: log) = cyclesOf log := rfl
@[simp] theorem cyclesOf_append : cyclesOf (log ++ old) = cyclesOf log ++ cyclesOf old := List.filter_append ..

variable (map : AddressMap) (m : Memory)

@[simp] theorem replay_nil : replay map [] m = m := rfl
@[simp] theorem replay_read : replay map (.read a d :: log) m = replay map log m := rfl
@[simp] theorem replay_write :
    replay map (.write a d :: log) m = Memory.write (replay map log m) (cellOf map a) d := rfl
@[simp] theorem replay_stall : replay map (.stall :: log) m = replay map log m := rfl
@[simp] theorem replay_other :
    replay map (.other a d :: log) m = Memory.write (replay map log m) (cellOf map a) d := rfl
theorem replay_append : replay map (log ++ old) m = replay map log (replay map old m) := List.foldr_append ..

/-- The transactions are those of the active cycles. -/
theorem transactions_activeCycles : transactions (activeCycles log) = transactions log := by
  induction log with
  | nil => rfl
  | cons c log ih => cases c <;> simp [ih]

/-- Replaying keeps the canonical form. -/
theorem wf_replay (h : Memory.wf m = true) : Memory.wf (replay map log m) = true := by
  induction log with
  | nil => exact h
  | cons c log ih =>
    cases c with
    | read a d | stall => exact ih
    | write a v | other a v => exact Memory.wf_write _ _ ih (cellOf_lt map a)

end

/-! ### Other agents' stores -/

section
variable (ws : List (Word × Byte))

@[simp] theorem transactions_othersLogged : transactions (othersLogged ws) = [] := by
  induction ws with
  | nil => rfl
  | cons w ws ih => simp [othersLogged, ih]

@[simp] theorem activeCycles_othersLogged : activeCycles (othersLogged ws) = [] := by
  induction ws with
  | nil => rfl
  | cons w ws ih => simp [othersLogged, ih]

@[simp] theorem cyclesOf_othersLogged : cyclesOf (othersLogged ws) = [] := by
  induction ws with
  | nil => rfl
  | cons w ws ih => simp [othersLogged, ih]

@[simp] theorem replay_othersLogged (map : AddressMap) (m : Memory) :
    replay map (othersLogged ws) m = Memory.writes map m ws := by
  induction ws generalizing m with
  | nil => rfl
  | cons w ws ih => rw [othersLogged, replay_append, ih]; rfl

theorem write_notMem_othersLogged (a : Word) (v : Byte) : BusCycle.write a v ∉ othersLogged ws := by
  induction ws with
  | nil => exact fun h => nomatch h
  | cons w ws ih => simp [othersLogged, ih]

end

/-! ### The stall cycles of an input -/

/-- What a run of stall cycles leaves in the log, newest first. -/
def stallLog : List Stall → List BusCycle
  | [] => []
  | i :: rest => stallLog rest ++ (othersLogged i.writes ++ [.stall])

/-- The stall cycles before the next active cycle. -/
def Bus.stalls (b : Bus) : List Stall := ((b.inputs.head?).map CycleInput.stalls).getD []

section
variable (is : List Stall)

@[simp] theorem transactions_stallLog : transactions (stallLog is) = [] := by
  induction is with
  | nil => rfl
  | cons i is ih => simp [stallLog, ih]

@[simp] theorem activeCycles_stallLog : activeCycles (stallLog is) = [] := by
  induction is with
  | nil => rfl
  | cons i is ih => simp [stallLog, ih]

@[simp] theorem cyclesOf_stallLog : cyclesOf (stallLog is) = List.replicate is.length .stall := by
  induction is with
  | nil => rfl
  | cons i is ih => simp [stallLog, ih, List.replicate_succ']

/-- Stall cycles change memory by what other agents store in them (R59, R65). -/
theorem replay_stallLog (map : AddressMap) (m : Memory) :
    replay map (stallLog is) m = Memory.writes map m (is.flatMap Stall.writes) := by
  induction is generalizing m with
  | nil => rfl
  | cons i is ih => simp [stallLog, replay_append, ih, Memory.writes_append]

theorem write_notMem_stallLog (a : Word) (v : Byte) : BusCycle.write a v ∉ stallLog is := by
  induction is with
  | nil => exact fun h => nomatch h
  | cons i is ih => simp [stallLog, ih, write_notMem_othersLogged]

/-- Stall cycles in which nobody stores leave memory alone. -/
theorem replay_stallLog_alone (map : AddressMap) (m : Memory) (h : ∀ i ∈ is, i.writes = []) :
    replay map (stallLog is) m = m := by
  rw [replay_stallLog, List.flatMap_eq_nil_iff.2 h]
  rfl

end

end Sys2Proof.Machine
end

