-- ==== Sys2Proof/Laws/Bytes.lean ====
section
/-! SUPPORT. The laws of bytes and words: high and low halves, indexing with the carry fixed up, stack slots. -/

namespace Sys2Proof

@[simp] theorem toNat_join (h l : Byte) : (join h l).toNat = h.toNat * 256 + l.toNat := by
  have hl := l.isLt
  rw [join, BitVec.toNat_append, ← Nat.shiftLeft_add_eq_or_of_lt hl, Nat.shiftLeft_eq]

@[simp] theorem toNat_loByte (w : Word) : (loByte w).toNat = w.toNat % 256 := by
  simp [loByte, BitVec.extractLsb'_toNat]

@[simp] theorem toNat_hiByte (w : Word) : (hiByte w).toNat = w.toNat / 256 := by
  have := w.isLt
  simp [hiByte, BitVec.extractLsb'_toNat, Nat.shiftRight_eq_div_pow]
  omega

@[simp] theorem loByte_join (h l : Byte) : loByte (join h l) = l := by
  have := l.isLt
  apply BitVec.eq_of_toNat_eq
  rw [toNat_loByte, toNat_join]
  omega

@[simp] theorem hiByte_join (h l : Byte) : hiByte (join h l) = h := by
  have := l.isLt
  apply BitVec.eq_of_toNat_eq
  rw [toNat_hiByte, toNat_join]
  omega

@[simp] theorem join_hi_lo (w : Word) : join (hiByte w) (loByte w) = w := by
  apply BitVec.eq_of_toNat_eq
  rw [toNat_join, toNat_hiByte, toNat_loByte]
  omega

theorem join_inj {h l h' l' : Byte} : join h l = join h' l' ↔ h = h' ∧ l = l' := by
  constructor
  · intro e
    exact ⟨by rw [← hiByte_join h l, e, hiByte_join], by rw [← loByte_join h l, e, loByte_join]⟩
  · rintro ⟨rfl, rfl⟩
    rfl

namespace Machine

/-- The indexed address: the low byte wraps, and the high byte takes the carry (R82, R126). -/
theorem join_index (h l i : Byte) :
    join (if carries l i then h + 1 else h) (l + i) = join h l + i.setWidth 16 := by
  have h1 := h.isLt
  have h2 := l.isLt
  have h3 := i.isLt
  apply BitVec.eq_of_toNat_eq
  rw [toNat_join, BitVec.toNat_add, BitVec.toNat_add, toNat_join, BitVec.toNat_setWidth]
  by_cases hc : 0xFF < l.toNat + i.toNat
  · rw [if_pos (by simpa [carries] using hc), BitVec.toNat_add]
    have : BitVec.toNat (1 : Byte) = 1 := rfl
    rw [this]
    omega
  · rw [if_neg (by simpa [carries] using hc)]
    omega

/-- The same where the carry is known to be there. -/
theorem join_index_carry {h l i : Byte} (hc : carries l i = true) :
    join (h + 1) (l + i) = join h l + i.setWidth 16 := by
  rw [← join_index, if_pos hc]

/-- The same where there is none. -/
theorem join_index_noCarry {h l i : Byte} (hc : carries l i = false) :
    join h (l + i) = join h l + i.setWidth 16 := by
  rw [← join_index, if_neg (by simp [hc])]

/-- The page is crossed exactly when the low bytes carry. -/
theorem hiByte_index_ne (h l i : Byte) : (hiByte (join h l + i.setWidth 16) != h) = carries l i := by
  rw [← join_index, hiByte_join]
  cases hc : carries l i
  · simp
  · have : h + 1 ≠ h := by
      intro e
      have h0 := congrArg BitVec.toNat e
      have h1 := h.isLt
      have h2 : BitVec.toNat (1 : Byte) = 1 := rfl
      rw [BitVec.toNat_add, h2] at h0
      omega
    simp

/-- Stack slots of different stack pointers are different addresses. -/
theorem stackAddr_inj {a b : Byte} : stackAddr a = stackAddr b ↔ a = b := by
  simp [stackAddr, join_inj]

/-- A stack slot's cell is its address under both maps. -/
@[simp] theorem cellOf_stackAddr (map : AddressMap) (s : Byte) : cellOf map (stackAddr s) = 256 + s.toNat := by
  have := s.isLt
  have h : (stackAddr s).toNat = 256 + s.toNat := by rw [stackAddr, toNat_join]; rfl
  cases map <;> simp only [cellOf, h]
  rw [if_pos (by omega)]
  omega

end Machine
end Sys2Proof
end

