-- ==== Sys2Proof/Laws/Cycle.lean ====
section
/-! SUPPORT. Everything a stall cycle, an active cycle and a run of cycles can do, in every environment; and the simpler
forms for the environment that says nothing. -/

namespace Sys2Proof.Machine

/-! ## Stall cycles -/

/-- A run of stall cycles touches the latches, the count, the data latch, the log and the lines only (R65), and memory by
what other agents store in it (R59). -/
theorem stalls_eq (is : List Stall) (s : State) :
    is.foldl State.stallCycle s =
      { s with
        irq := (is.foldl State.stallCycle s).irq
        cyc := s.cyc + BitVec.ofNat 64 is.length
        bus := { s.bus with
          mem := replay s.cfg.map (stallLog is) s.bus.mem
          latch := (is.foldl State.stallCycle s).bus.latch
          log := stallLog is ++ s.bus.log
          lines := (is.foldl State.stallCycle s).bus.lines } } := by
  induction is generalizing s with
  | nil => simp [stallLog]
  | cons i is ih =>
    rw [List.foldl_cons, ih]
    simp only [State.stallCycle, List.length_cons, stallLog, List.append_assoc, List.singleton_append, replay_append,
      replay_othersLogged, replay_stall, replay_nil, State.mk.injEq, true_and, and_true]
    rw [BitVec.add_assoc, Nat.add_comm, BitVec.ofNat_add]
    rfl

/-- Stall cycles do not poll (R324). -/
theorem stalls_intReq (is : List Stall) (s : State) :
    (is.foldl State.stallCycle s).irq.intReq = s.irq.intReq := by
  induction is generalizing s with
  | nil => rfl
  | cons i is ih => rw [List.foldl_cons, ih]; rfl

/-- When the environment says nothing there are no stall cycles. -/
@[simp] theorem State.serveStalls_quiet {s : State} (h : s.quiet) : s.serveStalls = s := by
  unfold State.serveStalls
  rw [show s.bus.inputs = [] from h]

/-- The stall cycles of the next input, its target, lines and stores kept for the active cycle. -/
theorem State.serveStalls_cons {s : State} {i : CycleInput} {rest : List CycleInput} (h : s.bus.inputs = i :: rest) :
    s.serveStalls =
      { i.stalls.foldl State.stallCycle s with
        bus := { (i.stalls.foldl State.stallCycle s).bus with inputs := { i with stalls := [] } :: rest } } := by
  unfold State.serveStalls
  rw [h]

/-- The stall cycles before an active cycle: what they leave as it was (R65). -/
theorem State.serveStalls_eq (s : State) :
    s.serveStalls =
      { s with
        irq := s.serveStalls.irq
        cyc := s.cyc + BitVec.ofNat 64 s.bus.stalls.length
        bus := { s.bus with
          mem := replay s.cfg.map (stallLog s.bus.stalls) s.bus.mem
          latch := s.serveStalls.bus.latch
          log := stallLog s.bus.stalls ++ s.bus.log
          inputs := s.serveStalls.bus.inputs
          lines := s.serveStalls.bus.lines } } := by
  cases h : s.bus.inputs with
  | nil =>
    rw [State.serveStalls_quiet h, show s.bus.stalls = [] by simp [Bus.stalls, h]]
    simp [stallLog]
  | cons i rest =>
    rw [State.serveStalls_cons h, stalls_eq]
    simp [Bus.stalls, h]

section
variable (s : State)

@[simp] theorem State.serveStalls_cpu : s.serveStalls.cpu = s.cpu := by rw [State.serveStalls_eq]
@[simp] theorem State.serveStalls_cfg : s.serveStalls.cfg = s.cfg := by rw [State.serveStalls_eq]
theorem State.serveStalls_mem : s.serveStalls.bus.mem = replay s.cfg.map (stallLog s.bus.stalls) s.bus.mem := by
  rw [State.serveStalls_eq]
theorem State.serveStalls_cyc : s.serveStalls.cyc = s.cyc + BitVec.ofNat 64 s.bus.stalls.length := by
  rw [State.serveStalls_eq]
theorem State.serveStalls_log : s.serveStalls.bus.log = stallLog s.bus.stalls ++ s.bus.log := by
  rw [State.serveStalls_eq]

/-- Where no other agent stores, the stall cycles leave memory alone. -/
theorem State.serveStalls_mem_alone (h : s.alone) : s.serveStalls.bus.mem = s.bus.mem := by
  rw [State.serveStalls_mem, replay_stallLog_alone]
  cases hi : s.bus.inputs with
  | nil => simp [Bus.stalls, hi]
  | cons i rest => simpa [Bus.stalls, hi] using (h i (by simp [hi])).2

@[simp] theorem State.serveStalls_tail : s.serveStalls.bus.inputs.tail = s.bus.inputs.tail := by
  cases h : s.bus.inputs with
  | nil => rw [State.serveStalls_quiet h, h]
  | cons i rest => simp [State.serveStalls_cons h]

@[simp] theorem State.serveStalls_target : s.serveStalls.bus.target = s.bus.target := by
  cases h : s.bus.inputs with
  | nil => rw [State.serveStalls_quiet h]
  | cons i rest => simp [State.serveStalls_cons h, Bus.target, h]

@[simp] theorem State.serveStalls_nextLines : s.serveStalls.bus.nextLines = s.bus.nextLines := by
  cases h : s.bus.inputs with
  | nil => rw [State.serveStalls_quiet h]
  | cons i rest => simp [State.serveStalls_cons h, Bus.nextLines, h]

@[simp] theorem State.serveStalls_nextWrites : s.serveStalls.bus.nextWrites = s.bus.nextWrites := by
  cases h : s.bus.inputs with
  | nil => rw [State.serveStalls_quiet h]
  | cons i rest => simp [State.serveStalls_cons h, Bus.nextWrites, h]

@[simp] theorem State.serveStalls_intReq : s.serveStalls.irq.intReq = s.irq.intReq := by
  cases h : s.bus.inputs with
  | nil => rw [State.serveStalls_quiet h]
  | cons i rest => simp [State.serveStalls_cons h, stalls_intReq]

/-- Once served, stall cycles are gone. -/
@[simp] theorem State.serveStalls_idem : s.serveStalls.serveStalls = s.serveStalls := by
  cases h : s.bus.inputs with
  | nil => rw [State.serveStalls_quiet h, State.serveStalls_quiet h]
  | cons i rest =>
    have h' : s.serveStalls.bus.inputs = { i with stalls := [] } :: rest := by rw [State.serveStalls_cons h]
    rw [State.serveStalls_cons h', List.foldl_nil, ← h']

end

/-! ## An active cycle -/

/-- Everything an active cycle and the stall cycles before it do, but for the vector selection (R110). -/
theorem Row.cycle_eq (r : Row) (s : State) (h : r.selects = false) :
    r.cycle s =
      { cpu := (r.act (s.serveStalls.bus.data s.cfg.map (r.bus s.cpu)) s.cpu).advance
          (r.last (r.act (s.serveStalls.bus.data s.cfg.map (r.bus s.cpu)) s.cpu))
        irq :=
          if r.poll s.cfg (r.act (s.serveStalls.bus.data s.cfg.map (r.bus s.cpu)) s.cpu) then
            (s.serveStalls.irq.sample s.bus.nextLines).poll s.bus.nextLines.irq
              (r.act (s.serveStalls.bus.data s.cfg.map (r.bus s.cpu)) s.cpu).p.i
          else s.serveStalls.irq.sample s.bus.nextLines
        cyc := s.serveStalls.cyc + 1
        bus := s.serveStalls.bus.transact s.cfg.map (r.bus s.cpu)
        cfg := s.cfg } := by
  simp [Row.cycle, Row.active, h]

/-- The selection can follow an active cycle; it touches `vec` and `nmi_pending` only. -/
theorem Row.active_eq (r : Row) (s : State) :
    r.active s = { Row.active { r with selects := false } s with
      cpu := { (Row.active { r with selects := false } s).cpu with vec := (r.active s).cpu.vec }
      irq := { (Row.active { r with selects := false } s).irq with nmiPending := (r.active s).irq.nmiPending } } := by
  unfold Row.active
  simp only [Bool.false_and, Bool.false_eq_true, if_false]
  split
  · rw [State.selectVector_eq]
    unfold Cpu.advance
    dsimp only
    split <;> rfl
  · rfl

section
variable (r : Row) (s : State)

@[simp] theorem Row.cycle_cfg : (r.cycle s).cfg = s.cfg := by
  rw [Row.cycle, Row.active_eq]; simp [Row.active]

theorem Row.cycle_bus : (r.cycle s).bus = s.serveStalls.bus.transact s.cfg.map (r.bus s.cpu) := by
  rw [Row.cycle, Row.active_eq]; simp [Row.active]

theorem Row.cycle_cyc : (r.cycle s).cyc = s.serveStalls.cyc + 1 := by
  rw [Row.cycle, Row.active_eq]; simp [Row.active]

/-- What a cycle and the stall cycles before it leave in the log, newest first. -/
def Row.cycleLog (r : Row) (s : State) : List BusCycle :=
  othersLogged s.bus.nextWrites ++
    (r.bus s.cpu).logged (s.serveStalls.bus.data s.cfg.map (r.bus s.cpu)) :: stallLog s.bus.stalls

theorem Row.cycle_log : (r.cycle s).bus.log = r.cycleLog s ++ s.bus.log := by
  rw [Row.cycle_bus, Bus.transact_log, State.serveStalls_log]
  simp [Row.cycleLog]

/-- A cycle changes memory by its one transaction (R9), and by what other agents store around it (R59). -/
theorem Row.cycle_mem :
    (r.cycle s).bus.mem =
      Memory.writes s.cfg.map (s.serveStalls.bus.memAfter s.cfg.map (r.bus s.cpu)) s.bus.nextWrites := by
  rw [Row.cycle_bus, Bus.transact_mem, State.serveStalls_nextWrites]

@[simp] theorem Row.cycle_inputs : (r.cycle s).bus.inputs = s.bus.inputs.tail := by
  rw [Row.cycle_bus]; simp

@[simp] theorem Row.cycle_lines : (r.cycle s).bus.lines = s.bus.nextLines := by
  rw [Row.cycle_bus]; simp

/-- The registers after a cycle, the selected vector apart. -/
theorem Row.cycle_cpu :
    (r.cycle s).cpu =
      { (r.act (s.serveStalls.bus.data s.cfg.map (r.bus s.cpu)) s.cpu).advance
          (r.last (r.act (s.serveStalls.bus.data s.cfg.map (r.bus s.cpu)) s.cpu)) with
        vec := (r.cycle s).cpu.vec } := by
  conv_lhs => rw [Row.cycle, Row.active_eq]
  simp [Row.active, Row.cycle]

/-- A cycle keeps memory canonical. -/
theorem Row.cycle_wf (h : Memory.wf s.bus.mem = true) : Memory.wf (r.cycle s).bus.mem = true := by
  rw [Row.cycle_mem]
  exact Memory.wf_writes _ _ (Bus.wf_memAfter _ _ (by rw [State.serveStalls_mem]; exact wf_replay _ _ _ h))

end

section
variable {r : Row} {s : State}

/-- The registers after a cycle of a row that selects no vector. -/
theorem Row.cycle_cpu_plain (h : r.selects = false) :
    (r.cycle s).cpu =
      (r.act (s.serveStalls.bus.data s.cfg.map (r.bus s.cpu)) s.cpu).advance
        (r.last (r.act (s.serveStalls.bus.data s.cfg.map (r.bus s.cpu)) s.cpu)) := by
  rw [r.cycle_eq s h]

/-- The transactions of the log: one more, the row's. -/
theorem Row.cycle_transactions : transactions (r.cycle s).bus.log = r.bus s.cpu :: transactions s.bus.log := by
  rw [Row.cycle_log, Row.cycleLog]
  cases r.bus s.cpu <;> simp [BusOp.logged]

/-- The active cycles of the log: one more, the row's transaction; the stall cycles before it are not among them. -/
theorem Row.cycle_active :
    activeCycles (r.cycle s).bus.log =
      (r.bus s.cpu).logged (s.serveStalls.bus.data s.cfg.map (r.bus s.cpu)) :: activeCycles s.bus.log := by
  rw [Row.cycle_log, Row.cycleLog]
  cases r.bus s.cpu <;> simp [BusOp.logged]

/-- The CPU cycles of the log: one more, and the stall cycles before it; other agents' stores are not among them. -/
theorem Row.cycle_cyclesOf :
    cyclesOf (r.cycle s).bus.log =
      (r.bus s.cpu).logged (s.serveStalls.bus.data s.cfg.map (r.bus s.cpu)) ::
        (List.replicate s.bus.stalls.length .stall ++ cyclesOf s.bus.log) := by
  rw [Row.cycle_log, Row.cycleLog]
  cases r.bus s.cpu <;> simp [BusOp.logged]

/-- A read cycle changes memory by what other agents store around it alone, whoever answers it. -/
theorem Row.cycle_mem_read {a : Word} (h : r.bus s.cpu = .read a) :
    (r.cycle s).bus.mem = replay s.cfg.map (r.cycleLog s) s.bus.mem := by
  rw [Row.cycle_mem, Row.cycleLog, replay_append, replay_othersLogged, h, BusOp.logged, replay_read, Bus.memAfter,
    State.serveStalls_mem]

/-- Who stays alone. -/
theorem Row.cycle_alone (h : s.alone) : (r.cycle s).alone := by
  intro i hi
  rw [Row.cycle_inputs] at hi
  exact h i (List.mem_of_mem_tail hi)

/-- Where no other agent stores, the next cycle has no stores of theirs. -/
theorem State.nextWrites_alone (h : s.alone) : s.bus.nextWrites = [] := by
  unfold Bus.nextWrites
  split
  · rfl
  · rename_i i rest e
    exact (h i (by rw [e]; exact List.mem_cons_self)).1

/-- A read cycle stores nothing. -/
theorem Row.cycle_writesNothing {a : Word} (h : r.bus s.cpu = .read a) : s.writesNothing (r.cycle s) := by
  refine ⟨r.cycleLog s, Row.cycle_log r s, fun b v => ?_, Row.cycle_mem_read h, fun ha => ?_⟩
  · simp [Row.cycleLog, h, BusOp.logged, write_notMem_othersLogged, write_notMem_stallLog]
  · rw [Row.cycle_mem, State.nextWrites_alone ha, h, Bus.memAfter, State.serveStalls_mem_alone s ha]
    rfl

end

/-! ## When memory answers -/

section
variable {s : State}

theorem State.memoryServes_target (h : s.memoryServes) : s.bus.target = .memory := by
  unfold Bus.target
  split
  · rfl
  · rename_i i rest e
    exact h i (by rw [e]; exact List.mem_cons_self)

theorem Row.cycle_memoryServes (r : Row) (h : s.memoryServes) : (r.cycle s).memoryServes := by
  intro i hi
  rw [Row.cycle_inputs] at hi
  exact h i (List.mem_of_mem_tail hi)

/-- Where memory answers, a cycle changes memory by the stores it leaves in the log, and by nothing else (R50, R59). -/
theorem Row.cycle_replay (r : Row) (h : s.memoryServes) :
    (r.cycle s).bus.mem = replay s.cfg.map (r.cycleLog s) s.bus.mem := by
  cases hb : r.bus s.cpu with
  | read a => exact Row.cycle_mem_read hb
  | write a v =>
    rw [Row.cycle_mem, Row.cycleLog, replay_append, replay_othersLogged, hb, BusOp.logged, replay_write, Bus.memAfter,
      State.serveStalls_target, State.memoryServes_target h, State.serveStalls_mem]

/-- Where memory answers, the byte on the bus in a cycle is the byte read after the stall cycles' stores, or the one written. -/
theorem State.data_serves (h : s.memoryServes) (op : BusOp) :
    s.serveStalls.bus.data s.cfg.map op =
      match op with
      | .read a => Memory.read (replay s.cfg.map (stallLog s.bus.stalls) s.bus.mem) (cellOf s.cfg.map a)
      | .write _ v => v := by
  cases op with
  | read a => simp [Bus.data, State.memoryServes_target h, State.serveStalls_mem]
  | write a v => rfl

theorem Row.cycle_memoryAnswers (r : Row) (h : s.memoryAnswers) : (r.cycle s).memoryAnswers :=
  ⟨r.cycle_memoryServes h.1, Row.cycle_alone h.2⟩

/-- Quiet is a case of memory answering. -/
theorem State.quiet_memoryAnswers (h : s.quiet) : s.memoryAnswers := by
  constructor <;> intro i hi <;> rw [show s.bus.inputs = [] from h] at hi <;> cases hi

theorem State.data_memory (h : s.memoryAnswers) (op : BusOp) :
    s.serveStalls.bus.data s.cfg.map op =
      match op with
      | .read a => s.peek a
      | .write _ v => v := by
  cases op with
  | read a => simp [Bus.data, State.memoryServes_target h.1, State.peek, State.serveStalls_mem_alone s h.2]
  | write a v => rfl

theorem State.memAfter_memory (h : s.memoryAnswers) (op : BusOp) :
    s.serveStalls.bus.memAfter s.cfg.map op =
      match op with
      | .read _ => s.bus.mem
      | .write a v => Memory.write s.bus.mem (cellOf s.cfg.map a) v := by
  cases op with
  | read a => simp [Bus.memAfter, State.serveStalls_mem_alone s h.2]
  | write a v => simp [Bus.memAfter, State.memoryServes_target h.1, State.serveStalls_mem_alone s h.2]

/-- The same for the whole cycle: no other agent stores in it. -/
theorem Row.cycle_mem_memory (r : Row) (h : s.memoryAnswers) :
    (r.cycle s).bus.mem =
      match r.bus s.cpu with
      | .read _ => s.bus.mem
      | .write a v => Memory.write s.bus.mem (cellOf s.cfg.map a) v := by
  rw [Row.cycle_mem, State.nextWrites_alone h.2, State.memAfter_memory h]
  rfl

end

/-! ## A run of cycles -/

@[simp] theorem perform_nil (s : State) : perform [] s = s := rfl

theorem perform_cons (r : Row) (rest : List Row) (s : State) :
    perform (r :: rest) s = if (r.cycle s).cpu.t = 1 then r.cycle s else perform rest (r.cycle s) := rfl

/-- What every row of a table keeps, the table keeps. -/
theorem perform_keeps {P : State → Prop} (rows : List Row) (s : State)
    (hr : ∀ r ∈ rows, ∀ u, P u → P (r.cycle u)) (h : P s) : P (perform rows s) := by
  induction rows generalizing s with
  | nil => exact h
  | cons r rest ih =>
    rw [perform_cons]
    have h' := hr r List.mem_cons_self s h
    split
    · exact h'
    · exact ih _ (fun r hr' => hr r (List.mem_cons_of_mem _ hr')) h'

@[simp] theorem perform_cfg (rows : List Row) (s : State) : (perform rows s).cfg = s.cfg :=
  perform_keeps (P := fun u => u.cfg = s.cfg) rows s (fun r _ u h => by simpa using h) rfl

theorem perform_wf (rows : List Row) (s : State) (h : Memory.wf s.bus.mem = true) :
    Memory.wf (perform rows s).bus.mem = true :=
  perform_keeps (P := fun u => Memory.wf u.bus.mem = true) rows s (fun r _ u h => r.cycle_wf u h) h

/-! ### Runs that store nothing -/

theorem State.writesNothing_refl (s : State) : s.writesNothing s := ⟨[], rfl, fun _ _ h => (nomatch h), rfl, fun _ => rfl⟩

theorem State.writesNothing_trans {s t u : State} (h : s.writesNothing t) (hc : t.cfg = s.cfg) (ha : s.alone → t.alone)
    (h' : t.writesNothing u) : s.writesNothing u := by
  obtain ⟨l, hl, hw, hm, hs⟩ := h
  obtain ⟨l', hl', hw', hm', hs'⟩ := h'
  refine ⟨l' ++ l, by rw [hl', hl, List.append_assoc], fun a v hv => ?_, by rw [replay_append, ← hm, hm', hc],
    fun h => (hs' (ha h)).trans (hs h)⟩
  rcases List.mem_append.1 hv with hv | hv
  · exact hw' a v hv
  · exact hw a v hv

/-- A table of reads stores nothing, in every environment. -/
theorem perform_writesNothing (rows : List Row) (s : State) (hr : ∀ r ∈ rows, ∀ c, ∃ a, r.bus c = .read a) :
    s.writesNothing (perform rows s) := by
  induction rows generalizing s with
  | nil => exact s.writesNothing_refl
  | cons r rest ih =>
    obtain ⟨a, ha⟩ := hr r List.mem_cons_self s.cpu
    have h := Row.cycle_writesNothing ha
    rw [perform_cons]
    split
    · exact h
    · exact State.writesNothing_trans h (r.cycle_cfg s) Row.cycle_alone
        (ih _ fun r hr' => hr r (List.mem_cons_of_mem _ hr'))

/-- Where memory answers, a run of cycles changes memory by the stores it leaves in the log (R50, R59). -/
theorem perform_replay (rows : List Row) {s : State} (h : s.memoryServes) :
    ∃ new, (perform rows s).bus.log = new ++ s.bus.log ∧ (perform rows s).bus.mem = replay s.cfg.map new s.bus.mem := by
  induction rows generalizing s with
  | nil => exact ⟨[], rfl, rfl⟩
  | cons r rest ih =>
    rw [perform_cons]
    split
    · exact ⟨r.cycleLog s, r.cycle_log s, r.cycle_replay h⟩
    · obtain ⟨new, hl, hm⟩ := ih (r.cycle_memoryServes h)
      refine ⟨new ++ r.cycleLog s, by rw [hl, Row.cycle_log, List.append_assoc], ?_⟩
      rw [replay_append, ← r.cycle_replay h, hm, Row.cycle_cfg]

/-- A row that is not the last: its cycle, then the rest. -/
theorem perform_next {r : Row} {rest : List Row} {s : State} (h : (r.cycle s).cpu.t ≠ 1) :
    perform (r :: rest) s = perform rest (r.cycle s) := by
  rw [perform_cons, if_neg h]

/-- The last row: its cycle. -/
theorem perform_last {r : Row} {rest : List Row} {s : State} (h : (r.cycle s).cpu.t = 1) :
    perform (r :: rest) s = r.cycle s := by
  rw [perform_cons, if_pos h]

/-! ### Nothing reads the log -/

/-- The state with an older log below its own: no cycle reads the log (log entry 18). -/
def State.under (s : State) (old : List BusCycle) : State := { s with bus := { s.bus with log := s.bus.log ++ old } }

section
variable (s : State) (old : List BusCycle)

@[simp] theorem State.under_cpu : (s.under old).cpu = s.cpu := rfl
@[simp] theorem State.under_irq : (s.under old).irq = s.irq := rfl
@[simp] theorem State.under_cfg : (s.under old).cfg = s.cfg := rfl
@[simp] theorem State.under_log : (s.under old).bus.log = s.bus.log ++ old := rfl

theorem State.stallCycle_under (i : Stall) : (s.under old).stallCycle i = (s.stallCycle i).under old := by
  simp [State.stallCycle, State.under]

theorem State.stalls_under (is : List Stall) :
    is.foldl State.stallCycle (s.under old) = (is.foldl State.stallCycle s).under old := by
  induction is generalizing s with
  | nil => rfl
  | cons i is ih => rw [List.foldl_cons, State.stallCycle_under, ih]; rfl

theorem State.serveStalls_under : (s.under old).serveStalls = s.serveStalls.under old := by
  cases h : s.bus.inputs with
  | nil => rw [State.serveStalls_quiet h, State.serveStalls_quiet (s := s.under old) h]
  | cons i rest =>
    rw [State.serveStalls_cons h, State.serveStalls_cons (s := s.under old) h, State.stalls_under]
    rfl

theorem State.boundary_under : (s.under old).boundary = s.boundary.under old := by
  unfold State.boundary State.under
  dsimp only
  split
  · rfl
  · split <;> rfl

theorem State.selectVector_under : (s.under old).selectVector = s.selectVector.under old := by
  unfold State.selectVector State.under
  dsimp only
  split
  · rfl
  all_goals split <;> rfl

theorem Row.active_under (r : Row) : r.active (s.under old) = (r.active s).under old := by
  have h : (s.under old).bus.transact s.cfg.map (r.bus s.cpu) =
      { s.bus.transact s.cfg.map (r.bus s.cpu) with log := (s.bus.transact s.cfg.map (r.bus s.cpu)).log ++ old } := by
    simp only [Bus.transact, State.under, List.append_assoc, List.cons_append]
    rfl
  have hd : (s.under old).bus.data s.cfg.map (r.bus s.cpu) = s.bus.data s.cfg.map (r.bus s.cpu) := rfl
  have hs (u : State) (l : Bool) :
      ({ (u.under old).selectVector with cpu := (u.under old).selectVector.cpu.advance l } : State) =
        State.under { u.selectVector with cpu := u.selectVector.cpu.advance l } old := by
    rw [State.selectVector_under]
    rfl
  let d := s.bus.data s.cfg.map (r.bus s.cpu)
  let b := s.bus.transact s.cfg.map (r.bus s.cpu)
  let i := if r.poll s.cfg (r.act d s.cpu) then (s.irq.sample b.lines).poll b.lines.irq (r.act d s.cpu).p.i
    else s.irq.sample b.lines
  unfold Row.active
  simp only [State.under_cpu, State.under_cfg, State.under_irq, h, hd]
  split
  · exact hs { s with cpu := r.act d s.cpu, irq := i, cyc := s.cyc + 1, bus := b } _
  · rfl

/-- A cycle does the same whatever stands in the log below. -/
theorem Row.cycle_under (r : Row) : r.cycle (s.under old) = (r.cycle s).under old := by
  rw [Row.cycle, State.serveStalls_under, Row.active_under, Row.cycle]

theorem perform_under (rows : List Row) : perform rows (s.under old) = (perform rows s).under old := by
  induction rows generalizing s with
  | nil => rfl
  | cons r rest ih =>
    rw [perform_cons, perform_cons, Row.cycle_under]
    split
    · rename_i h
      rw [if_pos (by simpa using h)]
    · rename_i h
      rw [if_neg (by simpa using h), ih]

end

end Sys2Proof.Machine
end

