-- ==== Sys2Proof/Laws/Values.lean ====
section
/-! SUPPORT. Where memory answers, what a cycle table does to registers and memory depends on registers and memory alone:
stalls and lines cannot change it. `valuesOf` computes it; `perform_values` says that the machine does that. -/

namespace Sys2Proof.Machine

/-- Registers and memory after one row, when memory answers. -/
def Row.values (r : Row) (map : AddressMap) (c : Cpu) (m : Memory) : Cpu × Memory :=
  match r.bus c with
  | .read a =>
    ((r.act (Memory.read m (cellOf map a)) c).advance (r.last (r.act (Memory.read m (cellOf map a)) c)), m)
  | .write a v => ((r.act v c).advance (r.last (r.act v c)), Memory.write m (cellOf map a) v)

/-- Registers and memory after a table, when memory answers. -/
def valuesOf (map : AddressMap) : List Row → Cpu → Memory → Cpu × Memory
  | [], c, m => (c, m)
  | r :: rest, c, m =>
    if (r.values map c m).1.t = 1 then r.values map c m
    else valuesOf map rest (r.values map c m).1 (r.values map c m).2

theorem Row.cycle_values (r : Row) {s : State} (hs : r.selects = false) (h : s.memoryAnswers) :
    (r.cycle s).cpu = (r.values s.cfg.map s.cpu s.bus.mem).1 ∧
      (r.cycle s).bus.mem = (r.values s.cfg.map s.cpu s.bus.mem).2 := by
  rw [Row.cycle_cpu_plain hs, r.cycle_mem_memory h]
  simp only [State.data_memory h, Row.values]
  cases r.bus s.cpu <;> exact ⟨rfl, rfl⟩

/-- Where memory answers, a table without vector selection does what `valuesOf` says, whatever the stalls and the lines. -/
theorem perform_values (rows : List Row) {s : State} (hr : ∀ r ∈ rows, r.selects = false) (h : s.memoryAnswers) :
    (perform rows s).cpu = (valuesOf s.cfg.map rows s.cpu s.bus.mem).1 ∧
      (perform rows s).bus.mem = (valuesOf s.cfg.map rows s.cpu s.bus.mem).2 := by
  induction rows generalizing s with
  | nil => exact ⟨rfl, rfl⟩
  | cons r rest ih =>
    have hc := r.cycle_values (hr r List.mem_cons_self) h
    rw [perform_cons, valuesOf, hc.1]
    split
    · exact hc
    · have := ih (s := r.cycle s) (fun r hr' => hr r (List.mem_cons_of_mem _ hr')) (r.cycle_memoryAnswers h)
      rw [hc.1, hc.2, Row.cycle_cfg] at this
      exact this

/-- What one row does on the bus, when memory answers. -/
def Row.traffic (r : Row) (map : AddressMap) (c : Cpu) (m : Memory) : BusCycle :=
  match r.bus c with
  | .read a => .read a (Memory.read m (cellOf map a))
  | .write a v => .write a v

/-- The active cycles of a table, newest first, when memory answers. -/
def trafficOf (map : AddressMap) : List Row → Cpu → Memory → List BusCycle
  | [], _, _ => []
  | r :: rest, c, m =>
    (if (r.values map c m).1.t = 1 then [] else trafficOf map rest (r.values map c m).1 (r.values map c m).2) ++
      [r.traffic map c m]

theorem Row.cycle_traffic (r : Row) {s : State} (h : s.memoryAnswers) :
    activeCycles (r.cycle s).bus.log = r.traffic s.cfg.map s.cpu s.bus.mem :: activeCycles s.bus.log := by
  rw [Row.cycle_active, State.data_memory h, Row.traffic]
  cases r.bus s.cpu <;> rfl

/-- Where memory answers, the transactions of a table are those of `trafficOf`, whatever the stalls and the lines. -/
theorem perform_traffic (rows : List Row) {s : State} (hr : ∀ r ∈ rows, r.selects = false) (h : s.memoryAnswers) :
    activeCycles (perform rows s).bus.log = trafficOf s.cfg.map rows s.cpu s.bus.mem ++ activeCycles s.bus.log := by
  induction rows generalizing s with
  | nil => rfl
  | cons r rest ih =>
    have hc := r.cycle_values (hr r List.mem_cons_self) h
    rw [perform_cons, trafficOf, hc.1]
    split
    · simp [r.cycle_traffic h]
    · have := ih (s := r.cycle s) (fun r hr' => hr r (List.mem_cons_of_mem _ hr')) (r.cycle_memoryAnswers h)
      rw [hc.1, hc.2, Row.cycle_cfg, r.cycle_traffic h] at this
      rw [this]
      simp

/-- The transactions of a table, oldest first, when memory answers. -/
def opsOf (map : AddressMap) : List Row → Cpu → Memory → List BusOp
  | [], _, _ => []
  | r :: rest, c, m =>
    r.bus c :: if (r.values map c m).1.t = 1 then [] else opsOf map rest (r.values map c m).1 (r.values map c m).2

theorem transactions_trafficOf (map : AddressMap) (rows : List Row) (c : Cpu) (m : Memory) :
    transactions (trafficOf map rows c m) = (opsOf map rows c m).reverse := by
  induction rows generalizing c m with
  | nil => rfl
  | cons r rest ih =>
    have hr : transactions [r.traffic map c m] = [r.bus c] := by
      unfold Row.traffic
      cases r.bus c <;> rfl
    rw [trafficOf, opsOf, transactions_append, hr, List.reverse_cons]
    split
    · rfl
    · rw [ih]

/-- Where memory answers, a table performs the transactions of `opsOf`, whatever the stalls and the lines. -/
theorem perform_performs (rows : List Row) {s : State} (hr : ∀ r ∈ rows, r.selects = false) (h : s.memoryAnswers) :
    s.performs (perform rows s) (opsOf s.cfg.map rows s.cpu s.bus.mem) := by
  rw [State.performs, ← transactions_trafficOf, ← transactions_activeCycles (perform rows s).bus.log,
    perform_traffic rows hr h, transactions_append, transactions_activeCycles]

/-- The registers as an instruction's first cycle finds them. -/
def Cpu.start (c : Cpu) : Cpu := { c with t := 1, seq := .instr }

/-- A whole instruction without vector selection, where memory answers. -/
theorem runInstr_values (rows : List Row) {s : State} (hr : ∀ r ∈ rows, r.selects = false) (h : s.memoryAnswers) :
    ∃ t, runInstr rows s = .next t ∧ t.cpu = (valuesOf s.cfg.map rows s.cpu.start s.bus.mem).1 ∧
      t.bus.mem = (valuesOf s.cfg.map rows s.cpu.start s.bus.mem).2 ∧ t.cfg = s.cfg ∧
      activeCycles t.bus.log = trafficOf s.cfg.map rows s.cpu.start s.bus.mem ++ activeCycles s.bus.log ∧
      s.performs t (opsOf s.cfg.map rows s.cpu.start s.bus.mem) := by
  refine ⟨_, rfl, ?_⟩
  have hv := perform_values rows (s := { s with cpu := s.cpu.start }) hr h
  exact ⟨hv.1, hv.2, perform_cfg _ _, perform_traffic rows (s := { s with cpu := s.cpu.start }) hr h,
    perform_performs rows (s := { s with cpu := s.cpu.start }) hr h⟩

/-! ## The tables -/

/-- The sequencing latches a table may leave behind. -/
def Cpu.scratch (c : Cpu) (pc : Word) (ir lo hi ptr dat : Byte) (ea : Word) (cross : Bool) (t : Nat) : Cpu :=
  { c with pc := pc, ir := ir, lo := lo, hi := hi, ptr := ptr, dat := dat, ea := ea, cross := cross, t := t }

/-- The two-cycle implied form. -/
theorem impliedRows_values (f : Cpu → Cpu) (map : AddressMap) (c : Cpu) (m : Memory) (ht : c.t = 1) :
    valuesOf map (impliedRows f) c m =
      ((f { c with ir := Memory.read m (cellOf map c.pc), pc := c.pc + 1, t := 2 }).advance true, m) := by
  simp [impliedRows, valuesOf, Row.values, opcodeRow, Cpu.advance, ht]

/-- The immediate form. -/
theorem immediateRows_values (v : Byte) (f : Byte → Cpu → Cpu) (map : AddressMap) (c : Cpu) (m : Memory) (ht : c.t = 1) :
    valuesOf map (immediateRows v f) c m =
      ((f v { c with ir := Memory.read m (cellOf map c.pc), pc := c.pc + 1 + 1, t := 2 }).advance true, m) := by
  simp [immediateRows, valuesOf, Row.values, opcodeRow, Cpu.advance, ht]

/-- `n` increments of the program counter, one at a time. -/
def stepPc : Nat → Word → Word
  | 0, pc => pc
  | n + 1, pc => stepPc n (pc + 1)

theorem stepPc_eq (n : Nat) (pc : Word) : stepPc n pc = pc + BitVec.ofNat 16 n := by
  induction n generalizing pc with
  | zero => simp [stepPc]
  | succ n ih =>
    rw [stepPc, ih, BitVec.add_assoc, Nat.add_comm n, BitVec.ofNat_add]
    rfl

/-- The read tables: the operand of R81 reaches `f`, the program counter stands after the instruction, the other
registers and the flags are as they were, memory is untouched. -/
theorem memReadRows_values (mo : MemOperand) (f : Byte → Cpu → Cpu) (map : AddressMap) (c : Cpu) (m : Memory)
    (ht : c.t = 1) (hf : ∀ d c, (f d c).cross = c.cross) :
    ∃ lo hi ptr cross t,
      valuesOf map (memReadRows mo f) c m =
        ((f (Memory.read m (cellOf map (addressOf mo c fun a => Memory.read m (cellOf map a))))
            (c.scratch (c.pc + BitVec.ofNat 16 mo.mode.length) (Memory.read m (cellOf map c.pc)) lo hi ptr c.dat c.ea cross t)).advance true, m) := by
  rw [← stepPc_eq]
  obtain ⟨a, x, y, s, pc, p, ir, t, seq, lo, hi, ptr, ea, dat, cross, vec, taken, fresh⟩ := c
  cases ht
  cases mo with
  | zp z => exact ⟨_, hi, ptr, cross, _, rfl⟩
  | zpx z => exact ⟨_, hi, ptr, cross, _, rfl⟩
  | zpy z => exact ⟨_, hi, ptr, cross, _, rfl⟩
  | abs w =>
    refine ⟨loByte w, hiByte w, ptr, cross, 4, ?_⟩
    simp [addressOf, memReadRows, valuesOf, Row.values, opcodeRow, loRow, hiRow, readRow, Cpu.hilo, Cpu.advance,
      Cpu.scratch, stepPc, MemOperand.mode, Mode.length]
  | absx w =>
    cases h : carries (loByte w) x
    · refine ⟨loByte w + x, hiByte w, ptr, false, 4, ?_⟩
      have e : w + x.setWidth 16 = join (hiByte w) (loByte w + x) := by
        rw [join_index_noCarry h, join_hi_lo]
      simp [addressOf, e, memReadRows, valuesOf, Row.values, opcodeRow, loRow, hiIndexRow, fixupOrReadRow, readRow,
        Cpu.indexLo, Cpu.hilo, Cpu.advance, h, hf, Cpu.scratch, stepPc, MemOperand.mode, Mode.length]
    · refine ⟨loByte w + x, hiByte w + 1, ptr, true, 5, ?_⟩
      have e : w + x.setWidth 16 = join (hiByte w + 1) (loByte w + x) := by
        rw [join_index_carry h, join_hi_lo]
      simp [addressOf, e, memReadRows, valuesOf, Row.values, opcodeRow, loRow, hiIndexRow, fixupOrReadRow, readRow,
        Cpu.indexLo, Cpu.fixHi, Cpu.hilo, Cpu.advance, h, hf, Cpu.scratch, stepPc, MemOperand.mode, Mode.length]
  | absy w =>
    cases h : carries (loByte w) y
    · refine ⟨loByte w + y, hiByte w, ptr, false, 4, ?_⟩
      have e : w + y.setWidth 16 = join (hiByte w) (loByte w + y) := by
        rw [join_index_noCarry h, join_hi_lo]
      simp [addressOf, e, memReadRows, valuesOf, Row.values, opcodeRow, loRow, hiIndexRow, fixupOrReadRow, readRow,
        Cpu.indexLo, Cpu.hilo, Cpu.advance, h, hf, Cpu.scratch, stepPc, MemOperand.mode, Mode.length]
    · refine ⟨loByte w + y, hiByte w + 1, ptr, true, 5, ?_⟩
      have e : w + y.setWidth 16 = join (hiByte w + 1) (loByte w + y) := by
        rw [join_index_carry h, join_hi_lo]
      simp [addressOf, e, memReadRows, valuesOf, Row.values, opcodeRow, loRow, hiIndexRow, fixupOrReadRow, readRow,
        Cpu.indexLo, Cpu.fixHi, Cpu.hilo, Cpu.advance, h, hf, Cpu.scratch, stepPc, MemOperand.mode, Mode.length]
  | indx z => exact ⟨_, _, z + x, cross, 6, rfl⟩
  | indy z =>
    cases h : carries (Memory.read m (cellOf map (zpAddr z))) y
    · refine ⟨Memory.read m (cellOf map (zpAddr z)) + y, Memory.read m (cellOf map (zpAddr (z + 1))), z, false, 5, ?_⟩
      simp [addressOf, ← join_index_noCarry h, memReadRows, valuesOf, Row.values, opcodeRow, ptrRow, ptrLoRow,
        ptrHiIndexRow, fixupOrReadRow, readRow, Cpu.indexLo, Cpu.hilo, Cpu.advance, h, hf, Cpu.scratch, stepPc,
        MemOperand.mode, Mode.length]
    · refine ⟨Memory.read m (cellOf map (zpAddr z)) + y, Memory.read m (cellOf map (zpAddr (z + 1))) + 1, z, true,
        6, ?_⟩
      simp [addressOf, ← join_index_carry h, memReadRows, valuesOf, Row.values, opcodeRow, ptrRow, ptrLoRow,
        ptrHiIndexRow, fixupOrReadRow, readRow, Cpu.indexLo, Cpu.fixHi, Cpu.hilo, Cpu.advance, h, hf, Cpu.scratch,
        stepPc, MemOperand.mode, Mode.length]

/-- The registers after the address rows of a store, and the rows' effect on the address. -/
theorem storeRows_values (mo : MemOperand) (v : Cpu → Byte) (map : AddressMap) (c : Cpu) (m : Memory) (ht : c.t = 1)
    (hv : ∀ c pc ir lo hi ptr dat ea cross t, v (Cpu.scratch c pc ir lo hi ptr dat ea cross t) = v c) :
    ∃ lo hi ptr cross t,
      valuesOf map (storeRows mo v) c m =
        ((c.scratch (c.pc + BitVec.ofNat 16 mo.mode.length) (Memory.read m (cellOf map c.pc)) lo hi ptr c.dat c.ea cross
            t).advance true,
          Memory.write m (cellOf map (addressOf mo c fun a => Memory.read m (cellOf map a))) (v c)) := by
  rw [← stepPc_eq]
  obtain ⟨a, x, y, s, pc, p, ir, t, seq, lo, hi, ptr, ea, dat, cross, vec, taken, fresh⟩ := c
  cases ht
  have hv' := fun pc' ir' lo' hi' ptr' cross' t' =>
    hv ⟨a, x, y, s, pc, p, ir, 1, seq, lo, hi, ptr, ea, dat, cross, vec, taken, fresh⟩ pc' ir' lo' hi' ptr' dat ea cross' t'
  simp only [Cpu.scratch] at hv'
  cases mo with
  | zp z =>
    refine ⟨z, hi, ptr, cross, 3, ?_⟩
    simp [storeRows, storeAddressRows, storeAddress, writeRow, addressOf, valuesOf, Row.values, opcodeRow, loRow,
      Cpu.zplo, Cpu.advance, Cpu.scratch, stepPc, MemOperand.mode, Mode.length, hv']
  | zpx z =>
    refine ⟨z + x, hi, ptr, cross, 4, ?_⟩
    simp [storeRows, storeAddressRows, storeAddress, writeRow, addressOf, valuesOf, Row.values, opcodeRow, loRow,
      zpIndexRow, Cpu.zplo, Cpu.advance, Cpu.scratch, stepPc, MemOperand.mode, Mode.length, hv']
  | zpy z =>
    refine ⟨z + y, hi, ptr, cross, 4, ?_⟩
    simp [storeRows, storeAddressRows, storeAddress, writeRow, addressOf, valuesOf, Row.values, opcodeRow, loRow,
      zpIndexRow, Cpu.zplo, Cpu.advance, Cpu.scratch, stepPc, MemOperand.mode, Mode.length, hv']
  | abs w =>
    refine ⟨loByte w, hiByte w, ptr, cross, 4, ?_⟩
    simp [storeRows, storeAddressRows, storeAddress, writeRow, addressOf, valuesOf, Row.values, opcodeRow, loRow,
      hiRow, Cpu.hilo, Cpu.advance, Cpu.scratch, stepPc, MemOperand.mode, Mode.length, hv']
  | absx w =>
    refine ⟨loByte w + x, if carries (loByte w) x then hiByte w + 1 else hiByte w, ptr, carries (loByte w) x, 5, ?_⟩
    have e := join_index (hiByte w) (loByte w) x
    rw [join_hi_lo] at e
    simp [storeRows, storeAddressRows, storeAddress, writeRow, addressOf, valuesOf, Row.values, opcodeRow, loRow,
      hiIndexRow, fixupRow, Cpu.indexLo, Cpu.fixHi, Cpu.hilo, Cpu.advance, Cpu.scratch, stepPc, MemOperand.mode,
      Mode.length, hv', ← e]
  | absy w =>
    refine ⟨loByte w + y, if carries (loByte w) y then hiByte w + 1 else hiByte w, ptr, carries (loByte w) y, 5, ?_⟩
    have e := join_index (hiByte w) (loByte w) y
    rw [join_hi_lo] at e
    simp [storeRows, storeAddressRows, storeAddress, writeRow, addressOf, valuesOf, Row.values, opcodeRow, loRow,
      hiIndexRow, fixupRow, Cpu.indexLo, Cpu.fixHi, Cpu.hilo, Cpu.advance, Cpu.scratch, stepPc, MemOperand.mode,
      Mode.length, hv', ← e]
  | indx z =>
    refine ⟨Memory.read m (cellOf map (zpAddr (z + x))), Memory.read m (cellOf map (zpAddr (z + x + 1))), z + x, cross,
      6, ?_⟩
    simp [storeRows, storeAddressRows, storeAddress, writeRow, addressOf, valuesOf, Row.values, opcodeRow, ptrRow,
      ptrIndexRow, ptrLoRow, ptrHiRow, Cpu.hilo, Cpu.advance, Cpu.scratch, stepPc, MemOperand.mode, Mode.length, hv']
  | indy z =>
    refine ⟨Memory.read m (cellOf map (zpAddr z)) + y,
      if carries (Memory.read m (cellOf map (zpAddr z))) y then Memory.read m (cellOf map (zpAddr (z + 1))) + 1
      else Memory.read m (cellOf map (zpAddr (z + 1))), z, carries (Memory.read m (cellOf map (zpAddr z))) y, 6, ?_⟩
    have e := join_index (Memory.read m (cellOf map (zpAddr (z + 1)))) (Memory.read m (cellOf map (zpAddr z))) y
    simp only [BitVec.ofNat_eq_ofNat] at e
    simp [storeRows, storeAddressRows, storeAddress, writeRow, addressOf, valuesOf, Row.values, opcodeRow, ptrRow,
      ptrLoRow, ptrHiIndexRow, fixupRow, Cpu.indexLo, Cpu.fixHi, Cpu.hilo, Cpu.advance, Cpu.scratch, stepPc,
      MemOperand.mode, Mode.length, hv', ← e]

/-- The read-modify-write tables: `dat` and `ea` reach the modify function, the target receives the unmodified byte and
then the modified one. -/
theorem rmwRows_values (mo : MemOperand) (f : Cpu → Byte) (ex : Cpu → Cpu) (map : AddressMap) (c : Cpu) (m : Memory)
    (ht : c.t = 1) :
    ∃ lo hi ptr cross t,
      let ea := addressOf mo c fun a => Memory.read m (cellOf map a)
      let dat := Memory.read m (cellOf map ea)
      let c' := c.scratch (c.pc + BitVec.ofNat 16 mo.mode.length) (Memory.read m (cellOf map c.pc)) lo hi ptr dat ea
        cross t
      valuesOf map (rmwRows mo f ex) c m =
        ((ex c').advance true, Memory.write (Memory.write m (cellOf map ea) dat) (cellOf map ea) (f c')) := by
  rw [← stepPc_eq]
  obtain ⟨a, x, y, s, pc, p, ir, t, seq, lo, hi, ptr, ea, dat, cross, vec, taken, fresh⟩ := c
  cases ht
  cases mo with
  | zp z => exact ⟨_, hi, ptr, cross, _, rfl⟩
  | zpx z => exact ⟨_, hi, ptr, cross, _, rfl⟩
  | zpy z => exact ⟨_, hi, ptr, cross, _, rfl⟩
  | abs w =>
    refine ⟨loByte w, hiByte w, ptr, cross, 6, ?_⟩
    simp [rmwRows, rmwAddressRows, rmwTail, Row.also, addressOf, valuesOf, Row.values, opcodeRow, loRow, hiRow,
      Cpu.eaHilo, Cpu.hilo, Cpu.advance, Cpu.scratch, stepPc, MemOperand.mode, Mode.length]
  | absx w =>
    refine ⟨loByte w + x, if carries (loByte w) x then hiByte w + 1 else hiByte w, ptr, carries (loByte w) x, 7, ?_⟩
    have e := join_index (hiByte w) (loByte w) x
    rw [join_hi_lo] at e
    simp [rmwRows, rmwAddressRows, rmwTail, Row.also, addressOf, valuesOf, Row.values, opcodeRow, loRow, hiIndexRow,
      fixupRow, Cpu.indexLo, Cpu.fixHi, Cpu.eaHilo, Cpu.hilo, Cpu.advance, Cpu.scratch, stepPc, MemOperand.mode,
      Mode.length, ← e]
  | absy w =>
    refine ⟨loByte w + y, if carries (loByte w) y then hiByte w + 1 else hiByte w, ptr, carries (loByte w) y, 7, ?_⟩
    have e := join_index (hiByte w) (loByte w) y
    rw [join_hi_lo] at e
    simp [rmwRows, rmwAddressRows, rmwTail, Row.also, addressOf, valuesOf, Row.values, opcodeRow, loRow, hiIndexRow,
      fixupRow, Cpu.indexLo, Cpu.fixHi, Cpu.eaHilo, Cpu.hilo, Cpu.advance, Cpu.scratch, stepPc, MemOperand.mode,
      Mode.length, ← e]
  | indx z => exact ⟨_, _, z + x, cross, 8, rfl⟩
  | indy z =>
    refine ⟨Memory.read m (cellOf map (zpAddr z)) + y,
      if carries (Memory.read m (cellOf map (zpAddr z))) y then Memory.read m (cellOf map (zpAddr (z + 1))) + 1
      else Memory.read m (cellOf map (zpAddr (z + 1))), z, carries (Memory.read m (cellOf map (zpAddr z))) y, 8, ?_⟩
    have e := join_index (Memory.read m (cellOf map (zpAddr (z + 1)))) (Memory.read m (cellOf map (zpAddr z))) y
    simp only [BitVec.ofNat_eq_ofNat] at e
    simp [rmwRows, rmwAddressRows, rmwTail, Row.also, addressOf, valuesOf, Row.values, opcodeRow, ptrRow, ptrLoRow,
      ptrHiIndexRow, fixupRow, Cpu.indexLo, Cpu.fixHi, Cpu.eaHilo, Cpu.hilo, Cpu.advance, Cpu.scratch, stepPc,
      MemOperand.mode, Mode.length, ← e]

/-! ## The transactions of the tables -/

/-- A page is crossed by an indexed form exactly when the low bytes carry. -/
theorem pageCross_absx (w : Word) (c : Cpu) (rd : Word → Byte) : pageCross (.absx w) c rd = carries (loByte w) c.x := by
  have h := hiByte_index_ne (hiByte w) (loByte w) c.x
  rwa [join_hi_lo] at h

theorem pageCross_absy (w : Word) (c : Cpu) (rd : Word → Byte) : pageCross (.absy w) c rd = carries (loByte w) c.y := by
  have h := hiByte_index_ne (hiByte w) (loByte w) c.y
  rwa [join_hi_lo] at h

theorem pageCross_indy (z : Byte) (c : Cpu) (rd : Word → Byte) :
    pageCross (.indy z) c rd = carries (rd (zpAddr z)) c.y := by
  have h := hiByte_index_ne (rd (zpAddr (z + 1))) (rd (zpAddr z)) c.y
  simpa [pageCross, addressOf, baseOf] using h

/-- The read tables perform the reads of `leadIn` and the read of the operand. -/
theorem memReadRows_ops (mo : MemOperand) (f : Byte → Cpu → Cpu) (map : AddressMap) (c : Cpu) (m : Memory)
    (ht : c.t = 1) (hf : ∀ d c, (f d c).cross = c.cross) :
    opsOf map (memReadRows mo f) c m =
      leadIn false mo c (fun a => Memory.read m (cellOf map a)) ++
        [.read (addressOf mo c fun a => Memory.read m (cellOf map a))] := by
  obtain ⟨a, x, y, s, pc, p, ir, t, seq, lo, hi, ptr, ea, dat, cross, vec, taken, fresh⟩ := c
  cases ht
  have e2 : pc + 1#16 + 1#16 = pc + 2#16 := by rw [BitVec.add_assoc]; rfl
  cases mo with
  | zp z | zpx z | zpy z | indx z => rfl
  | abs w =>
    simp [addressOf, memReadRows, opsOf, leadIn, Row.values, opcodeRow, loRow, hiRow, readRow, Cpu.hilo,
      Cpu.advance, e2]
  | absx w =>
    have e := join_index (hiByte w) (loByte w) x
    rw [join_hi_lo] at e
    cases h : carries (loByte w) x <;> simp only [h, Bool.false_eq_true, if_false, if_true] at e <;>
    simp [leadIn, pageCross_absx, preFixup, baseOf, addressOf, ← e, memReadRows, opsOf, Row.values, opcodeRow,
      loRow, hiIndexRow, fixupOrReadRow, readRow,
        Cpu.indexLo, Cpu.fixHi, Cpu.hilo, Cpu.advance, h, hf, e2]
  | absy w =>
    have e := join_index (hiByte w) (loByte w) y
    rw [join_hi_lo] at e
    cases h : carries (loByte w) y <;> simp only [h, Bool.false_eq_true, if_false, if_true] at e <;>
    simp [leadIn, pageCross_absy, preFixup, baseOf, addressOf, ← e, memReadRows, opsOf, Row.values, opcodeRow,
      loRow, hiIndexRow, fixupOrReadRow, readRow,
        Cpu.indexLo, Cpu.fixHi, Cpu.hilo, Cpu.advance, h, hf, e2]
  | indy z =>
    have e := join_index (Memory.read m (cellOf map (zpAddr (z + 1)))) (Memory.read m (cellOf map (zpAddr z))) y
    cases h : carries (Memory.read m (cellOf map (zpAddr z))) y <;> simp only [h, Bool.false_eq_true, if_false,
      if_true, BitVec.ofNat_eq_ofNat] at e <;>
    simp [leadIn, pageCross_indy, preFixup, baseOf, addressOf, ← e, memReadRows, opsOf, Row.values, opcodeRow,
      ptrRow, ptrLoRow,
        ptrHiIndexRow, fixupOrReadRow, readRow,
        Cpu.indexLo, Cpu.fixHi, Cpu.hilo, Cpu.advance, h, hf]

/-- The write tables. -/
theorem storeRows_ops (mo : MemOperand) (v : Cpu → Byte) (map : AddressMap) (c : Cpu) (m : Memory) (ht : c.t = 1)
    (hv : ∀ c pc ir lo hi ptr dat ea cross t, v (Cpu.scratch c pc ir lo hi ptr dat ea cross t) = v c) :
    opsOf map (storeRows mo v) c m =
      leadIn true mo c (fun a => Memory.read m (cellOf map a)) ++
        [.write (addressOf mo c fun a => Memory.read m (cellOf map a)) (v c)] := by
  obtain ⟨a, x, y, s, pc, p, ir, t, seq, lo, hi, ptr, ea, dat, cross, vec, taken, fresh⟩ := c
  cases ht
  have e2 : pc + 1#16 + 1#16 = pc + 2#16 := by rw [BitVec.add_assoc]; rfl
  have hv' := fun pc' ir' lo' hi' ptr' cross' t' =>
    hv ⟨a, x, y, s, pc, p, ir, 1, seq, lo, hi, ptr, ea, dat, cross, vec, taken, fresh⟩ pc' ir' lo' hi' ptr' dat ea
      cross' t'
  simp only [Cpu.scratch] at hv'
  cases mo with
  | zp z | zpx z | zpy z | abs w | indx z =>
    simp [addressOf, storeRows, storeAddressRows, storeAddress, writeRow, opsOf, leadIn, Row.values, opcodeRow, loRow,
      hiRow, zpIndexRow, ptrRow, ptrIndexRow, ptrLoRow, ptrHiRow, Cpu.zplo, Cpu.hilo, Cpu.advance, e2, hv']
  | absx w =>
    have e := join_index (hiByte w) (loByte w) x
    rw [join_hi_lo] at e
    simp [addressOf, storeRows, storeAddressRows, storeAddress, writeRow, opsOf, leadIn, Row.values, opcodeRow, loRow,
      hiIndexRow, fixupRow, Cpu.indexLo, Cpu.fixHi, Cpu.hilo, Cpu.advance, preFixup, baseOf, e2, hv', ← e]
  | absy w =>
    have e := join_index (hiByte w) (loByte w) y
    rw [join_hi_lo] at e
    simp [addressOf, storeRows, storeAddressRows, storeAddress, writeRow, opsOf, leadIn, Row.values, opcodeRow, loRow,
      hiIndexRow, fixupRow, Cpu.indexLo, Cpu.fixHi, Cpu.hilo, Cpu.advance, preFixup, baseOf, e2, hv', ← e]
  | indy z =>
    have e := join_index (Memory.read m (cellOf map (zpAddr (z + 1)))) (Memory.read m (cellOf map (zpAddr z))) y
    simp only [BitVec.ofNat_eq_ofNat] at e
    simp [addressOf, storeRows, storeAddressRows, storeAddress, writeRow, opsOf, leadIn, Row.values, opcodeRow,
      ptrRow,
      ptrLoRow, ptrHiIndexRow, fixupRow, Cpu.indexLo, Cpu.fixHi, Cpu.hilo, Cpu.advance, preFixup, baseOf, hv', ← e]

/-- The read-modify-write tables: the read, the dummy write of the byte read, the write of what `f` makes of it. -/
theorem rmwRows_ops (mo : MemOperand) (f : Cpu → Byte) (ex : Cpu → Cpu) (map : AddressMap) (c : Cpu) (m : Memory)
    (ht : c.t = 1) (hf : ∀ c pc ir lo hi ptr dat ea cross t, f (Cpu.scratch c pc ir lo hi ptr dat ea cross t) = f {
      c with dat := dat }) :
    let rd := fun a => Memory.read m (cellOf map a)
    opsOf map (rmwRows mo f ex) c m =
      leadIn true mo c rd ++
        [.read (addressOf mo c rd), .write (addressOf mo c rd) (rd (addressOf mo c rd)),
          .write (addressOf mo c rd) (f { c with dat := rd (addressOf mo c rd) })] := by
  obtain ⟨a, x, y, s, pc, p, ir, t, seq, lo, hi, ptr, ea, dat, cross, vec, taken, fresh⟩ := c
  cases ht
  have e2 : pc + 1#16 + 1#16 = pc + 2#16 := by rw [BitVec.add_assoc]; rfl
  have hf' := fun pc' ir' lo' hi' ptr' dat' ea' cross' t' =>
    hf ⟨a, x, y, s, pc, p, ir, 1, seq, lo, hi, ptr, ea, dat, cross, vec, taken, fresh⟩ pc' ir' lo' hi' ptr' dat'
      ea' cross' t'
  simp only [Cpu.scratch] at hf'
  cases mo with
  | zp z | zpx z | zpy z | abs w | indx z =>
    simp [addressOf, rmwRows, rmwAddressRows, rmwTail, Row.also, opsOf, leadIn, Row.values, opcodeRow, loRow, hiRow,
      zpIndexEaRow, ptrRow, ptrIndexRow, ptrLoRow, ptrHiRow, Cpu.eaZp, Cpu.eaHilo, Cpu.hilo, Cpu.advance, e2, hf']
  | absx w =>
    have e := join_index (hiByte w) (loByte w) x
    rw [join_hi_lo] at e
    simp [addressOf, rmwRows, rmwAddressRows, rmwTail, Row.also, opsOf, leadIn, Row.values, opcodeRow, loRow,
      hiIndexRow,
      fixupRow, Cpu.indexLo, Cpu.fixHi, Cpu.eaHilo, Cpu.hilo, Cpu.advance, preFixup, baseOf, e2, hf', ← e]
  | absy w =>
    have e := join_index (hiByte w) (loByte w) y
    rw [join_hi_lo] at e
    simp [addressOf, rmwRows, rmwAddressRows, rmwTail, Row.also, opsOf, leadIn, Row.values, opcodeRow, loRow,
      hiIndexRow,
      fixupRow, Cpu.indexLo, Cpu.fixHi, Cpu.eaHilo, Cpu.hilo, Cpu.advance, preFixup, baseOf, e2, hf', ← e]
  | indy z =>
    have e := join_index (Memory.read m (cellOf map (zpAddr (z + 1)))) (Memory.read m (cellOf map (zpAddr z))) y
    simp only [BitVec.ofNat_eq_ofNat] at e
    simp [addressOf, rmwRows, rmwAddressRows, rmwTail, Row.also, opsOf, leadIn, Row.values, opcodeRow, ptrRow,
      ptrLoRow,
      ptrHiIndexRow, fixupRow, Cpu.indexLo, Cpu.fixHi, Cpu.eaHilo, Cpu.hilo, Cpu.advance, preFixup, baseOf, hf', ← e]

/-! ## The forms whose result needs no memory -/

/-- The two-cycle implied form in every environment: two reads at `PC`, `f` applied, nothing stored. -/
theorem impliedInstr (f : Cpu → Cpu) (s : State) :
    ∃ t ir d, runInstr (impliedRows f) s = .next t ∧
      t.cpu = (f { s.cpu.start with ir := ir, pc := s.cpu.pc + 1, t := 2 }).advance true ∧
      s.writesNothing t ∧ t.cfg = s.cfg ∧ s.performs t [.read s.cpu.pc, .read (s.cpu.pc + 1)] ∧
      activeCycles t.bus.log = .read (s.cpu.pc + 1) d :: .read s.cpu.pc ir :: activeCycles s.bus.log := by
  have h1 := Row.cycle_cpu_plain (r := opcodeRow true) (s := { s with cpu := s.cpu.start }) rfl
  let u : State := { s with cpu := s.cpu.start }
  refine ⟨_, u.serveStalls.bus.data s.cfg.map (.read s.cpu.pc),
    (Row.cycle (opcodeRow true) u).serveStalls.bus.data s.cfg.map (.read (s.cpu.pc + 1)), rfl, ?_⟩
  have e : perform (impliedRows f) { s with cpu := s.cpu.start } =
      Row.cycle { bus := fun c => .read c.pc, act := fun _ c => f c, last := fun _ => true }
        (Row.cycle (opcodeRow true) { s with cpu := s.cpu.start }) := by
    rw [impliedRows, perform_next, perform_last]
    · rw [Row.cycle_cpu_plain rfl]; rfl
    · rw [h1]; exact (by decide : (2 : Nat) ≠ 1)
  have hw : s.writesNothing (perform (impliedRows f) { s with cpu := s.cpu.start }) :=
    perform_writesNothing (impliedRows f) { s with cpu := s.cpu.start } (by simp [impliedRows, opcodeRow])
  rw [show ({ s with cpu := { s.cpu with t := 1, seq := .instr } } : State) = { s with cpu := s.cpu.start } from rfl]
  rw [e] at hw ⊢
  rw [Row.cycle_cpu_plain rfl, h1, Row.cycle_cfg, Row.cycle_cfg,
    Row.cycle_active, Row.cycle_active, h1, Row.cycle_cfg]
  exact ⟨rfl, hw, rfl, by rw [State.performs, Row.cycle_transactions, Row.cycle_transactions, h1]; rfl, rfl⟩

/-- The immediate form in every environment. -/
theorem immediateInstr (v : Byte) (f : Byte → Cpu → Cpu) (s : State) :
    ∃ t ir d, runInstr (immediateRows v f) s = .next t ∧
      t.cpu = (f v { s.cpu.start with ir := ir, pc := s.cpu.pc + 2, t := 2 }).advance true ∧
      s.writesNothing t ∧ t.cfg = s.cfg ∧ s.performs t [.read s.cpu.pc, .read (s.cpu.pc + 1)] ∧
      activeCycles t.bus.log = .read (s.cpu.pc + 1) d :: .read s.cpu.pc ir :: activeCycles s.bus.log := by
  have h1 := Row.cycle_cpu_plain (r := opcodeRow true) (s := { s with cpu := s.cpu.start }) rfl
  have e2 : s.cpu.pc + 2 = s.cpu.pc + 1 + 1 := by rw [BitVec.add_assoc]; rfl
  let u : State := { s with cpu := s.cpu.start }
  refine ⟨_, u.serveStalls.bus.data s.cfg.map (.read s.cpu.pc),
    (Row.cycle (opcodeRow true) u).serveStalls.bus.data s.cfg.map (.read (s.cpu.pc + 1)), rfl, ?_⟩
  have e : perform (immediateRows v f) { s with cpu := s.cpu.start } =
      Row.cycle { bus := fun c => .read c.pc, act := fun _ c => f v { c with pc := c.pc + 1 }, last := fun _ => true }
        (Row.cycle (opcodeRow true) { s with cpu := s.cpu.start }) := by
    rw [immediateRows, perform_next, perform_last]
    · rw [Row.cycle_cpu_plain rfl]; rfl
    · rw [h1]; exact (by decide : (2 : Nat) ≠ 1)
  have hw : s.writesNothing (perform (immediateRows v f) { s with cpu := s.cpu.start }) :=
    perform_writesNothing (immediateRows v f) { s with cpu := s.cpu.start } (by simp [immediateRows, opcodeRow])
  rw [show ({ s with cpu := { s.cpu with t := 1, seq := .instr } } : State) = { s with cpu := s.cpu.start } from rfl]
  rw [e] at hw ⊢
  rw [Row.cycle_cpu_plain rfl, h1, Row.cycle_cfg, Row.cycle_cfg,
    Row.cycle_active, Row.cycle_active, h1, e2, Row.cycle_cfg]
  exact ⟨rfl, hw, rfl, by rw [State.performs, Row.cycle_transactions, Row.cycle_transactions, h1]; rfl, rfl⟩

/-! ## No table but an interrupt sequence's selects a vector -/

theorem selects_memReadRows (mo : MemOperand) (f : Byte → Cpu → Cpu) : ∀ r ∈ memReadRows mo f, r.selects = false := by
  cases mo <;> simp [memReadRows, opcodeRow, loRow, hiRow, readRow, zpIndexRow, hiIndexRow, fixupOrReadRow, ptrRow,
    ptrIndexRow, ptrLoRow, ptrHiRow, ptrHiIndexRow]

theorem selects_readRows (m : ReadOperand) (f : Byte → Cpu → Cpu) : ∀ r ∈ readRows m f, r.selects = false := by
  cases m with
  | imm v => simp [readRows, immediateRows, opcodeRow]
  | mem mo => exact selects_memReadRows mo f

theorem selects_storeAddressRows (mo : MemOperand) : ∀ r ∈ storeAddressRows mo, r.selects = false := by
  cases mo <;> simp [storeAddressRows, opcodeRow, loRow, hiRow, zpIndexRow, hiIndexRow, fixupRow, ptrRow, ptrIndexRow,
    ptrLoRow, ptrHiRow, ptrHiIndexRow]

theorem selects_storeRows (mo : MemOperand) (v : Cpu → Byte) : ∀ r ∈ storeRows mo v, r.selects = false := by
  intro r hr
  rcases List.mem_append.1 hr with hr | hr
  · exact selects_storeAddressRows mo r hr
  · rw [List.mem_singleton.1 hr, writeRow]

theorem selects_rmwAddressRows (mo : MemOperand) : ∀ r ∈ rmwAddressRows mo, r.selects = false := by
  cases mo <;> simp [rmwAddressRows, opcodeRow, loRow, hiRow, zpIndexEaRow, hiIndexRow, fixupRow, ptrRow, ptrIndexRow,
    ptrLoRow, ptrHiRow, ptrHiIndexRow, Row.also]

theorem selects_rmwRows (mo : MemOperand) (f : Cpu → Byte) (ex : Cpu → Cpu) :
    ∀ r ∈ rmwRows mo f ex, r.selects = false :=
  List.forall_mem_append.2 ⟨selects_rmwAddressRows mo, by simp [rmwTail]⟩

theorem selects_impliedRows (f : Cpu → Cpu) : ∀ r ∈ impliedRows f, r.selects = false := by
  simp [impliedRows, opcodeRow]

theorem selects_immediateRows (v : Byte) (f : Byte → Cpu → Cpu) : ∀ r ∈ immediateRows v f, r.selects = false := by
  simp [immediateRows, opcodeRow]

/-- The read instructions, where memory answers: the operand byte reaches `f`; the transactions are those of the form. -/
theorem readInstr_values (m : ReadOperand) (f : Byte → Cpu → Cpu) {s : State} (h : s.memoryAnswers)
    (hf : ∀ d c, (f d c).cross = c.cross) :
    ∃ t lo hi ptr cross n, runInstr (readRows m f) s = .next t ∧
      t.cpu = (f (s.operand m) (s.cpu.start.scratch (s.cpu.pc + BitVec.ofNat 16 m.mode.length) (s.peek s.cpu.pc) lo hi ptr
        s.cpu.dat s.cpu.ea cross n)).advance true ∧
      t.bus.mem = s.bus.mem ∧ t.cfg = s.cfg ∧ s.performs t (s.readOps m) := by
  obtain ⟨t, ht, hc, hm, hg, -, ho⟩ := runInstr_values (readRows m f) (selects_readRows m f) h
  cases m with
  | imm v =>
    rw [readRows, immediateRows_values v f _ _ _ rfl] at hc hm
    refine ⟨t, s.cpu.lo, s.cpu.hi, s.cpu.ptr, s.cpu.cross, 2, ht, hc.trans ?_, hm, hg, ho⟩
    have e := stepPc_eq 2 s.cpu.pc
    simp only [stepPc] at e
    simp only [Cpu.start, e]
    rfl
  | mem mo =>
    obtain ⟨lo, hi, ptr, cross, n, e⟩ := memReadRows_values mo f s.cfg.map s.cpu.start s.bus.mem rfl hf
    rw [readRows, e] at hc hm
    rw [readRows, memReadRows_ops mo f s.cfg.map s.cpu.start s.bus.mem rfl hf] at ho
    exact ⟨t, lo, hi, ptr, cross, n, ht, hc, hm, hg, by cases mo <;> exact ho⟩

/-- The stores, where memory answers: the byte goes to the effective address, in the last cycle. -/
theorem storeInstr_values (mo : MemOperand) (v : Cpu → Byte) {s : State} (h : s.memoryAnswers)
    (hv : ∀ c pc ir lo hi ptr dat ea cross t, v (Cpu.scratch c pc ir lo hi ptr dat ea cross t) = v c) :
    ∃ t lo hi ptr cross n, runInstr (storeRows mo v) s = .next t ∧
      t.cpu = (s.cpu.start.scratch (s.cpu.pc + BitVec.ofNat 16 mo.mode.length) (s.peek s.cpu.pc) lo hi ptr s.cpu.dat
        s.cpu.ea cross n).advance true ∧
      t.bus.mem = Memory.write s.bus.mem (cellOf s.cfg.map (s.address mo)) (v s.cpu.start) ∧ t.cfg = s.cfg ∧
      s.performs t (s.storeOps mo (v s.cpu.start)) := by
  obtain ⟨t, ht, hc, hm, hg, -, ho⟩ := runInstr_values (storeRows mo v) (selects_storeRows mo v) h
  obtain ⟨lo, hi, ptr, cross, n, e⟩ := storeRows_values mo v s.cfg.map s.cpu.start s.bus.mem rfl hv
  rw [e] at hc hm
  rw [storeRows_ops mo v s.cfg.map s.cpu.start s.bus.mem rfl hv] at ho
  exact ⟨t, lo, hi, ptr, cross, n, ht, hc, hm, hg, by cases mo <;> exact ho⟩

/-- The read-modify-writes, where memory answers. -/
theorem rmwInstr_values (mo : MemOperand) (f : Cpu → Byte) (ex : Cpu → Cpu) {s : State} (h : s.memoryAnswers)
    (hf : ∀ c pc ir lo hi ptr dat ea cross t, f (Cpu.scratch c pc ir lo hi ptr dat ea cross t) = f { c with dat := dat }) :
    ∃ t lo hi ptr cross n, runInstr (rmwRows mo f ex) s = .next t ∧
      let c' := s.cpu.start.scratch (s.cpu.pc + BitVec.ofNat 16 mo.mode.length) (s.peek s.cpu.pc) lo hi ptr
        (s.operand (.mem mo)) (s.address mo) cross n
      t.cpu = (ex c').advance true ∧
      t.bus.mem = Memory.write
        (Memory.write s.bus.mem (cellOf s.cfg.map (s.address mo)) (s.operand (.mem mo)))
        (cellOf s.cfg.map (s.address mo)) (f c') ∧ t.cfg = s.cfg ∧
      s.performs t (s.rmwOps mo (f { s.cpu.start with dat := s.operand (.mem mo) })) := by
  obtain ⟨t, ht, hc, hm, hg, -, ho⟩ := runInstr_values (rmwRows mo f ex) (selects_rmwRows mo f ex) h
  obtain ⟨lo, hi, ptr, cross, n, e⟩ := rmwRows_values mo f ex s.cfg.map s.cpu.start s.bus.mem rfl
  simp only at e
  rw [e] at hc hm
  have eo := rmwRows_ops mo f ex s.cfg.map s.cpu.start s.bus.mem rfl hf
  simp only at eo
  rw [eo] at ho
  exact ⟨t, lo, hi, ptr, cross, n, ht, hc, hm, hg, by cases mo <;> exact ho⟩

end Sys2Proof.Machine
end

