-- ==== Sys2Proof/Laws/Exec.lean ====
section
/-! SUPPORT. Every meaning runs its cycle table, and what all tables have in common: no row moves `T` or `seq` by itself,
and the last row is marked `end`; so every run of a table ends at an instruction boundary. -/

namespace Sys2Proof.Machine

/-! ## Meanings and tables -/

/-- An admitted instruction's meaning runs its table. -/
theorem exec_admitted {i : Instr} (h : isUnlisted i = false) (s : State) : exec i s = runInstr (rowsOf i) s := by
  cases i <;> first | rfl | (simp [isUnlisted] at h)

/-- Whatever completes has run its table. -/
theorem exec_next {i : Instr} {s t : State} (h : exec i s = .next t) :
    t = perform (rowsOf i) { s with cpu := s.cpu.start } := by
  cases hu : isUnlisted i with
  | false =>
    rw [exec_admitted hu] at h
    exact (Host.Outcome.next.inj h).symm
  | true =>
    cases i <;> simp [isUnlisted] at hu
    case kil k =>
      simp only [exec, execKil] at h
      split at h <;> cases h
    all_goals
      simp only [exec, execXaa, execLxa, execUsbc, execAhxIndy, execAhxAbsy, execShy, execShx, execTas, execLas,
        unlisted] at h
      split at h
      · cases h
      · exact (Host.Outcome.next.inj h).symm

/-- Nothing that completes is a KIL. -/
theorem exec_next_notKil {i : Instr} {s t : State} (h : exec i s = .next t) (k : Fin 12) : i ≠ .kil k := by
  rintro rfl
  simp only [exec, execKil] at h
  split at h <;> cases h

/-! ## What all rows have in common -/

/-- The row's `then` column leaves `T` and `seq` to the advance. -/
def Row.steady (r : Row) : Prop := ∀ d c, (r.act d c).t = c.t ∧ (r.act d c).seq = c.seq

/-- Steady rows, the last of them marked `end`: a cycle table. -/
def tableLike (rows : List Row) : Prop := ∃ init r, rows = init ++ [r] ∧ (∀ q ∈ init ++ [r], q.steady) ∧ ∀ c, r.last c = true

theorem Row.cycle_t {r : Row} (h : r.steady) (s : State) :
    (r.cycle s).cpu.t = if r.last (r.act (s.serveStalls.bus.data s.cfg.map (r.bus s.cpu)) s.cpu) then 1
      else s.cpu.t + 1 := by
  rw [Row.cycle_cpu]
  simp [(h _ _).1]

theorem Row.cycle_seq {r : Row} (h : r.steady) (s : State) :
    (r.cycle s).cpu.seq = if r.last (r.act (s.serveStalls.bus.data s.cfg.map (r.bus s.cpu)) s.cpu) then .instr
      else s.cpu.seq := by
  rw [Row.cycle_cpu]
  simp [(h _ _).2]

/-- A table, from any cycle on, ends at an instruction boundary. -/
theorem perform_boundary {rows : List Row} {s : State} (h : tableLike rows) (hs : 1 ≤ s.cpu.t) :
    (perform rows s).atBoundary := by
  obtain ⟨init, r, rfl, hr, hl⟩ := h
  induction init generalizing s with
  | nil =>
    have h1 := (r.cycle_t (hr r (by simp)) s).trans (if_pos (hl _))
    have h2 := (r.cycle_seq (hr r (by simp)) s).trans (if_pos (hl _))
    rw [List.nil_append, perform_last h1]
    exact ⟨h1, h2⟩
  | cons q init ih =>
    have hq := hr q (by simp)
    rw [List.cons_append, perform_cons]
    split
    · rename_i h1
      refine ⟨h1, ?_⟩
      rw [q.cycle_t hq] at h1
      rw [q.cycle_seq hq]
      split at h1
      · rename_i hlast
        rw [if_pos hlast]
      · omega
    · refine ih ?_ fun q' hq' => hr q' (List.mem_cons_of_mem _ hq')
      rw [q.cycle_t hq]
      split <;> omega

/-- A suffix of a table is a table. -/
theorem tableLike_drop {rows : List Row} (h : tableLike rows) (n : Nat) (hn : n < rows.length) :
    tableLike (rows.drop n) := by
  obtain ⟨init, r, rfl, hr, hl⟩ := h
  rw [List.length_append, List.length_singleton] at hn
  refine ⟨init.drop n, r, List.drop_append_of_le_length (by omega), fun q hq => hr q ?_, hl⟩
  rcases List.mem_append.1 hq with hq | hq
  · exact List.mem_append_left _ (List.mem_of_mem_drop hq)
  · exact List.mem_append_right _ hq

/-! ## Every table is one -/

theorem tableLike_cons {q : Row} {rows : List Row} (hq : q.steady) (h : tableLike rows) : tableLike (q :: rows) := by
  obtain ⟨init, r, rfl, hr, hl⟩ := h
  exact ⟨q :: init, r, rfl, List.forall_mem_cons.2 ⟨hq, hr⟩, hl⟩

theorem tableLike_last {r : Row} (hr : r.steady) (hl : ∀ c, r.last c = true) : tableLike [r] :=
  ⟨[], r, rfl, by simpa using hr, hl⟩

theorem tableLike_append {front rows : List Row} (hf : ∀ q ∈ front, q.steady) (h : tableLike rows) :
    tableLike (front ++ rows) := by
  induction front with
  | nil => exact h
  | cons q front ih =>
    exact tableLike_cons (hf q (by simp)) (ih fun q' hq' => hf q' (List.mem_cons_of_mem _ hq'))

section
variable {f : Byte → Cpu → Cpu}

theorem steady_opcodeRow (poll : Bool) : (opcodeRow poll).steady := fun _ _ => ⟨rfl, rfl⟩
theorem steady_dummyPcRow (poll : Bool) : (dummyPcRow poll).steady := fun _ _ => ⟨rfl, rfl⟩
theorem steady_loRow (b : Byte) (poll : Bool) : (loRow b poll).steady := fun _ _ => ⟨rfl, rfl⟩
theorem steady_hiRow (b : Byte) (poll : Bool) : (hiRow b poll).steady := fun _ _ => ⟨rfl, rfl⟩
theorem steady_ptrRow (b : Byte) : (ptrRow b).steady := fun _ _ => ⟨rfl, rfl⟩
theorem steady_fixupRow (poll : Bool) : (fixupRow poll).steady := fun _ _ => ⟨rfl, rfl⟩

theorem steady_fixupOrReadRow (hf : ∀ d c, (f d c).t = c.t ∧ (f d c).seq = c.seq) : (fixupOrReadRow f).steady := by
  intro d c
  simp only [fixupOrReadRow]
  split
  · exact ⟨rfl, rfl⟩
  · exact hf d c

theorem tableLike_impliedRows {f : Cpu → Cpu} (hf : ∀ c, (f c).t = c.t ∧ (f c).seq = c.seq) : tableLike (impliedRows f) :=
  tableLike_cons (steady_opcodeRow _) (tableLike_last (fun _ c => hf c) fun _ => rfl)

theorem tableLike_immediateRows (v : Byte) (hf : ∀ d c, (f d c).t = c.t ∧ (f d c).seq = c.seq) :
    tableLike (immediateRows v f) :=
  tableLike_cons (steady_opcodeRow _) (tableLike_last (fun _ _ => hf v _) fun _ => rfl)

theorem tableLike_memReadRows (mo : MemOperand) (hf : ∀ d c, (f d c).t = c.t ∧ (f d c).seq = c.seq) :
    tableLike (memReadRows mo f) := by
  have hl : ∀ addr, tableLike [readRow addr f] := fun addr => tableLike_last (fun d c => hf d c) fun _ => rfl
  have hx := tableLike_cons (steady_fixupOrReadRow hf) (hl Cpu.hilo)
  have ho := steady_opcodeRow false
  cases mo with
  | zp z => exact tableLike_cons ho (tableLike_cons (steady_loRow z _) (hl _))
  | zpx z | zpy z =>
    exact tableLike_cons ho (tableLike_cons (steady_loRow z _) (tableLike_cons (fun _ _ => ⟨rfl, rfl⟩) (hl _)))
  | abs w => exact tableLike_cons ho (tableLike_cons (steady_loRow _ _) (tableLike_cons (steady_hiRow _ _) (hl _)))
  | absx w | absy w =>
    exact tableLike_cons ho (tableLike_cons (steady_loRow _ _) (tableLike_cons (fun _ _ => ⟨rfl, rfl⟩) hx))
  | indx z =>
    exact tableLike_cons ho (tableLike_cons (steady_ptrRow z) (tableLike_cons (fun _ _ => ⟨rfl, rfl⟩)
      (tableLike_cons (fun _ _ => ⟨rfl, rfl⟩) (tableLike_cons (fun _ _ => ⟨rfl, rfl⟩) (hl _)))))
  | indy z =>
    exact tableLike_cons ho (tableLike_cons (steady_ptrRow z) (tableLike_cons (fun _ _ => ⟨rfl, rfl⟩)
      (tableLike_cons (fun _ _ => ⟨rfl, rfl⟩) hx)))

theorem tableLike_readRows (m : ReadOperand) (hf : ∀ d c, (f d c).t = c.t ∧ (f d c).seq = c.seq) :
    tableLike (readRows m f) := by
  cases m with
  | imm v => exact tableLike_immediateRows v hf
  | mem mo => exact tableLike_memReadRows mo hf

end

theorem steady_storeAddressRows (mo : MemOperand) : ∀ q ∈ storeAddressRows mo, q.steady := by
  cases mo <;> simp only [storeAddressRows, List.forall_mem_cons] <;>
    exact ⟨fun _ _ => ⟨rfl, rfl⟩, fun _ _ => ⟨rfl, rfl⟩, by
      first
      | exact fun _ h => nomatch h
      | exact ⟨fun _ _ => ⟨rfl, rfl⟩, fun _ h => nomatch h⟩
      | exact ⟨fun _ _ => ⟨rfl, rfl⟩, fun _ _ => ⟨rfl, rfl⟩, fun _ h => nomatch h⟩
      | exact ⟨fun _ _ => ⟨rfl, rfl⟩, fun _ _ => ⟨rfl, rfl⟩, fun _ _ => ⟨rfl, rfl⟩, fun _ h => nomatch h⟩⟩

theorem steady_rmwAddressRows (mo : MemOperand) : ∀ q ∈ rmwAddressRows mo, q.steady := by
  cases mo <;> simp only [rmwAddressRows, List.forall_mem_cons] <;>
    exact ⟨fun _ _ => ⟨rfl, rfl⟩, fun _ _ => ⟨rfl, rfl⟩, by
      first
      | exact fun _ h => nomatch h
      | exact ⟨fun _ _ => ⟨rfl, rfl⟩, fun _ h => nomatch h⟩
      | exact ⟨fun _ _ => ⟨rfl, rfl⟩, fun _ _ => ⟨rfl, rfl⟩, fun _ h => nomatch h⟩
      | exact ⟨fun _ _ => ⟨rfl, rfl⟩, fun _ _ => ⟨rfl, rfl⟩, fun _ _ => ⟨rfl, rfl⟩, fun _ h => nomatch h⟩⟩

theorem tableLike_storeRows (mo : MemOperand) (v : Cpu → Byte) : tableLike (storeRows mo v) :=
  tableLike_append (steady_storeAddressRows mo) (tableLike_last (fun _ _ => ⟨rfl, rfl⟩) fun _ => rfl)

theorem tableLike_rmwRows (mo : MemOperand) (f : Cpu → Byte) {ex : Cpu → Cpu}
    (hf : ∀ c, (ex c).t = c.t ∧ (ex c).seq = c.seq) : tableLike (rmwRows mo f ex) :=
  tableLike_append (steady_rmwAddressRows mo)
    (tableLike_cons (fun _ _ => ⟨rfl, rfl⟩) (tableLike_cons (fun _ _ => ⟨rfl, rfl⟩)
      (tableLike_last (fun _ c => hf c) fun _ => rfl)))

theorem tableLike_shiftRows (op : Byte → Bool → Byte × Bool) (m : ShiftOperand) : tableLike (shiftRows op m) := by
  cases m with
  | acc => exact tableLike_impliedRows fun _ => ⟨rfl, rfl⟩
  | mem mo => exact tableLike_rmwRows mo _ fun _ => ⟨rfl, rfl⟩

theorem tableLike_branchRows (cond : Flags → Bool) (r : Byte) : tableLike (branchRows cond r) :=
  tableLike_cons (fun _ _ => ⟨rfl, rfl⟩) (tableLike_cons (fun _ _ => ⟨rfl, rfl⟩)
    (tableLike_cons (fun _ _ => ⟨rfl, rfl⟩) (tableLike_last (fun _ _ => ⟨rfl, rfl⟩) fun _ => rfl)))

theorem tableLike_trapRows (k : Trap) : tableLike (trapRows k) := by
  have h : ∀ (k : Trap) (o : Bool), (trapFetchRow k o).steady := by
    intro k o d c
    cases k <;> exact ⟨rfl, rfl⟩
  have hp : ∀ v, (trapPushRow k v).steady := fun _ _ _ => ⟨rfl, rfl⟩
  exact tableLike_cons (h k _) (tableLike_cons (h k _) (tableLike_cons (hp _) (tableLike_cons (hp _)
    (tableLike_cons (hp _) (tableLike_cons (fun _ _ => ⟨rfl, rfl⟩) (tableLike_last (fun _ _ => ⟨rfl, rfl⟩) fun _ => rfl))))))

theorem tableLike_unstableStoreRows (mo : MemOperand) (v : Cpu → Byte) : tableLike (unstableStoreRows mo v) :=
  tableLike_append (steady_storeAddressRows mo) (tableLike_last (fun _ c => by dsimp only; split <;> exact ⟨rfl, rfl⟩)
    fun _ => rfl)

/-- The table of every instruction but KIL. -/
theorem tableLike_rowsOf {i : Instr} (h : ∀ k, i ≠ .kil k) : tableLike (rowsOf i) := by
  cases i
  case kil k => exact absurd rfl (h k)
  case lda m | ldx m | ldy m | adc m | sbc m | and m | ora m | eor m | cmp m | cpx m | cpy m =>
    exact tableLike_readRows m fun _ _ => ⟨rfl, rfl⟩
  case bit m | lax m => exact tableLike_memReadRows m fun _ _ => ⟨rfl, rfl⟩
  case nopZp k z => exact tableLike_memReadRows (.zp z) fun _ _ => ⟨rfl, rfl⟩
  case nopZpx k z => exact tableLike_memReadRows (.zpx z) fun _ _ => ⟨rfl, rfl⟩
  case nopAbs w => exact tableLike_memReadRows (.abs w) fun _ _ => ⟨rfl, rfl⟩
  case nopAbsx k w => exact tableLike_memReadRows (.absx w) fun _ _ => ⟨rfl, rfl⟩
  case las w => exact tableLike_memReadRows (.absy w) fun _ _ => ⟨rfl, rfl⟩
  case sta m | stx m | sty m | sax m => exact tableLike_storeRows m _
  case asl m | lsr m | rol m | ror m => exact tableLike_shiftRows _ m
  case inc m | dec m | dcp m | isc m | slo m | rla m | sre m | rra m => exact tableLike_rmwRows m _ fun _ => ⟨rfl, rfl⟩
  case bpl r => exact tableLike_branchRows (fun p => !p.n) r
  case bvc r => exact tableLike_branchRows (fun p => !p.v) r
  case bcc r => exact tableLike_branchRows (fun p => !p.c) r
  case bne r => exact tableLike_branchRows (fun p => !p.z) r
  case bmi r | bvs r | bcs r | beq r => exact tableLike_branchRows _ r
  case brk => exact tableLike_trapRows _
  case anc k v | alr v | arr v | axs v | nopImm k v | xaa v | lxa v | usbc v =>
    exact tableLike_immediateRows v fun _ _ => ⟨rfl, rfl⟩
  case ahxIndy | ahxAbsy | shy | shx => exact tableLike_unstableStoreRows _ _
  case tas w =>
    exact tableLike_append (steady_storeAddressRows _) (tableLike_last (fun _ _ => ⟨rfl, rfl⟩) fun _ => rfl)
  case tax | tay | txa | tya | tsx | txs | inx | iny | dex | dey | clc | sec | cli | sei | clv | cld | sed | nop | nopImp =>
    exact tableLike_impliedRows fun _ => ⟨rfl, rfl⟩
  case jmp w =>
    exact tableLike_cons (steady_opcodeRow _) (tableLike_cons (steady_loRow _ _)
      (tableLike_last (fun _ _ => ⟨rfl, rfl⟩) fun _ => rfl))
  case jmpInd w =>
    exact tableLike_cons (steady_opcodeRow _) (tableLike_cons (steady_loRow _ _) (tableLike_cons (steady_hiRow _ _)
      (tableLike_cons (fun _ _ => ⟨rfl, rfl⟩) (tableLike_last (fun _ _ => ⟨rfl, rfl⟩) fun _ => rfl))))
  case jsr w =>
    exact tableLike_cons (steady_opcodeRow _) (tableLike_cons (steady_loRow _ _) (tableLike_cons (fun _ _ => ⟨rfl, rfl⟩)
      (tableLike_cons (fun _ _ => ⟨rfl, rfl⟩) (tableLike_cons (fun _ _ => ⟨rfl, rfl⟩)
        (tableLike_last (fun _ _ => ⟨rfl, rfl⟩) fun _ => rfl)))))
  case rts | rti =>
    exact tableLike_cons (steady_opcodeRow _) (tableLike_cons (steady_dummyPcRow _) (tableLike_cons (fun _ _ => ⟨rfl, rfl⟩)
      (tableLike_cons (fun _ _ => ⟨rfl, rfl⟩) (tableLike_cons (fun _ _ => ⟨rfl, rfl⟩)
        (tableLike_last (fun _ _ => ⟨rfl, rfl⟩) fun _ => rfl)))))
  case pha | php =>
    exact tableLike_cons (steady_opcodeRow _) (tableLike_cons (steady_dummyPcRow _)
      (tableLike_last (fun _ _ => ⟨rfl, rfl⟩) fun _ => rfl))
  case pla | plp =>
    exact tableLike_cons (steady_opcodeRow _) (tableLike_cons (steady_dummyPcRow _) (tableLike_cons (fun _ _ => ⟨rfl, rfl⟩)
      (tableLike_last (fun _ _ => ⟨rfl, rfl⟩) fun _ => rfl)))

end Sys2Proof.Machine
end

