-- ==== Sys2Proof/Laws/PerInstr.lean ====
section
/-! SUPPORT. The family EncodedLength: a well-formed instruction occupies exactly the bytes its format says (R80, R81). -/

namespace Sys2Proof.Laws.EncodedLength

/-- The encoding of a well-formed instruction has the length of its format. -/
def Statement (i : Instr) : Prop := i.wellFormed = true → (encode i).length = i.length

theorem lda (m : ReadOperand) : Statement (.lda m) := by
  obtain _ | m := m
  · exact fun _ => rfl
  · cases m <;> first | exact fun _ => rfl | exact fun h => by cases h
theorem ldx (m : ReadOperand) : Statement (.ldx m) := by
  obtain _ | m := m
  · exact fun _ => rfl
  · cases m <;> first | exact fun _ => rfl | exact fun h => by cases h
theorem ldy (m : ReadOperand) : Statement (.ldy m) := by
  obtain _ | m := m
  · exact fun _ => rfl
  · cases m <;> first | exact fun _ => rfl | exact fun h => by cases h
theorem sta (m : MemOperand) : Statement (.sta m) := by
  cases m <;> first | exact fun _ => rfl | exact fun h => by cases h
theorem stx (m : MemOperand) : Statement (.stx m) := by
  cases m <;> first | exact fun _ => rfl | exact fun h => by cases h
theorem sty (m : MemOperand) : Statement (.sty m) := by
  cases m <;> first | exact fun _ => rfl | exact fun h => by cases h
theorem tax : Statement .tax := fun _ => rfl
theorem tay : Statement .tay := fun _ => rfl
theorem txa : Statement .txa := fun _ => rfl
theorem tya : Statement .tya := fun _ => rfl
theorem tsx : Statement .tsx := fun _ => rfl
theorem txs : Statement .txs := fun _ => rfl
theorem adc (m : ReadOperand) : Statement (.adc m) := by
  obtain _ | m := m
  · exact fun _ => rfl
  · cases m <;> first | exact fun _ => rfl | exact fun h => by cases h
theorem sbc (m : ReadOperand) : Statement (.sbc m) := by
  obtain _ | m := m
  · exact fun _ => rfl
  · cases m <;> first | exact fun _ => rfl | exact fun h => by cases h
theorem and (m : ReadOperand) : Statement (.and m) := by
  obtain _ | m := m
  · exact fun _ => rfl
  · cases m <;> first | exact fun _ => rfl | exact fun h => by cases h
theorem ora (m : ReadOperand) : Statement (.ora m) := by
  obtain _ | m := m
  · exact fun _ => rfl
  · cases m <;> first | exact fun _ => rfl | exact fun h => by cases h
theorem eor (m : ReadOperand) : Statement (.eor m) := by
  obtain _ | m := m
  · exact fun _ => rfl
  · cases m <;> first | exact fun _ => rfl | exact fun h => by cases h
theorem cmp (m : ReadOperand) : Statement (.cmp m) := by
  obtain _ | m := m
  · exact fun _ => rfl
  · cases m <;> first | exact fun _ => rfl | exact fun h => by cases h
theorem cpx (m : ReadOperand) : Statement (.cpx m) := by
  obtain _ | m := m
  · exact fun _ => rfl
  · cases m <;> first | exact fun _ => rfl | exact fun h => by cases h
theorem cpy (m : ReadOperand) : Statement (.cpy m) := by
  obtain _ | m := m
  · exact fun _ => rfl
  · cases m <;> first | exact fun _ => rfl | exact fun h => by cases h
theorem bit (m : MemOperand) : Statement (.bit m) := by
  cases m <;> first | exact fun _ => rfl | exact fun h => by cases h
theorem asl (m : ShiftOperand) : Statement (.asl m) := by
  obtain _ | m := m
  · exact fun _ => rfl
  · cases m <;> first | exact fun _ => rfl | exact fun h => by cases h
theorem lsr (m : ShiftOperand) : Statement (.lsr m) := by
  obtain _ | m := m
  · exact fun _ => rfl
  · cases m <;> first | exact fun _ => rfl | exact fun h => by cases h
theorem rol (m : ShiftOperand) : Statement (.rol m) := by
  obtain _ | m := m
  · exact fun _ => rfl
  · cases m <;> first | exact fun _ => rfl | exact fun h => by cases h
theorem ror (m : ShiftOperand) : Statement (.ror m) := by
  obtain _ | m := m
  · exact fun _ => rfl
  · cases m <;> first | exact fun _ => rfl | exact fun h => by cases h
theorem inc (m : MemOperand) : Statement (.inc m) := by
  cases m <;> first | exact fun _ => rfl | exact fun h => by cases h
theorem dec (m : MemOperand) : Statement (.dec m) := by
  cases m <;> first | exact fun _ => rfl | exact fun h => by cases h
theorem inx : Statement .inx := fun _ => rfl
theorem iny : Statement .iny := fun _ => rfl
theorem dex : Statement .dex := fun _ => rfl
theorem dey : Statement .dey := fun _ => rfl
theorem jmp (w : Word) : Statement (.jmp w) := fun _ => rfl
theorem jmpInd (w : Word) : Statement (.jmpInd w) := fun _ => rfl
theorem jsr (w : Word) : Statement (.jsr w) := fun _ => rfl
theorem rts : Statement .rts := fun _ => rfl
theorem bpl (r : Byte) : Statement (.bpl r) := fun _ => rfl
theorem bmi (r : Byte) : Statement (.bmi r) := fun _ => rfl
theorem bvc (r : Byte) : Statement (.bvc r) := fun _ => rfl
theorem bvs (r : Byte) : Statement (.bvs r) := fun _ => rfl
theorem bcc (r : Byte) : Statement (.bcc r) := fun _ => rfl
theorem bcs (r : Byte) : Statement (.bcs r) := fun _ => rfl
theorem bne (r : Byte) : Statement (.bne r) := fun _ => rfl
theorem beq (r : Byte) : Statement (.beq r) := fun _ => rfl
theorem pha : Statement .pha := fun _ => rfl
theorem php : Statement .php := fun _ => rfl
theorem pla : Statement .pla := fun _ => rfl
theorem plp : Statement .plp := fun _ => rfl
theorem clc : Statement .clc := fun _ => rfl
theorem sec : Statement .sec := fun _ => rfl
theorem cli : Statement .cli := fun _ => rfl
theorem sei : Statement .sei := fun _ => rfl
theorem clv : Statement .clv := fun _ => rfl
theorem cld : Statement .cld := fun _ => rfl
theorem sed : Statement .sed := fun _ => rfl
theorem nop : Statement .nop := fun _ => rfl
theorem brk : Statement .brk := fun _ => rfl
theorem rti : Statement .rti := fun _ => rfl
theorem lax (m : MemOperand) : Statement (.lax m) := by
  cases m <;> first | exact fun _ => rfl | exact fun h => by cases h
theorem sax (m : MemOperand) : Statement (.sax m) := by
  cases m <;> first | exact fun _ => rfl | exact fun h => by cases h
theorem dcp (m : MemOperand) : Statement (.dcp m) := by
  cases m <;> first | exact fun _ => rfl | exact fun h => by cases h
theorem isc (m : MemOperand) : Statement (.isc m) := by
  cases m <;> first | exact fun _ => rfl | exact fun h => by cases h
theorem slo (m : MemOperand) : Statement (.slo m) := by
  cases m <;> first | exact fun _ => rfl | exact fun h => by cases h
theorem rla (m : MemOperand) : Statement (.rla m) := by
  cases m <;> first | exact fun _ => rfl | exact fun h => by cases h
theorem sre (m : MemOperand) : Statement (.sre m) := by
  cases m <;> first | exact fun _ => rfl | exact fun h => by cases h
theorem rra (m : MemOperand) : Statement (.rra m) := by
  cases m <;> first | exact fun _ => rfl | exact fun h => by cases h
theorem anc (k : Fin 2) (v : Byte) : Statement (.anc k v) := by
  revert k
  exact fun | 0 | 1 => fun _ => rfl
theorem alr (v : Byte) : Statement (.alr v) := fun _ => rfl
theorem arr (v : Byte) : Statement (.arr v) := fun _ => rfl
theorem axs (v : Byte) : Statement (.axs v) := fun _ => rfl
theorem nopImp (k : Fin 6) : Statement (.nopImp k) := by
  revert k
  exact fun | 0 | 1 | 2 | 3 | 4 | 5 => fun _ => rfl
theorem nopImm (k : Fin 5) (v : Byte) : Statement (.nopImm k v) := by
  revert k
  exact fun | 0 | 1 | 2 | 3 | 4 => fun _ => rfl
theorem nopZp (k : Fin 3) (z : Byte) : Statement (.nopZp k z) := by
  revert k
  exact fun | 0 | 1 | 2 => fun _ => rfl
theorem nopZpx (k : Fin 6) (z : Byte) : Statement (.nopZpx k z) := by
  revert k
  exact fun | 0 | 1 | 2 | 3 | 4 | 5 => fun _ => rfl
theorem nopAbs (w : Word) : Statement (.nopAbs w) := fun _ => rfl
theorem nopAbsx (k : Fin 6) (w : Word) : Statement (.nopAbsx k w) := by
  revert k
  exact fun | 0 | 1 | 2 | 3 | 4 | 5 => fun _ => rfl
theorem kil (k : Fin 12) : Statement (.kil k) := by
  revert k
  exact fun | 0 | 1 | 2 | 3 | 4 | 5 | 6 | 7 | 8 | 9 | 10 | 11 => fun _ => rfl
theorem xaa (v : Byte) : Statement (.xaa v) := fun _ => rfl
theorem lxa (v : Byte) : Statement (.lxa v) := fun _ => rfl
theorem usbc (v : Byte) : Statement (.usbc v) := fun _ => rfl
theorem ahxIndy (z : Byte) : Statement (.ahxIndy z) := fun _ => rfl
theorem ahxAbsy (w : Word) : Statement (.ahxAbsy w) := fun _ => rfl
theorem shy (w : Word) : Statement (.shy w) := fun _ => rfl
theorem shx (w : Word) : Statement (.shx w) := fun _ => rfl
theorem tas (w : Word) : Statement (.tas w) := fun _ => rfl
theorem las (w : Word) : Statement (.las w) := fun _ => rfl

end Sys2Proof.Laws.EncodedLength
end

