-- ==== Sys2Proof/Laws/Step.lean ====
section
/-! SUPPORT. Everything a cycle and a step can do: rows of cycle tables, run from the state the boundary's decision leaves. The
claims about all steps follow from `step_next` and the laws of one cycle. -/

namespace Sys2Proof.Machine

/-- An instruction whose first cycle is due starts where it is. -/
theorem start_eq {c : Cpu} (ht : c.t = 1) (hs : c.seq = .instr) : c.start = c := by
  cases c
  cases ht
  cases hs
  rfl

/-- The state from which a step's cycles run. -/
def State.stepStart (s : State) : State := if s.cpu.t = 1 then s.beginStep.boundary else s.beginStep

theorem State.beginStep_cpu (s : State) : s.beginStep.cpu = s.cpu := by simp [State.beginStep]

/-- The rows of a table in progress are steady. -/
theorem steady_rowsLeft {s : State} {i : Option Instr} {r : Row} {rest : List Row} (h : s.rowsLeft i = r :: rest) :
    1 ≤ s.cpu.t ∧ r.steady := by
  unfold State.rowsLeft at h
  split at h
  · cases h
  · rename_i h0
    split at h
    · cases h
    · refine ⟨by omega, ?_⟩
      have hr : r ∈ s.table i := List.mem_of_mem_drop (by rw [h]; exact List.mem_cons_self)
      have of {rows : List Row} (ht : tableLike rows) (hm : r ∈ rows) : r.steady := by
        obtain ⟨init, q, rfl, hq, -⟩ := ht
        exact hq r hm
      unfold State.table at hr
      split at hr
      · exact of (tableLike_trapRows .reset) hr
      · exact of (tableLike_trapRows .int) hr
      · split at hr
        · rename_i j
          refine of (tableLike_rowsOf ?_) hr
          rintro k rfl
          exact nomatch hr
        · exact nomatch hr

/-- The row of a cycle that is performed: one of the table in progress. -/
theorem cycle_next {s t : State} (h : cycle s = .next t) :
    1 ≤ s.cpu.t ∧ ∃ r : Row, r.steady ∧
      t = r.cycle (if s.cpu.t = 1 then s.serveStalls.boundary else s.serveStalls) := by
  simp only [cycle, State.serveStalls_cpu] at h
  split at h
  · unfold noRow at h
    repeat' split at h
    all_goals cases h
  · rename_i r rest hr
    have hs := steady_rowsLeft hr
    refine ⟨?_, r, hs.2, (Host.Outcome.next.inj h).symm⟩
    have h1 := hs.1
    split at h1 <;> simpa using h1

/-- Serving the stall cycles first changes nothing: the cycle serves them. -/
theorem Row.cycle_serveStalls (r : Row) (s : State) : r.cycle s.serveStalls = r.cycle s := by
  rw [Row.cycle, Row.cycle, State.serveStalls_idem]

/-- A cycle that ends a table ends at an instruction boundary. -/
theorem Row.cycle_boundary {r : Row} (hr : r.steady) {s : State} (hs : 1 ≤ s.cpu.t) (h : (r.cycle s).cpu.t = 1) :
    (r.cycle s).atBoundary := by
  refine ⟨h, ?_⟩
  rw [r.cycle_t hr] at h
  rw [r.cycle_seq hr]
  split at h
  · rename_i hlast
    rw [if_pos hlast]
  · omega

/-- A table taken up in the middle: the rows its cycles choose one by one, to the boundary. -/
theorem cyclesToBoundary_next {n : Nat} {s t : State} (hs : s.cpu.t ≠ 1) (h : cyclesToBoundary n s = .next t) :
    1 ≤ s.cpu.t ∧ ∃ rows : List Row, rows ≠ [] ∧ (∀ r ∈ rows, r.steady) ∧ t = perform rows s ∧ t.atBoundary := by
  induction n generalizing s with
  | zero => cases h
  | succ n ih =>
    simp only [cyclesToBoundary] at h
    split at h
    · rename_i u hu
      obtain ⟨h1, r, hr, e⟩ := cycle_next hu
      rw [if_neg hs, Row.cycle_serveStalls] at e
      subst e
      split at h
      · rename_i ht
        have e := (Host.Outcome.next.inj h).symm
        refine ⟨h1, [r], by simp, by simpa using hr, ?_, ?_⟩
        · rw [perform_last ht, e]
        · rw [e]
          exact Row.cycle_boundary hr h1 ht
      · rename_i ht
        obtain ⟨-, rows, -, hsteady, e, hb⟩ := ih ht h
        exact ⟨h1, r :: rows, by simp, List.forall_mem_cons.2 ⟨hr, hsteady⟩, by rw [perform_next ht, e], hb⟩
    · cases h
    · cases h

/-- The rows a step runs, when it completes, and where it ends. -/
theorem step_next {s t : State} (h : step s = .next t) :
    1 ≤ s.cpu.t ∧
      ∃ rows : List Row, rows ≠ [] ∧ (∀ r ∈ rows, r.steady) ∧ t = perform rows s.stepStart ∧ t.atBoundary := by
  have of {rows : List Row} {u : State} (ht : tableLike rows) (h1 : 1 ≤ u.cpu.t) (e : t = perform rows u) :
      ∃ rows : List Row, rows ≠ [] ∧ (∀ r ∈ rows, r.steady) ∧ t = perform rows u ∧ t.atBoundary := by
    have hb := perform_boundary ht h1
    obtain ⟨init, r, rfl, hr, -⟩ := ht
    exact ⟨_, by simp, hr, e, by rw [e]; exact hb⟩
  unfold step plan at h
  simp only [State.beginStep_cpu] at h
  by_cases h1 : s.cpu.t = 1
  · have hb : s.stepStart = s.beginStep.boundary := if_pos h1
    rw [if_pos h1] at h
    have ht : s.beginStep.boundary.cpu.t = 1 := by simpa [State.beginStep_cpu] using h1
    refine ⟨by omega, ?_⟩
    rw [hb]
    cases hq : s.beginStep.boundary.cpu.seq with
    | reset =>
      simp only [hq, takeTrap, Host.Outcome.next.injEq] at h
      exact of (tableLike_trapRows .reset) (by omega) h.symm
    | int =>
      simp only [hq, takeTrap, Host.Outcome.next.injEq] at h
      exact of (tableLike_trapRows .int) (by omega) h.symm
    | instr =>
      simp only [hq] at h
      cases hf : s.beginStep.boundary.fetched with
      | none => simp only [hf] at h; cases h
      | some i =>
        simp only [hf] at h
        refine of (tableLike_rowsOf (exec_next_notKil h)) (by omega) ?_
        rw [exec_next h, start_eq ht hq]
  · rw [if_neg h1] at h
    have hb : s.stepStart = s.beginStep := if_neg h1
    have ht : s.beginStep.cpu.t ≠ 1 := by rwa [State.beginStep_cpu]
    have hc := cyclesToBoundary_next ht h
    rw [State.beginStep_cpu] at hc
    rw [hb]
    exact hc

section
variable (s : State) (old : List BusCycle)

theorem fetchAhead_under (n : Nat) : fetchAhead n (s.under old) = fetchAhead n s := by
  induction n generalizing s with
  | zero => rfl
  | succ n ih =>
    rw [fetchAhead, fetchAhead, Row.cycle_under]
    simp only [ih]
    rfl

/-- The one-cycle machine does the same whatever stands in the log below, as far as it completes. -/
theorem cycle_under {s u : State} (h : cycle s = .next u) (old : List BusCycle) :
    cycle (s.under old) = .next (u.under old) := by
  have hf (s : State) : (s.under old).fetched = s.fetched := by
    rw [State.fetched, State.fetched, fetchAhead_under]
  have hi (s : State) : (s.under old).inProgress = s.inProgress := by
    unfold State.inProgress
    rw [fetchAhead_under]
    rfl
  have hr (s : State) (i : Option Instr) : (s.under old).rowsLeft i = s.rowsLeft i := rfl
  have hn (s : State) (i : Option Instr) : noRow s i ≠ .next u := by
    unfold noRow
    repeat' split
    all_goals exact fun e => nomatch e
  by_cases h1 : s.cpu.t = 1 <;>
    simp only [cycle, State.serveStalls_under, State.boundary_under, State.under_cpu, State.serveStalls_cpu,
      State.boundary_t, h1, if_true, if_false, hf, hi, hr, Row.cycle_under] at h ⊢ <;>
    split at h <;> first
      | exact absurd h (hn _ _)
      | rw [← Host.Outcome.next.inj h]

end

section
variable (s : State)

@[simp] theorem State.stepStart_t : s.stepStart.cpu.t = s.cpu.t := by
  unfold State.stepStart
  split <;> simp [State.beginStep_cpu]

@[simp] theorem State.stepStart_cfg : s.stepStart.cfg = s.cfg := by
  unfold State.stepStart
  split <;> simp [State.beginStep]

theorem State.stepStart_bus : s.stepStart.bus = s.beginStep.bus := by
  unfold State.stepStart
  split <;> simp

theorem State.beginStep_mem : s.beginStep.bus.mem = replay s.cfg.map (stallLog s.bus.stalls) s.bus.mem := by
  rw [State.beginStep, State.serveStalls_mem]
  rfl

theorem State.beginStep_log : s.beginStep.bus.log = stallLog s.bus.stalls := by
  rw [State.beginStep, State.serveStalls_log]
  exact List.append_nil _

end

/-- What every cycle keeps, a step keeps. -/
theorem step_keeps {P : State → Prop} {s t : State} (hr : ∀ (r : Row) u, P u → P (r.cycle u)) (h0 : P s.stepStart)
    (h : step s = .next t) : P t := by
  obtain ⟨-, rows, -, -, rfl, -⟩ := step_next h
  exact perform_keeps rows _ (fun r _ u => hr r u) h0

/-- A completed step stands at an instruction boundary. -/
theorem step_boundary {s t : State} (h : step s = .next t) : t.atBoundary := by
  obtain ⟨-, _, -, -, -, hb⟩ := step_next h
  exact hb

end Sys2Proof.Machine
end

