-- ==== Sys2Proof/Tests/Slice0.lean ====
section
/-! SUPPORT. The model's own tests: ill-formed terms refused, words written out from the spec's encodings decoded, the vectors
and scenarios of 95_test_vectors (expected results copied from there, never from the model), and for every statement with
hypotheses a state and operands that meet them. -/

namespace Sys2Proof.Machine

def State.withLines (s : State) (n i r : Bool) : State := { s with bus := { s.bus with lines := ⟨n, i, r⟩ } }
def State.withInputs (s : State) (is : List CycleInput) : State := { s with bus := { s.bus with inputs := is } }
def State.withLatches (s : State) (np iq rp : Bool) : State :=
  { s with irq := { s.irq with nmiPending := np, intReq := iq, resetPending := rp } }
def State.withConfig (s : State) (f : Config → Config) : State := { s with cfg := f s.cfg }

end Sys2Proof.Machine

namespace Sys2Proof.Tests

open Sys2Proof.Machine

/-! ## The test states (the conventions of 95_test_vectors) -/

def noFlags : Flags := ⟨false, false, false, false, false, false⟩

/-- The start state of the vectors: reset's registers, flags 0, bytes at `pc`, the cells listed, then `f` on the registers. -/
def begin (pc : Word) (bytes : List Byte) (cells : List (Word × Byte)) (f : Cpu → Cpu) : State :=
  let s : State := { State.reset with
    cpu := f { State.reset.cpu with pc := pc, p := noFlags, vec := 0x0000 }
    cyc := 0
    bus := { State.reset.bus with log := [] } }
  cells.foldl (fun s c => s.placeBytes c.1 [c.2]) (s.placeBytes pc bytes)

/-- Bytes at $8000, and nothing else. -/
def code (bytes : List Byte) : State := begin 0x8000 bytes [] id

/-- The vectors of the scenarios: IRQ and BRK to $9000, NMI to $A000, reset to $C000. -/
def scene (bytes : List Byte) (f : Cpu → Cpu) : State :=
  begin 0x8000 bytes [(0xFFFA, 0x00), (0xFFFB, 0xA0), (0xFFFC, 0x00), (0xFFFD, 0xC0), (0xFFFE, 0x00), (0xFFFF, 0x90)] f

/-- A cycle that memory answers, with the lines `n i r` at its end. -/
def at' (n i r : Bool) : CycleInput := ⟨[], .memory, ⟨n, i, r⟩, []⟩

/-- A cycle with nothing asserted. -/
def idle : CycleInput := at' false false false

/-- Three cycles with stalls, DMA bytes and lines moving, memory answering. -/
def noise : List CycleInput :=
  [⟨[⟨some 0x55, ⟨true, false, false⟩, []⟩], .memory, ⟨false, true, false⟩, []⟩, at' true true false,
    ⟨[⟨none, ⟨false, false, false⟩, []⟩, ⟨some 0xAA, ⟨false, true, false⟩, []⟩], .memory, ⟨true, false, false⟩, []⟩]

/-- The same with another agent storing $99 at $0300 in a stall cycle, and $98 and $97 after the second cycle. -/
def crowd : List CycleInput :=
  [⟨[⟨none, ⟨false, false, false⟩, [(0x0300, 0x99)]⟩], .memory, ⟨false, false, false⟩, []⟩,
    ⟨[], .memory, ⟨false, false, false⟩, [(0x0301, 0x98), (0x0301, 0x97)]⟩]

def nextOf (o : Host.Outcome State Fault Refusal) : Option State :=
  match o with
  | .next t => some t
  | .fault _ | .refused _ => none

def registersAfter (s : State) : Option Regs := (nextOf (step s)).map State.regs

/-- The transactions of the step in cycle order, as the vectors list them: reads without their data. -/
def busAfter (s : State) : Option (List BusOp) := (nextOf (step s)).map fun t => (transactions t.bus.log).reverse

def pcAfter (s : State) : Option Word := (nextOf (step s)).map fun t => t.cpu.pc

/-- `nmi_pending`, `int_req`, `reset_pending` after the step. -/
def latchesAfter (s : State) : Option (Bool × Bool × Bool) :=
  (nextOf (step s)).map fun t => (t.irq.nmiPending, t.irq.intReq, t.irq.resetPending)

/-! ## Ill-formed terms are refused: one for each check of `Instr.wellFormed` -/

theorem test_illformed_alu_zpy : (Instr.lda (.mem (.zpy 0x10))).wellFormed = false := by decide
theorem test_illformed_ldx_zpx : (Instr.ldx (.mem (.zpx 0x10))).wellFormed = false := by decide
theorem test_illformed_ldy_zpy : (Instr.ldy (.mem (.zpy 0x10))).wellFormed = false := by decide
theorem test_illformed_store_zpy : (Instr.sta (.zpy 0x10)).wellFormed = false := by decide
theorem test_illformed_combined_zpy : (Instr.slo (.zpy 0x10)).wellFormed = false := by decide
theorem test_illformed_stx_absx : (Instr.stx (.absx 0x0300)).wellFormed = false := by decide
theorem test_illformed_sty_absy : (Instr.sty (.absy 0x0300)).wellFormed = false := by decide
theorem test_illformed_cpx_zpx : (Instr.cpx (.mem (.zpx 0x10))).wellFormed = false := by decide
theorem test_illformed_bit_indx : (Instr.bit (.indx 0x10)).wellFormed = false := by decide
theorem test_illformed_shift_absy : (Instr.asl (.mem (.absy 0x0300))).wellFormed = false := by decide
theorem test_illformed_inc_indy : (Instr.inc (.indy 0x10)).wellFormed = false := by decide
theorem test_illformed_lax_zpx : (Instr.lax (.zpx 0x10)).wellFormed = false := by decide
theorem test_illformed_sax_absy : (Instr.sax (.absy 0x0300)).wellFormed = false := by decide
theorem test_illformed_has_no_bytes : encode (.sta (.zpy 0x10)) = [] := by decide

/-! ## Words written out from the encodings (the opcode tables of files 41 to 46, R84): bits 7 to 0 of each byte -/

theorem test_decode_lda_indy : decodeInstr [0b10110001#8, 0b00100000#8] = some (.lda (.mem (.indy 0x20))) := by decide
theorem test_decode_ldx_zpy : decodeInstr [0b10110110#8, 0b10000000#8] = some (.ldx (.mem (.zpy 0x80))) := by decide
theorem test_decode_sta_abs :
    decodeInstr [0b10001101#8, 0b00000000#8, 0b00000010#8] = some (.sta (.abs 0x0200)) := by decide
theorem test_decode_txs : decodeInstr [0b10011010#8] = some .txs := by decide
theorem test_decode_sbc_imm : decodeInstr [0b11101001#8, 0b00000001#8] = some (.sbc (.imm 0x01)) := by decide
theorem test_decode_cpy_abs :
    decodeInstr [0b11001100#8, 0b00000000#8, 0b00000011#8] = some (.cpy (.mem (.abs 0x0300))) := by decide
theorem test_decode_ror_absx :
    decodeInstr [0b01111110#8, 0b00110100#8, 0b00010010#8] = some (.ror (.mem (.absx 0x1234))) := by decide
theorem test_decode_dec_zpx : decodeInstr [0b11010110#8, 0b00010000#8] = some (.dec (.zpx 0x10)) := by decide
theorem test_decode_jmp_ind : decodeInstr [0b01101100#8, 0b11111111#8, 0b00000010#8] = some (.jmpInd 0x02FF) := by decide
theorem test_decode_bvs : decodeInstr [0b01110000#8, 0b00010000#8] = some (.bvs 0x10) := by decide
theorem test_decode_plp : decodeInstr [0b00101000#8] = some .plp := by decide
theorem test_decode_sed : decodeInstr [0b11111000#8] = some .sed := by decide
theorem test_decode_rti : decodeInstr [0b01000000#8] = some .rti := by decide
theorem test_decode_dcp_indx : decodeInstr [0b11000011#8, 0b00010000#8] = some (.dcp (.indx 0x10)) := by decide
theorem test_decode_arr : decodeInstr [0b01101011#8, 0b11111111#8] = some (.arr 0xFF) := by decide
theorem test_decode_nop_absx :
    decodeInstr [0b11111100#8, 0b00000000#8, 0b00100000#8] = some (.nopAbsx 5 0x2000) := by decide
theorem test_decode_unlisted_usbc : decodeInstr [0b11101011#8, 0b00000001#8] = some (.usbc 0x01) := by decide
theorem test_decode_truncated : decode [0xAD, 0x00] = .error .truncated := by decide
theorem test_decode_table_word : decodeTableWord 24 0x02008D = some (.sta (.abs 0x0200)) := by decide
theorem test_decode_short_table_word : decodeTableWord 8 0xFF8D = some (.sta (.abs 0x0000)) := by decide
theorem test_fetch_word_runs :
    registersAfter (State.reset.withFetchWord 16 0x80A9) =
      some ⟨0x80, 0x00, 0x00, 0xFD, 0x0002, ⟨true, false, false, true, false, false⟩⟩ := by decide

/-! ## The vectors of Part 2 -/

theorem test_lda_V4 :
    registersAfter (begin 0x8000 [0xB5, 0xFF] [(0x0001, 0x42), (0x0101, 0x99)] fun c => { c with x := 0x02 }) =
      some ⟨0x42, 0x02, 0x00, 0xFD, 0x8002, ⟨false, false, false, false, false, false⟩⟩ := by decide

theorem test_lda_bus_V10 :
    busAfter (begin 0x8000 [0xB1, 0x20] [(0x0020, 0xF8), (0x0021, 0x02), (0x0308, 0x66)] fun c => { c with y := 0x10 }) =
      some [.read 0x8000, .read 0x8001, .read 0x0020, .read 0x0021, .read 0x0208, .read 0x0308] := by decide

theorem test_ldx_V14 :
    registersAfter (begin 0x8000 [0xB6, 0x80] [(0x007F, 0x81)] fun c => { c with y := 0xFF }) =
      some ⟨0x00, 0x81, 0xFF, 0xFD, 0x8002, ⟨true, false, false, false, false, false⟩⟩ := by decide

theorem test_ldy_V18 :
    registersAfter (begin 0x8000 [0xBC, 0xFF, 0x02] [(0x0300, 0x01)] fun c => { c with x := 0x01 }) =
      some ⟨0x00, 0x01, 0x01, 0xFD, 0x8003, ⟨false, false, false, false, false, false⟩⟩ := by decide

theorem test_sta_bus_V22 :
    busAfter (begin 0x8000 [0x9D, 0xFF, 0x20] [] fun c => { c with a := 0x07, x := 0x01 }) =
      some [.read 0x8000, .read 0x8001, .read 0x8002, .read 0x2000, .write 0x2100 0x07] := by decide

theorem test_stx_bus_V28 :
    busAfter (begin 0x8000 [0x96, 0xFF] [] fun c => { c with x := 0x33, y := 0x02 }) =
      some [.read 0x8000, .read 0x8001, .read 0x00FF, .write 0x0001 0x33] := by decide

theorem test_sty_bus_V31 :
    busAfter (begin 0x8000 [0x94, 0x01] [] fun c => { c with y := 0x01, x := 0xFF }) =
      some [.read 0x8000, .read 0x8001, .read 0x0001, .write 0x0000 0x01] := by decide

theorem test_tax_V33 :
    registersAfter (begin 0x8000 [0xAA] [] fun c => { c with a := 0xF0 }) =
      some ⟨0xF0, 0xF0, 0x00, 0xFD, 0x8001, ⟨true, false, false, false, false, false⟩⟩ := by decide

theorem test_tay_V34 :
    registersAfter (begin 0x8000 [0xA8] [] fun c => { c with a := 0x00, y := 0x05 }) =
      some ⟨0x00, 0x00, 0x00, 0xFD, 0x8001, ⟨false, false, false, false, true, false⟩⟩ := by decide

theorem test_txa_V35 :
    registersAfter (begin 0x8000 [0x8A] [] fun c => { c with x := 0x7F }) =
      some ⟨0x7F, 0x7F, 0x00, 0xFD, 0x8001, ⟨false, false, false, false, false, false⟩⟩ := by decide

theorem test_tya_V36 :
    registersAfter (begin 0x8000 [0x98] [] fun c => { c with y := 0x80 }) =
      some ⟨0x80, 0x00, 0x80, 0xFD, 0x8001, ⟨true, false, false, false, false, false⟩⟩ := by decide

theorem test_tsx_V37 :
    registersAfter (begin 0x8000 [0xBA] [] fun c => { c with s := 0xFD }) =
      some ⟨0x00, 0xFD, 0x00, 0xFD, 0x8001, ⟨true, false, false, false, false, false⟩⟩ := by decide

theorem test_txs_V39 :
    registersAfter (begin 0x8000 [0x9A] [] fun c => { c with x := 0x00, s := 0x80 }) =
      some ⟨0x00, 0x00, 0x00, 0x00, 0x8001, ⟨false, false, false, false, false, false⟩⟩ := by decide

theorem test_adc_V46 :
    registersAfter (begin 0x8000 [0x69, 0x40] [] fun c => { c with a := 0x3F, p := { noFlags with c := true } }) =
      some ⟨0x80, 0x00, 0x00, 0xFD, 0x8002, ⟨true, true, false, false, false, false⟩⟩ := by decide

theorem test_sbc_V56 :
    registersAfter (begin 0x8000 [0xE9, 0x01] [] fun c => { c with a := 0x80, p := { noFlags with c := true } }) =
      some ⟨0x7F, 0x00, 0x00, 0xFD, 0x8002, ⟨false, true, false, false, false, true⟩⟩ := by decide

theorem test_and_V64 :
    registersAfter (begin 0x8000 [0x29, 0x0F] [] fun c => { c with a := 0xF0 }) =
      some ⟨0x00, 0x00, 0x00, 0xFD, 0x8002, ⟨false, false, false, false, true, false⟩⟩ := by decide

theorem test_ora_V67 :
    registersAfter (begin 0x8000 [0x09, 0x00] [] fun c => { c with a := 0x00, p := { noFlags with n := true } }) =
      some ⟨0x00, 0x00, 0x00, 0xFD, 0x8002, ⟨false, false, false, false, true, false⟩⟩ := by decide

theorem test_eor_V69 :
    registersAfter (begin 0x8000 [0x49, 0xAA] [] fun c => { c with a := 0xAA }) =
      some ⟨0x00, 0x00, 0x00, 0xFD, 0x8002, ⟨false, false, false, false, true, false⟩⟩ := by decide

theorem test_cmp_V73 :
    registersAfter (begin 0x8000 [0xC9, 0x01] [] fun c => { c with a := 0x80 }) =
      some ⟨0x80, 0x00, 0x00, 0xFD, 0x8002, ⟨false, false, false, false, false, true⟩⟩ := by decide

theorem test_cpx_V79 :
    registersAfter (begin 0x8000 [0xEC, 0x00, 0x03] [(0x0300, 0x7F)] fun c => { c with x := 0xFF }) =
      some ⟨0x00, 0xFF, 0x00, 0xFD, 0x8003, ⟨true, false, false, false, false, true⟩⟩ := by decide

theorem test_cpy_V80 :
    registersAfter (begin 0x8000 [0xC0, 0x00] [] fun c => { c with y := 0xFF }) =
      some ⟨0x00, 0x00, 0xFF, 0xFD, 0x8002, ⟨true, false, false, false, false, true⟩⟩ := by decide

theorem test_bit_V85 :
    registersAfter (begin 0x8000 [0x2C, 0x02, 0x20] [(0x2002, 0x80)] fun c => { c with a := 0x00 }) =
      some ⟨0x00, 0x00, 0x00, 0xFD, 0x8003, ⟨true, false, false, false, true, false⟩⟩ := by decide

theorem test_asl_V86 :
    registersAfter (begin 0x8000 [0x0A] [] fun c => { c with a := 0x81 }) =
      some ⟨0x02, 0x00, 0x00, 0xFD, 0x8001, ⟨false, false, false, false, false, true⟩⟩ := by decide

theorem test_asl_bus_V99 :
    busAfter (begin 0x8000 [0x1E, 0xFF, 0x02] [(0x0300, 0x80)] fun c => { c with x := 0x01 }) =
      some [.read 0x8000, .read 0x8001, .read 0x8002, .read 0x0200, .read 0x0300,
        .write 0x0300 0x80, .write 0x0300 0x00] := by decide

theorem test_lsr_V90 :
    registersAfter (begin 0x8000 [0x4A] [] fun c => { c with a := 0x01, p := { noFlags with n := true } }) =
      some ⟨0x00, 0x00, 0x00, 0xFD, 0x8001, ⟨false, false, false, false, true, true⟩⟩ := by decide

theorem test_rol_V91 :
    registersAfter (begin 0x8000 [0x2A] [] fun c => { c with a := 0x40, p := { noFlags with c := true } }) =
      some ⟨0x81, 0x00, 0x00, 0xFD, 0x8001, ⟨true, false, false, false, false, false⟩⟩ := by decide

theorem test_rol_bus_V103 :
    busAfter (begin 0x8000 [0x3E, 0xF0, 0x03] [(0x0410, 0x7F)] fun c => { c with x := 0x20 }) =
      some [.read 0x8000, .read 0x8001, .read 0x8002, .read 0x0310, .read 0x0410,
        .write 0x0410 0x7F, .write 0x0410 0xFE] := by decide

theorem test_ror_V93 :
    registersAfter (begin 0x8000 [0x6A] [] fun c => { c with a := 0x02, p := { noFlags with c := true } }) =
      some ⟨0x81, 0x00, 0x00, 0xFD, 0x8001, ⟨true, false, false, false, false, false⟩⟩ := by decide

theorem test_ror_bus_V105 :
    busAfter (begin 0x8000 [0x6E, 0x00, 0x03] [(0x0300, 0x01)] id) =
      some [.read 0x8000, .read 0x8001, .read 0x8002, .read 0x0300, .write 0x0300 0x01, .write 0x0300 0x00] := by decide

theorem test_inc_V107 :
    registersAfter (begin 0x8000 [0xE6, 0x10] [(0x0010, 0xFF)] fun c => { c with p := { noFlags with c := true } }) =
      some ⟨0x00, 0x00, 0x00, 0xFD, 0x8002, ⟨false, false, false, false, true, true⟩⟩ := by decide

theorem test_inc_bus_V110 :
    busAfter (begin 0x8000 [0xFE, 0x00, 0x03] [(0x03FF, 0xFE)] fun c => { c with x := 0xFF }) =
      some [.read 0x8000, .read 0x8001, .read 0x8002, .read 0x03FF, .read 0x03FF,
        .write 0x03FF 0xFE, .write 0x03FF 0xFF] := by decide

theorem test_dec_V111 :
    registersAfter (begin 0x8000 [0xC6, 0x10] [(0x0010, 0x00)] id) =
      some ⟨0x00, 0x00, 0x00, 0xFD, 0x8002, ⟨true, false, false, false, false, false⟩⟩ := by decide

theorem test_dec_bus_V114 :
    busAfter (begin 0x8000 [0xDE, 0x01, 0x03] [(0x0400, 0x10)] fun c => { c with x := 0xFF }) =
      some [.read 0x8000, .read 0x8001, .read 0x8002, .read 0x0300, .read 0x0400,
        .write 0x0400 0x10, .write 0x0400 0x0F] := by decide

theorem test_inx_V115 :
    registersAfter (begin 0x8000 [0xE8] [] fun c => { c with x := 0x7F }) =
      some ⟨0x00, 0x80, 0x00, 0xFD, 0x8001, ⟨true, false, false, false, false, false⟩⟩ := by decide

theorem test_iny_V117 :
    registersAfter (begin 0x8000 [0xC8] [] fun c => { c with y := 0xFF }) =
      some ⟨0x00, 0x00, 0x00, 0xFD, 0x8001, ⟨false, false, false, false, true, false⟩⟩ := by decide

theorem test_dex_V118 :
    registersAfter (begin 0x8000 [0xCA] [] fun c => { c with x := 0x01 }) =
      some ⟨0x00, 0x00, 0x00, 0xFD, 0x8001, ⟨false, false, false, false, true, false⟩⟩ := by decide

theorem test_dey_V120 :
    registersAfter (begin 0x8000 [0x88] [] fun c => { c with y := 0x00 }) =
      some ⟨0x00, 0x00, 0xFF, 0xFD, 0x8001, ⟨true, false, false, false, false, false⟩⟩ := by decide

theorem test_jmp_V123 :
    registersAfter (begin 0x8000 [0x4C, 0x00, 0x80] [] id) =
      some ⟨0x00, 0x00, 0x00, 0xFD, 0x8000, ⟨false, false, false, false, false, false⟩⟩ := by decide

theorem test_jmpInd_V125 :
    registersAfter (begin 0x8000 [0x6C, 0xFF, 0x02] [(0x0200, 0x80), (0x02FF, 0x00), (0x0300, 0x40)] id) =
      some ⟨0x00, 0x00, 0x00, 0xFD, 0x8000, ⟨false, false, false, false, false, false⟩⟩ := by decide

theorem test_jmpInd_bus_V125 :
    busAfter (begin 0x8000 [0x6C, 0xFF, 0x02] [(0x0200, 0x80), (0x02FF, 0x00), (0x0300, 0x40)] id) =
      some [.read 0x8000, .read 0x8001, .read 0x8002, .read 0x02FF, .read 0x0200] := by decide

theorem test_jsr_V127 :
    registersAfter (begin 0x8000 [0x20, 0x34, 0x12] [] fun c => { c with s := 0x00 }) =
      some ⟨0x00, 0x00, 0x00, 0xFE, 0x1234, ⟨false, false, false, false, false, false⟩⟩ := by decide

theorem test_jsr_bus_V128 :
    busAfter (begin 0xFFFE [0x20, 0x00, 0x90] [(0x0000, 0x90)] id) =
      some [.read 0xFFFE, .read 0xFFFF, .read 0x01FD, .write 0x01FD 0x00, .write 0x01FC 0x00, .read 0x0000] := by decide

theorem test_rts_V130 :
    registersAfter (begin 0x8000 [0x60] [(0x0100, 0xFF), (0x01FF, 0xFF)] fun c => { c with s := 0xFE }) =
      some ⟨0x00, 0x00, 0x00, 0x00, 0x0000, ⟨false, false, false, false, false, false⟩⟩ := by decide

theorem test_rts_bus_V130 :
    busAfter (begin 0x8000 [0x60] [(0x0100, 0xFF), (0x01FF, 0xFF)] fun c => { c with s := 0xFE }) =
      some [.read 0x8000, .read 0x8001, .read 0x01FE, .read 0x01FF, .read 0x0100, .read 0xFFFF] := by decide

theorem test_bpl_V132 :
    registersAfter (begin 0x8000 [0x10, 0x05] [] fun c => { c with p := { noFlags with n := true } }) =
      some ⟨0x00, 0x00, 0x00, 0xFD, 0x8002, ⟨true, false, false, false, false, false⟩⟩ := by decide

theorem test_bmi_V133 :
    registersAfter (begin 0x80FD [0x30, 0x05] [] fun c => { c with p := { noFlags with n := true } }) =
      some ⟨0x00, 0x00, 0x00, 0xFD, 0x8104, ⟨true, false, false, false, false, false⟩⟩ := by decide

theorem test_bmi_bus_V145 :
    busAfter (begin 0xFFFC [0x30, 0x02] [] fun c => { c with p := { noFlags with n := true } }) =
      some [.read 0xFFFC, .read 0xFFFD, .read 0xFFFE, .read 0xFF00] := by decide

theorem test_bcs_V140 :
    registersAfter (begin 0x8000 [0xB0, 0x00] [] fun c => { c with p := { noFlags with c := true } }) =
      some ⟨0x00, 0x00, 0x00, 0xFD, 0x8002, ⟨false, false, false, false, false, true⟩⟩ := by decide

theorem test_bcs_bus_V134 :
    busAfter (begin 0x8000 [0xB0, 0x80] [] fun c => { c with p := { noFlags with c := true } }) =
      some [.read 0x8000, .read 0x8001, .read 0x8002, .read 0x8082] := by decide

theorem test_bvc_V135 :
    registersAfter (begin 0x8000 [0x50, 0xFE] [] id) =
      some ⟨0x00, 0x00, 0x00, 0xFD, 0x8000, ⟨false, false, false, false, false, false⟩⟩ := by decide

theorem test_bvs_V137 :
    registersAfter (begin 0x8000 [0x70, 0x10] [] fun c => { c with p := { noFlags with v := true } }) =
      some ⟨0x00, 0x00, 0x00, 0xFD, 0x8012, ⟨false, true, false, false, false, false⟩⟩ := by decide

theorem test_bcc_V138 :
    registersAfter (begin 0x8000 [0x90, 0x7F] [] id) =
      some ⟨0x00, 0x00, 0x00, 0xFD, 0x8081, ⟨false, false, false, false, false, false⟩⟩ := by decide

theorem test_bne_V141 :
    registersAfter (begin 0x8005 [0xD0, 0xFB] [] id) =
      some ⟨0x00, 0x00, 0x00, 0xFD, 0x8002, ⟨false, false, false, false, false, false⟩⟩ := by decide

theorem test_beq_V144 :
    registersAfter (begin 0x8080 [0xF0, 0x7F] [] fun c => { c with p := { noFlags with z := true } }) =
      some ⟨0x00, 0x00, 0x00, 0xFD, 0x8101, ⟨false, false, false, false, true, false⟩⟩ := by decide

theorem test_pha_bus_V147 :
    busAfter (begin 0x8000 [0x48] [] fun c => { c with a := 0x01, s := 0x00 }) =
      some [.read 0x8000, .read 0x8001, .write 0x0100 0x01] := by decide

theorem test_php_bus_V148 :
    busAfter (begin 0x8000 [0x08] [] fun c => { c with s := 0xFF, p := { noFlags with n := true, c := true } }) =
      some [.read 0x8000, .read 0x8001, .write 0x01FF 0xB1] := by decide

theorem test_pla_V151 :
    registersAfter (begin 0x8000 [0x68] [(0x01FD, 0x00)] fun c => { c with s := 0xFC, a := 0x55 }) =
      some ⟨0x00, 0x00, 0x00, 0xFD, 0x8001, ⟨false, false, false, false, true, false⟩⟩ := by decide

theorem test_pla_bus_V152 :
    busAfter (begin 0x8000 [0x68] [(0x0100, 0x80)] fun c => { c with s := 0xFF }) =
      some [.read 0x8000, .read 0x8001, .read 0x01FF, .read 0x0100] := by decide

theorem test_plp_V154 :
    registersAfter (begin 0x8000 [0x28] [(0x01FF, 0x30)] fun c => { c with s := 0xFE, p := { noFlags with n := true, c := true } }) =
      some ⟨0x00, 0x00, 0x00, 0xFF, 0x8001, ⟨false, false, false, false, false, false⟩⟩ := by decide

theorem test_clc_V156 :
    registersAfter (begin 0x8000 [0x18] [] fun c => { c with p := { noFlags with c := true } }) =
      some ⟨0x00, 0x00, 0x00, 0xFD, 0x8001, ⟨false, false, false, false, false, false⟩⟩ := by decide

theorem test_sec_V157 :
    registersAfter (begin 0x8000 [0x38] [] id) =
      some ⟨0x00, 0x00, 0x00, 0xFD, 0x8001, ⟨false, false, false, false, false, true⟩⟩ := by decide

theorem test_cli_V158 :
    registersAfter (begin 0x8000 [0x58] [] fun c => { c with p := { noFlags with i := true } }) =
      some ⟨0x00, 0x00, 0x00, 0xFD, 0x8001, ⟨false, false, false, false, false, false⟩⟩ := by decide

theorem test_sei_V159 :
    registersAfter (begin 0x8000 [0x78] [] id) =
      some ⟨0x00, 0x00, 0x00, 0xFD, 0x8001, ⟨false, false, false, true, false, false⟩⟩ := by decide

theorem test_clv_V160 :
    registersAfter (begin 0x8000 [0xB8] [] fun c => { c with p := { noFlags with v := true } }) =
      some ⟨0x00, 0x00, 0x00, 0xFD, 0x8001, ⟨false, false, false, false, false, false⟩⟩ := by decide

theorem test_cld_V161 :
    registersAfter (begin 0x8000 [0xD8] [] fun c => { c with p := { noFlags with d := true } }) =
      some ⟨0x00, 0x00, 0x00, 0xFD, 0x8001, ⟨false, false, false, false, false, false⟩⟩ := by decide

theorem test_sed_V162 :
    registersAfter (begin 0x8000 [0xF8] [] id) =
      some ⟨0x00, 0x00, 0x00, 0xFD, 0x8001, ⟨false, false, true, false, false, false⟩⟩ := by decide

theorem test_nop_V163 :
    registersAfter (begin 0x8000 [0xEA] [] id) =
      some ⟨0x00, 0x00, 0x00, 0xFD, 0x8001, ⟨false, false, false, false, false, false⟩⟩ := by decide

theorem test_brk_V165 :
    registersAfter (begin 0x8000 [0x00, 0xEA] [(0xFFFE, 0x00), (0xFFFF, 0x90)] fun c => { c with p := { noFlags with n := true, c := true, d := true, i := true } }) =
      some ⟨0x00, 0x00, 0x00, 0xFA, 0x9000, ⟨true, false, true, true, false, true⟩⟩ := by decide

theorem test_brk_bus_V166 :
    busAfter (begin 0x8000 [0x00, 0xEA] [(0xFFFE, 0x34), (0xFFFF, 0x12)] fun c => { c with s := 0x01 }) =
      some [.read 0x8000, .read 0x8001, .write 0x0101 0x80, .write 0x0100 0x02, .write 0x01FF 0x30,
        .read 0xFFFE, .read 0xFFFF] := by decide

theorem test_rti_V167 :
    registersAfter (begin 0x8000 [0x40] [(0x01FB, 0x30), (0x01FC, 0x02), (0x01FD, 0x80)] fun c => { c with s := 0xFA, p := { noFlags with i := true } }) =
      some ⟨0x00, 0x00, 0x00, 0xFD, 0x8002, ⟨false, false, false, false, false, false⟩⟩ := by decide

theorem test_rti_bus_V168 :
    busAfter (begin 0x8000 [0x40] [(0x01FB, 0xCF), (0x01FC, 0x34), (0x01FD, 0x12)] fun c => { c with s := 0xFA }) =
      some [.read 0x8000, .read 0x8001, .read 0x01FA, .read 0x01FB, .read 0x01FC, .read 0x01FD] := by decide

theorem test_lax_V173 :
    registersAfter (begin 0x8000 [0xA3, 0x10] [(0x0012, 0x00), (0x0013, 0x03), (0x0300, 0xFF)] fun c => { c with x := 0x02 }) =
      some ⟨0xFF, 0xFF, 0x00, 0xFD, 0x8002, ⟨true, false, false, false, false, false⟩⟩ := by decide

theorem test_lax_bus_V172 :
    busAfter (begin 0x8000 [0xBF, 0xFF, 0x02] [(0x0300, 0x01)] fun c => { c with y := 0x01 }) =
      some [.read 0x8000, .read 0x8001, .read 0x8002, .read 0x0200, .read 0x0300] := by decide

theorem test_sax_bus_V178 :
    busAfter (begin 0x8000 [0x83, 0x10] [(0x0012, 0x00), (0x0013, 0x03)] fun c => { c with a := 0xFF, x := 0x02 }) =
      some [.read 0x8000, .read 0x8001, .read 0x0010, .read 0x0012, .read 0x0013, .write 0x0300 0x02] := by decide

theorem test_dcp_V180 :
    registersAfter (begin 0x8000 [0xC7, 0x10] [(0x0010, 0x00)] fun c => { c with a := 0xFF }) =
      some ⟨0xFF, 0x00, 0x00, 0xFD, 0x8002, ⟨false, false, false, false, true, true⟩⟩ := by decide

theorem test_dcp_bus_V181 :
    busAfter (begin 0x8000 [0xD3, 0x20] [(0x0020, 0x01), (0x0021, 0x03), (0x0400, 0x01)] fun c => { c with a := 0x00, y := 0xFF }) =
      some [.read 0x8000, .read 0x8001, .read 0x0020, .read 0x0021, .read 0x0300,
        .read 0x0400, .write 0x0400 0x01, .write 0x0400 0x00] := by decide

theorem test_isc_V186 :
    registersAfter (begin 0x8000 [0xFF, 0x00, 0x03] [(0x0301, 0x0F)] fun c => { c with a := 0x10, x := 0x01, p := { noFlags with d := true } }) =
      some ⟨0xFF, 0x01, 0x00, 0xFD, 0x8003, ⟨true, false, true, false, false, false⟩⟩ := by decide

theorem test_isc_bus_V185 :
    busAfter (begin 0x8000 [0xE3, 0x10] [(0x0010, 0x00), (0x0011, 0x03), (0x0300, 0x00)] fun c => { c with a := 0x80, x := 0x00, p := { noFlags with c := true } }) =
      some [.read 0x8000, .read 0x8001, .read 0x0010, .read 0x0010, .read 0x0011,
        .read 0x0300, .write 0x0300 0x00, .write 0x0300 0x01] := by decide

theorem test_slo_V187 :
    registersAfter (begin 0x8000 [0x07, 0x10] [(0x0010, 0x81)] fun c => { c with a := 0x01 }) =
      some ⟨0x03, 0x00, 0x00, 0xFD, 0x8002, ⟨false, false, false, false, false, true⟩⟩ := by decide

theorem test_slo_bus_V188 :
    busAfter (begin 0x8000 [0x1F, 0xFF, 0x02] [(0x0300, 0x80)] fun c => { c with a := 0x00, x := 0x01 }) =
      some [.read 0x8000, .read 0x8001, .read 0x8002, .read 0x0200, .read 0x0300,
        .write 0x0300 0x80, .write 0x0300 0x00] := by decide

theorem test_rla_V189 :
    registersAfter (begin 0x8000 [0x27, 0x10] [(0x0010, 0x40)] fun c => { c with a := 0xFF, p := { noFlags with c := true } }) =
      some ⟨0x81, 0x00, 0x00, 0xFD, 0x8002, ⟨true, false, false, false, false, false⟩⟩ := by decide

theorem test_rla_bus_V190 :
    busAfter (begin 0x8000 [0x33, 0x20] [(0x0020, 0x00), (0x0021, 0x03), (0x0300, 0xF0)] fun c => { c with a := 0x0F, y := 0x00 }) =
      some [.read 0x8000, .read 0x8001, .read 0x0020, .read 0x0021, .read 0x0300,
        .read 0x0300, .write 0x0300 0xF0, .write 0x0300 0xE0] := by decide

theorem test_sre_V191 :
    registersAfter (begin 0x8000 [0x47, 0x10] [(0x0010, 0x03)] fun c => { c with a := 0x01 }) =
      some ⟨0x00, 0x00, 0x00, 0xFD, 0x8002, ⟨false, false, false, false, true, true⟩⟩ := by decide

theorem test_sre_bus_V192 :
    busAfter (begin 0x8000 [0x5B, 0x00, 0x03] [(0x0310, 0xFE)] fun c => { c with a := 0xFF, y := 0x10 }) =
      some [.read 0x8000, .read 0x8001, .read 0x8002, .read 0x0310, .read 0x0310,
        .write 0x0310 0xFE, .write 0x0310 0x7F] := by decide

theorem test_rra_V193 :
    registersAfter (begin 0x8000 [0x67, 0x10] [(0x0010, 0x03)] fun c => { c with a := 0x10 }) =
      some ⟨0x12, 0x00, 0x00, 0xFD, 0x8002, ⟨false, false, false, false, false, false⟩⟩ := by decide

theorem test_rra_bus_V194 :
    busAfter (begin 0x8000 [0x6F, 0x00, 0x03] [(0x0300, 0x00)] fun c => { c with a := 0x7F, p := { noFlags with c := true } }) =
      some [.read 0x8000, .read 0x8001, .read 0x8002, .read 0x0300, .write 0x0300 0x00, .write 0x0300 0x80] := by decide

theorem test_anc_V197 :
    registersAfter (begin 0x8000 [0x2B, 0x7F] [] fun c => { c with a := 0xFF, p := { noFlags with c := true } }) =
      some ⟨0x7F, 0x00, 0x00, 0xFD, 0x8002, ⟨false, false, false, false, false, false⟩⟩ := by decide

theorem test_alr_V200 :
    registersAfter (begin 0x8000 [0x4B, 0x01] [] fun c => { c with a := 0x01, p := { noFlags with n := true } }) =
      some ⟨0x00, 0x00, 0x00, 0xFD, 0x8002, ⟨false, false, false, false, true, true⟩⟩ := by decide

theorem test_arr_V203 :
    registersAfter (begin 0x8000 [0x6B, 0xC0] [] fun c => { c with a := 0xC0 }) =
      some ⟨0x60, 0x00, 0x00, 0xFD, 0x8002, ⟨false, false, false, false, false, true⟩⟩ := by decide

theorem test_axs_V207 :
    registersAfter (begin 0x8000 [0xCB, 0x31] [] fun c => { c with a := 0xF0, x := 0x3C }) =
      some ⟨0xF0, 0xFF, 0x00, 0xFD, 0x8002, ⟨true, false, false, false, false, false⟩⟩ := by decide

theorem test_nopImp_V209 :
    registersAfter (begin 0x8000 [0x1A] [] id) =
      some ⟨0x00, 0x00, 0x00, 0xFD, 0x8001, ⟨false, false, false, false, false, false⟩⟩ := by decide

theorem test_nopImm_V216 :
    registersAfter (begin 0x8000 [0x89, 0x00] [] fun c => { c with a := 0x55 }) =
      some ⟨0x55, 0x00, 0x00, 0xFD, 0x8002, ⟨false, false, false, false, false, false⟩⟩ := by decide

theorem test_nopZp_V211 :
    registersAfter (begin 0x8000 [0x04, 0x10] [] id) =
      some ⟨0x00, 0x00, 0x00, 0xFD, 0x8002, ⟨false, false, false, false, false, false⟩⟩ := by decide

theorem test_nopZpx_V212 :
    registersAfter (begin 0x8000 [0x14, 0x10] [] fun c => { c with x := 0x01 }) =
      some ⟨0x00, 0x01, 0x00, 0xFD, 0x8002, ⟨false, false, false, false, false, false⟩⟩ := by decide

theorem test_nopAbs_V213 :
    registersAfter (begin 0x8000 [0x0C, 0x02, 0x20] [] id) =
      some ⟨0x00, 0x00, 0x00, 0xFD, 0x8003, ⟨false, false, false, false, false, false⟩⟩ := by decide

theorem test_nopAbsx_V214 :
    registersAfter (begin 0x8000 [0x1C, 0xF8, 0x20] [] fun c => { c with x := 0x10 }) =
      some ⟨0x00, 0x10, 0x00, 0xFD, 0x8003, ⟨false, false, false, false, false, false⟩⟩ := by decide

theorem test_nopAbsx_bus_V214 :
    busAfter (begin 0x8000 [0x1C, 0xF8, 0x20] [] fun c => { c with x := 0x10 }) =
      some [.read 0x8000, .read 0x8001, .read 0x8002, .read 0x2008, .read 0x2108] := by decide

/-! ## The scenarios of Part 3, one step each -/

/-- S-IRQ: the NOP's poll sees the line. -/
theorem test_irq_polled : latchesAfter ((scene [0xEA, 0xEA] id).withLines false true false) = some (false, true, false) := by
  decide

/-- S-IRQ: the sequence, cycles 3 to 9. -/
theorem test_irq_sequence :
    busAfter ((scene [0xEA, 0xEA] fun c => { c with pc := 0x8001 }).withLatches false true false) =
      some [.read 0x8001, .read 0x8001, .write 0x01FD 0x80, .write 0x01FC 0x01, .write 0x01FB 0x20, .read 0xFFFE,
        .read 0xFFFF] := by decide

/-- S-MASK. -/
theorem test_irq_masked :
    latchesAfter ((scene [0xEA] fun c => { c with p := { noFlags with i := true } }).withLines false true false) =
      some (false, false, false) := by decide

/-- S-CLI, cycles 1 and 2; S-SEI; S-PLP, cycles 1 to 4; S-RTI, cycles 1 to 6. -/
theorem test_cli_delays :
    latchesAfter ((scene [0x58] fun c => { c with p := { noFlags with i := true } }).withLines false true false) =
      some (false, false, false) := by decide
theorem test_sei_does_not_stop :
    latchesAfter ((scene [0x78] id).withLines false true false) = some (false, true, false) := by decide
theorem test_plp_delays :
    latchesAfter ((scene [0x28] fun c => { c with s := 0xFC, p := { noFlags with i := true } }).withLines false true false) =
      some (false, false, false) := by decide
theorem test_rti_takes_effect_at_once :
    latchesAfter ((scene [0x40] fun c => { c with s := 0xFA, p := { noFlags with i := true } }).withLines false true false) =
      some (false, true, false) := by decide

/-- S-NMI: an edge after the poll is latched and waits; the sequence goes to $A000 with I = 1 in the pushed byte. -/
theorem test_nmi_edge_after_the_poll :
    latchesAfter ((scene [0xEA] id).withInputs [idle, at' true false false]) = some (true, false, false) := by decide
theorem test_nmi_sequence :
    busAfter ((scene [0xEA] fun c => { c with pc := 0x8002, p := { noFlags with i := true } }).withLatches true true false) =
      some [.read 0x8002, .read 0x8002, .write 0x01FD 0x80, .write 0x01FC 0x02, .write 0x01FB 0x24, .read 0xFFFA,
        .read 0xFFFB] := by decide

/-- S-HIJACK-1 to 4: the edge in BRK's cycle 1, 2 and 3, and 3 with the other window. -/
theorem test_hijack_1 : pcAfter ((scene [0x00] id).withInputs [at' true false false]) = some 0xA000 := by decide
theorem test_hijack_2 : pcAfter ((scene [0x00] id).withInputs [idle, at' true false false]) = some 0xA000 := by decide
theorem test_hijack_3 : pcAfter ((scene [0x00] id).withInputs [idle, idle, at' true false false]) = some 0x9000 := by decide
theorem test_hijack_3_stays_pending :
    latchesAfter ((scene [0x00] id).withInputs [idle, idle, at' true false false]) = some (true, false, false) := by decide
theorem test_hijack_4 :
    pcAfter (((scene [0x00] id).withInputs [idle, idle, at' true false false]).withConfig
      fun c => { c with hijackWindow := .four }) = some 0xA000 := by decide

/-- S-HIJACK-IRQ: the IRQ sequence takes $FFFA, B = 0 pushed. -/
theorem test_hijack_irq :
    busAfter (((scene [0xEA] fun c => { c with pc := 0x8001 }).withLatches false true false).withInputs [at' true true false]) =
      some [.read 0x8001, .read 0x8001, .write 0x01FD 0x80, .write 0x01FC 0x01, .write 0x01FB 0x20, .read 0xFFFA,
        .read 0xFFFB] := by decide

/-- A branch from `s` with `irq_line` = 1 only in cycle `k`, and whether the interrupt is requested after it. -/
def branchSees (s : State) (poll : BranchPoll) (k : Nat) : Option Bool :=
  (latchesAfter ((s.withInputs (List.replicate (k - 1) idle ++ [at' false true false] ++ List.replicate 4 idle)).withConfig
    fun c => { c with branchPoll := poll })).map fun l => l.2.1

/-- S-BRANCH, the three tables. -/
theorem test_branch_doc :
    [1, 2, 3].map (branchSees (code [0xD0, 0x02]) .doc) = [some false, some true, some false] := by decide
theorem test_branch_nesdev :
    [1, 2, 3].map (branchSees (code [0xD0, 0x02]) .nesdev) = [some true, some false, some false] := by decide
theorem test_branch_crossing :
    [1, 2, 3, 4].map (branchSees (begin 0x80FC [0xD0, 0x02] [] id) .doc) =
      [some true, some false, some true, some false] := by decide
theorem test_branch_not_taken :
    [1, 2].map (branchSees (begin 0x8000 [0xD0, 0x02] [] fun c => { c with p := { noFlags with z := true } }) .doc) =
      [some true, some false] := by decide

/-- S-PULSE: a line released before the poll is never seen. -/
theorem test_irq_pulse :
    latchesAfter ((scene [0xAD, 0x00, 0x02] id).withInputs [at' false true false, at' false true false, idle, idle]) =
      some (false, false, false) := by decide

/-- S-RESET: the instruction completes with both writes and the latch is set. -/
theorem test_reset_mid_instruction :
    busAfter ((begin 0x8000 [0xEE, 0x00, 0x02] [(0x0200, 0x41)] id).withInputs [idle, idle, at' false false true]) =
      some [.read 0x8000, .read 0x8001, .read 0x8002, .read 0x0200, .write 0x0200 0x41, .write 0x0200 0x42] := by decide
theorem test_reset_latched :
    latchesAfter ((begin 0x8000 [0xEE, 0x00, 0x02] [(0x0200, 0x41)] id).withInputs
      [idle, idle, at' false false true, idle, idle, idle]) = some (false, false, true) := by decide

/-- S-RESET: the sequence, cycles 7 to 13. -/
theorem test_reset_sequence :
    registersAfter ((scene [0xEA] fun c => { c with a := 0x12, p := { noFlags with c := true } }).withLatches false false true) =
      some ⟨0x12, 0x00, 0x00, 0xFA, 0xC000, ⟨false, false, false, true, false, true⟩⟩ := by decide

/-- S-RESET-INT: reset wins and discards the other two; the line stays high, so no new edge. -/
theorem test_reset_discards :
    let s := (scene [0xEA] id).withLatches true true true
    latchesAfter { s with irq := { s.irq with nmiPrev := true }, bus := { s.bus with lines := ⟨true, true, false⟩ } } =
      some (false, false, false) := by decide

/-- S-POWER. -/
theorem test_power_on :
    registersAfter ((State.powerOn).placeBytes 0xFFFC [0x00, 0x80]) =
      some ⟨0x00, 0x00, 0x00, 0xFD, 0x8000, ⟨false, false, false, true, false, false⟩⟩ := by decide
theorem test_power_on_bus :
    busAfter State.powerOn =
      some [.read 0x0000, .read 0x0000, .read 0x0100, .read 0x01FF, .read 0x01FE, .read 0xFFFC, .read 0xFFFD] := by decide

/-- S-STALL: two stall cycles between INC's read and its dummy write, an NMI edge in them. -/
theorem test_stall :
    let up : Stall := ⟨none, ⟨true, false, false⟩, []⟩
    (nextOf (step ((begin 0x8000 [0xEE, 0x00, 0x02] [(0x0200, 0x7F)] id).withInputs
      [idle, idle, idle, idle, ⟨[up, up], .memory, ⟨true, false, false⟩, []⟩]))).map
        (fun t => (t.cyc, t.irq.nmiPending, t.irq.intReq, t.peek 0x0200)) = some (8, true, true, 0x80) := by decide

/-- The state a stop for an unlisted value carries. -/
def stoppedAt (o : Host.Outcome State Fault Refusal) : Option State :=
  match o with
  | .refused (.unlistedOpcode u) => some u
  | .fault (.jammed u) => some u
  | .refused _ | .fault _ | .next _ => none

/-- S-REFUSE: after the NOP the fetch of $02 has been performed, `PC` stands at $8002, three cycles are counted. -/
theorem test_unlisted_refused :
    ((nextOf (step (code [0xEA, 0x02]))).bind fun t => stoppedAt (step t)).map
      (fun u => (u.cpu.pc, u.cpu.ir, u.cyc, u.bus.log)) = some (0x8002, 0x02, 3, [.read 0x8001 0x02]) := by decide
theorem test_unlisted_refused_cycle :
    ((nextOf (step (code [0xEA, 0x02]))).bind fun t => stoppedAt (cycle t)).map (fun u => (u.cpu.pc, u.cpu.ir, u.cyc)) =
      some (0x8002, 0x02, 3) := by decide

/-! ## The bus and the one-cycle machine, from the rules -/

/-- R52: an unmapped read returns the last byte on the bus, here the operand's high byte. -/
theorem test_open_bus :
    registersAfter ((code [0xAD, 0x18, 0x40]).withInputs [idle, idle, idle, ⟨[], .unmapped, ⟨false, false, false⟩, []⟩]) =
      some ⟨0x40, 0x00, 0x00, 0xFD, 0x8003, noFlags⟩ := by decide

/-- R51, R58: a write to a device reaches no memory cell. -/
theorem test_device_write :
    (nextOf (step ((begin 0x8000 [0x8D, 0x00, 0x20] [] fun c => { c with a := 0x42 }).withInputs
      [idle, idle, idle, ⟨[], .device 0x00, ⟨false, false, false⟩, []⟩]))).map (fun t => t.peek 0x2000) = some 0x00 := by decide

/-- R54: a byte stored at $1FFF answers at $07FF under the console's map. -/
theorem test_mirror :
    (nextOf (step ((begin 0x8000 [0x8D, 0xFF, 0x1F] [] fun c => { c with a := 0x42 }).withConfig
      fun c => { c with map := .console }))).map (fun t => t.peek 0x07FF) = some 0x42 := by decide

/-- R66, R110: STA zero page one cycle at a time: after two cycles the next transaction is the write. -/
theorem test_next_kind :
    ((nextOf (cycle (code [0x85, 0x10]))).bind fun t => nextOf (cycle t)).map (fun t => (t.cpu.t, t.nextKind)) =
      some (3, .write) := by decide

/-- R29, R55, R123: LDA $1234 taken up by a step in cycle 2, and in cycle 3: the high byte is the byte its own cycle reads. -/
theorem test_taken_up :
    let s := begin 0x8000 [0xAD, 0x34, 0x12] [(0x1234, 0x42), (0x3434, 0x99), (0x1212, 0x98)] id
    ((nextOf (cycle s)).bind fun t => registersAfter t) = some ⟨0x42, 0x00, 0x00, 0xFD, 0x8003, noFlags⟩ ∧
    (((nextOf (cycle s)).bind fun t => nextOf (cycle t)).bind fun t => registersAfter t) =
      some ⟨0x42, 0x00, 0x00, 0xFD, 0x8003, noFlags⟩ := by decide

/-- R221, R137: JMP ($02FF) taken up in cycle 2. -/
theorem test_taken_up_jmp :
    ((nextOf (cycle (begin 0x8000 [0x6C, 0xFF, 0x02] [(0x02FF, 0x34), (0x0200, 0x12), (0x0300, 0x99)] id))).bind pcAfter) =
      some 0x1234 := by decide

/-- R59 (b): a byte another agent has stored in a stall cycle, and between two cycles, is what the core reads. -/
theorem test_other_agents_store :
    let loaded := fun a => some (Regs.mk a 0x00 0x00 0xFD 0x8003 { noFlags with n := true })
    registersAfter ((code [0xAD, 0x00, 0x03]).withInputs crowd) = loaded 0x99 ∧
    registersAfter ((code [0xAD, 0x01, 0x03]).withInputs crowd) = loaded 0x97 := by
  decide

/-! ## The other admitted policy (93 U1 to U9) -/

def conventional (s : State) : State := s.withConfig fun c => { c with unlisted := .conventional }

theorem test_conventional_kil :
    (stoppedAt (step (conventional (code [0x02])))).map (fun u => (u.cpu.pc, u.cpu.ir)) = some (0x8001, 0x02) := by decide
theorem test_conventional_usbc :
    registersAfter (conventional (begin 0x8000 [0xEB, 0xF0] [] fun c => { c with a := 0x50, p := { noFlags with c := true } })) =
      some ⟨0x60, 0x00, 0x00, 0xFD, 0x8002, noFlags⟩ := by decide
theorem test_conventional_shx :
    busAfter (conventional (begin 0x8000 [0x9E, 0x00, 0x03] [] fun c => { c with x := 0xFE, y := 0x01 })) =
      some [.read 0x8000, .read 0x8001, .read 0x8002, .read 0x0301, .write 0x0301 0x04] := by decide
theorem test_conventional_las :
    registersAfter (conventional (begin 0x8000 [0xBB, 0x00, 0x03] [(0x0300, 0xF3)] fun c => { c with s := 0x3F })) =
      some ⟨0x33, 0x33, 0x00, 0x33, 0x8003, noFlags⟩ := by decide
theorem test_conventional_tas :
    busAfter (conventional (begin 0x8000 [0x9B, 0x00, 0x06] [] fun c => { c with a := 0xF7, x := 0x3F })) =
      some [.read 0x8000, .read 0x8001, .read 0x8002, .read 0x0600, .write 0x0600 0x07] := by decide

/-! ## Witnesses: states and operands that meet a statement's hypotheses -/

/-- The outcome of an instruction that completes, as the statements' hypotheses have it. -/
theorem completes (i : Instr) (s : State) (h : isUnlisted i = false) : ∃ t, exec i s = .next t := by
  cases i <;> first | exact ⟨_, rfl⟩ | cases h

theorem witness_DecodeReadsEncode : (Instr.lda (.mem (.absx 0xFFFF))).wellFormed = true := by decide
theorem witness_EncodeRestoresTheBytes : decode [0x9D, 0xFF, 0x20, 0x00] = .ok (.sta (.absx 0x20FF), [0x00]) := by decide
theorem witness_StepRunsTheDecodedInstruction :
    (code [0xA9, 0x80]).quiet ∧ (code [0xA9, 0x80]).cpu.t = 1 ∧ (code [0xA9, 0x80]).noneDue ∧
    decode [(code [0xA9, 0x80]).peek 0x8000, (code [0xA9, 0x80]).peek 0x8001, (code [0xA9, 0x80]).peek 0x8002] =
      .ok (.lda (.imm 0x80), [0x00]) := by decide
/-- A first cycle of a three-byte instruction, and its second: each is followed by more. -/
theorem witness_StepIsItsCycles :
    let s := (code [0xAD, 0x34, 0x12]).withInputs crowd
    (∃ t, step s = .next t) ∧ (∃ u t, cycle s = .next u ∧ u.cpu.t ≠ 1 ∧ step u = .next t) ∧
      ∃ u v, cycle s = .next u ∧ cycle u = .next v ∧ v.cpu.t ≠ 1 :=
  ⟨⟨_, rfl⟩, ⟨_, _, rfl, by decide, rfl⟩, _, _, rfl, rfl, by decide⟩
theorem witness_EveryStepKeepsTheInvariant : (code [0xEA]).Inv ∧ ∃ t, step (code [0xEA]) = .next t := ⟨by decide, _, rfl⟩
theorem witness_OnlyUnlistedOpcodesStop :
    (code [0xEA]).atBoundary ∧ ∀ (i : Instr) (u : State), plan (code [0xEA]) = .instruction i u → isUnlisted i = false := by
  refine ⟨by decide, fun i u h => ?_⟩
  have e : (match plan (code [0xEA]) with
    | .instruction i _ => isUnlisted i
    | .resume _ | .reset _ | .interrupt _ | .undecoded => false) = false := by decide
  rwa [h] at e
theorem witness_AdmittedInstructionsComplete : isUnlisted (.axs 0xFF) = false := by decide
theorem witness_ResetSequence :
    let s := (scene [0xEA] id).withLatches true true true
    s.quiet ∧ s.cpu.t = 1 ∧ s.irq.resetPending = true := by decide
theorem witness_ResetPreservesMemory :
    let s := (scene [0xEA] id).withInputs [⟨[⟨none, ⟨false, false, true⟩, []⟩], .device 0x00, ⟨true, true, false⟩, [(0x0300, 0x99)]⟩]
    s.cpu.t = 1 ∧ s.beginStep.irq.resetPending = true := by decide
theorem witness_InterruptSequence_irq :
    let s := (scene [0xEA] id).withLatches false true false
    s.quiet ∧ s.cpu.t = 1 ∧ s.irq.resetPending = false ∧ s.irq.intReq = true ∧
      (s.irq.nmiPending || (s.bus.lines.nmi && !s.irq.nmiPrev)) = false := by decide
theorem witness_InterruptSequence_nmi :
    let s := ((scene [0xEA] id).withLatches false true false).withLines true false false
    s.quiet ∧ s.cpu.t = 1 ∧ s.irq.resetPending = false ∧ s.irq.intReq = true ∧
      (s.irq.nmiPending || (s.bus.lines.nmi && !s.irq.nmiPrev)) = true := by decide
theorem witness_BrkSequence : (scene [0x00] id).quiet ∧ ((scene [0x00] id).withLines true false false).quiet := by decide

/-- Seven cycles with one NMI edge, in cycle `k`. -/
def edgeIn (k : Nat) : List CycleInput := List.replicate (k - 1) idle ++ List.replicate (8 - k) (at' true false false)

theorem witness_HijackWindow_early :
    let s := (scene [0x00] id).withInputs (edgeIn 2)
    7 ≤ s.bus.inputs.length ∧ (∃ t, exec .brk s = .next t) ∧ risingEdge false (nmiSamples (s.bus.inputs.take 2)) = true :=
  ⟨by decide, completes _ _ rfl, by decide⟩
theorem witness_HijackWindow_late :
    let s := { (scene [0xEA] id).withInputs (edgeIn 3) with cpu := { (scene [0xEA] id).cpu with seq := .int } }
    7 ≤ s.bus.inputs.length ∧ (s.cpu.t = 1 ∧ s.cpu.seq = .int ∧ ∃ t, takeTrap .int s = .next t) ∧
      risingEdge false (nmiSamples (s.bus.inputs.take 2)) = false ∧
      risingEdge (lastLevel false (nmiSamples (s.bus.inputs.take 2))) (nmiSamples ((s.bus.inputs.take 7).drop 2)) = true :=
  ⟨by decide, ⟨by decide, by decide, _, rfl⟩, by decide, by decide⟩
theorem witness_SequencesDoNotPoll_brk : ∃ t, exec .brk ((scene [0x00] id).withLines false true false) = .next t :=
  completes _ _ rfl
theorem witness_SequencesDoNotPoll_int :
    let s := ((scene [0xEA] id).withLatches false true false).withInputs noise
    s.cpu.t = 1 ∧ s.beginStep.boundary.cpu.seq ≠ .instr ∧ ∃ t, step s = .next t := ⟨by decide, by decide, _, rfl⟩
theorem witness_SequencesDoNotPoll_reset :
    let s := (scene [0xEA] id).withLatches false true true
    s.cpu.t = 1 ∧ s.beginStep.boundary.cpu.seq ≠ .instr ∧ ∃ t, step s = .next t := ⟨by decide, by decide, _, rfl⟩
theorem witness_LatchesAfterAnInstruction :
    let s := (scene [0x40] id).withLines true true true
    s.quiet ∧ Instr.rti ≠ .brk ∧ (∃ t, exec .rti s = .next t) ∧ ∃ t, exec .nop s = .next t :=
  ⟨by decide, by decide, completes _ _ rfl, completes _ _ rfl⟩
theorem witness_IFlagDelay_set :
    let s := (scene [0x58] fun c => { c with p := { noFlags with i := true } }).withLines false true false
    s.quiet ∧ s.nmiSilent ∧ s.bus.lines.irq = true ∧ s.irq.intReq = false ∧ s.cpu.p.i = true := by decide
theorem witness_IFlagDelay_next :
    ∃ t u, exec .cli ((scene [0x58] fun c => { c with p := { noFlags with i := true } }).withLines false true false) = .next t ∧
      exec .nop t = .next u := ⟨_, _, rfl, rfl⟩
theorem witness_IFlagDelay_clear :
    let s := (scene [0x78] id).withLines false true false
    s.quiet ∧ s.nmiSilent ∧ s.bus.lines.irq = true ∧ s.irq.intReq = false ∧ s.cpu.p.i = false := by decide
/-- Taken within the page, taken across it (the boundary offset 2 from next = $80FE), and not taken. -/
theorem witness_BranchPollPoints :
    (∀ r, branchOf (.bne r) = some (fun p => !p.z, r)) ∧
    (∃ t, exec (.bne 0x02) ((code [0xD0, 0x02]).withInputs [idle, at' false true false, idle, idle]) = .next t) ∧
    branchCrosses 0x8002 0x02 = false ∧ branchCrosses 0x80FE 0x01 = false ∧ branchCrosses 0x80FE 0x02 = true :=
  ⟨fun _ => rfl, completes _ _ rfl, by decide, by decide, by decide⟩
theorem witness_StallsAndLinesChangeNoResult :
    let s := (code [0xEE, 0x00, 0x02]).withInputs noise
    s.memoryAnswers ∧ Instr.inc (.abs 0x0200) ≠ .brk ∧ ∃ t, exec (.inc (.abs 0x0200)) s = .next t :=
  ⟨by decide, by decide, completes _ _ rfl⟩
theorem witness_MemoryIsTheWritesReplayed :
    let s := (code [0x8D, 0x00, 0x03]).withInputs crowd
    s.memoryServes ∧ ¬s.alone ∧ ∃ t newer older, step s = .next t ∧ t.bus.log = newer ++ .read 0x8002 0x03 :: older :=
  ⟨by decide, by decide, _, [.write 0x0300 0x00], _, rfl, rfl⟩
theorem witness_UnwrittenAddressesKeepTheirBytes :
    let s := begin 0x8000 [0x8D, 0x00, 0x02] [(0x0201, 0x99)] fun c => { c with a := 0x42 }
    (∃ t, step s = .next t) ∧
      busAfter s = some [.read 0x8000, .read 0x8001, .read 0x8002, .write 0x0200 0x42] ∧
      cellOf s.cfg.map 0x0200 ≠ cellOf s.cfg.map 0x0201 := ⟨⟨_, rfl⟩, by decide, by decide⟩
theorem witness_CycCountsEveryCycle_plain :
    let s := (code [0xEA]).withInputs noise
    (∃ t, step s = .next t) ∧ ¬(s.cpu.t = 1 ∧ s.beginStep.irq.resetPending = true) := ⟨⟨_, rfl⟩, by decide⟩
theorem witness_CycCountsEveryCycle_reset :
    let s := ((code [0xEA]).withInputs noise).withLatches false false true
    (∃ t, step s = .next t) ∧ (s.cpu.t = 1 ∧ s.beginStep.irq.resetPending = true) := ⟨⟨_, rfl⟩, by decide⟩
theorem witness_LatchIsTheLastByte : ∃ t, step (code [0xA9, 0x80]) = .next t := ⟨_, rfl⟩
theorem witness_FirstCycleIsTheFetch : ∃ t, exec (.lda (.imm 0x80)) (code [0xA9, 0x80]) = .next t := completes _ _ rfl
/-- With and without the page-cross cycle, at the last address of the page. -/
theorem witness_CycleCounts :
    let s := (begin 0x8000 [0xBD, 0xF0, 0x20] [] fun c => { c with x := 0x0F }).withInputs noise
    s.memoryAnswers ∧ (∃ t, exec (.lda (.mem (.absx 0x20F0))) s = .next t) ∧
      cycleCount (.lda (.mem (.absx 0x20F0))) s.cpu s.peek = 4 ∧ cycleCount (.lda (.mem (.absx 0x20F1))) s.cpu s.peek = 5 :=
  ⟨by decide, completes _ _ rfl, by decide, by decide⟩
theorem witness_NextKindIsRight : ∃ t, cycle (code [0xEA]) = .next t := ⟨_, rfl⟩
/-- The last address of the mirrored RAM, and the first one after it. -/
theorem witness_RamIsMirrored :
    let s := (code [0x8D, 0xFF, 0x1F]).withConfig fun c => { c with map := .console }
    s.cfg.map = .console ∧ s.memoryAnswers ∧ Memory.wf s.bus.mem = true ∧ (s.address (.abs 0x1FFF)).toNat < 0x2000 ∧
      ¬(s.address (.abs 0x2000)).toNat < 0x2000 ∧ (0x07FF : Word).toNat % 0x0800 = (s.address (.abs 0x1FFF)).toNat % 0x0800 := by
  decide
theorem witness_FlagsFrame : ∃ t, exec (.adc (.imm 0xFF)) ((code [0x69, 0xFF]).withInputs noise) = .next t := completes _ _ rfl
theorem witness_RegistersFrame : ∃ t, exec .pla ((code [0x68]).withInputs noise) = .next t := completes _ _ rfl
/-- Alone, and in a crowd whose stores are all to other addresses. -/
theorem witness_MemoryFrame :
    writesMemory (.cmp (.imm 0xFF)) = false ∧ (∃ t, exec (.cmp (.imm 0xFF)) (code [0xC9, 0xFF]) = .next t) ∧
    ∃ t, exec (.cmp (.imm 0xFF)) ((code [0xC9, 0xFF]).withInputs crowd) = .next t ∧
      t.bus.log.filter (fun c => c.op?.isNone && c != .stall) =
        [.other 0x0301 0x97, .other 0x0301 0x98, .other 0x0300 0x99] :=
  ⟨by decide, completes _ _ rfl, _, rfl, by decide⟩
/-- What the statements about every environment say more where the core is alone. -/
theorem witness_alone : ((code [0xEA]).withInputs noise).alone := by decide
theorem witness_DecimalFlagIsInert :
    Instr.adc (.imm 0x19) ∉ [Instr.php, .brk, .plp, .rti, .cld, .sed] ∧
      ∃ t, exec (.adc (.imm 0x19)) (code [0x69, 0x19]) = .next t := ⟨by decide, completes _ _ rfl⟩

/-- The hypothesis of every result statement, met in silence and in noise; a device or another agent's store does not meet it. -/
theorem witness_memoryAnswers : (code [0xEA]).memoryAnswers ∧ ((code [0xEA]).withInputs noise).memoryAnswers ∧
    ¬((code [0xEA]).withInputs crowd).memoryAnswers := by decide
theorem witness_LoadsRun : ((code [0xBD, 0xF0, 0x20]).withInputs noise).memoryAnswers := by decide
theorem witness_StoresRun : ((code [0x91, 0xFF]).withInputs noise).memoryAnswers := by decide
theorem witness_AddAndSubtractRun : ((code [0x71, 0xFF]).withInputs noise).memoryAnswers := by decide
theorem witness_LogicRuns : ((code [0x5D, 0xFF, 0x02]).withInputs noise).memoryAnswers := by decide
theorem witness_ComparesRun : ((code [0x2C, 0x02, 0x20]).withInputs noise).memoryAnswers := by decide
theorem witness_ShiftsRun :
    (Instr.ror, ror8) ∈ [(Instr.asl, asl8), (Instr.lsr, lsr8), (Instr.rol, rol8), (Instr.ror, ror8)] ∧
      ((code [0x7E, 0xFF, 0x02]).withInputs noise).memoryAnswers ∧ Memory.wf (code [0x7E, 0xFF, 0x02]).bus.mem = true :=
  ⟨by simp, by decide, by decide⟩
theorem witness_MemoryCountsRun :
    ((code [0xFE, 0xFF, 0x02]).withInputs noise).memoryAnswers ∧ Memory.wf (code [0xFE, 0xFF, 0x02]).bus.mem = true := by decide
theorem witness_CombinedReadModifyWritesRun :
    ((code [0x73, 0xFF]).withInputs noise).memoryAnswers ∧ Memory.wf (code [0x73, 0xFF]).bus.mem = true := by decide
theorem witness_JumpsRun : ((code [0x6C, 0xFF, 0x02]).withInputs noise).memoryAnswers := by decide
/-- The target's high byte out of the pushes' reach. -/
theorem witness_CallAndReturnRun :
    let s := code [0x20, 0x34, 0x12]
    s.memoryAnswers ∧ s.peek (s.cpu.pc + 2) = hiByte 0x1234 ∧
      cellOf s.cfg.map (s.cpu.pc + 2) ≠ cellOf s.cfg.map (stackAddr s.cpu.s) ∧
      cellOf s.cfg.map (s.cpu.pc + 2) ≠ cellOf s.cfg.map (stackAddr (s.cpu.s - 1)) := by decide
theorem witness_ReturnUndoesCall :
    (code [0x20, 0x34, 0x12]).memoryAnswers ∧ Memory.wf (code [0x20, 0x34, 0x12]).bus.mem = true ∧
      ∃ t u, exec (.jsr 0x1234) (code [0x20, 0x34, 0x12]) = .next t ∧ exec .rts t = .next u :=
  ⟨by decide, by decide, _, _, rfl, rfl⟩
theorem witness_PushesAndPullsRun :
    ((begin 0x8000 [0x48] [] fun c => { c with s := 0x00 }).withInputs noise).memoryAnswers := by decide
theorem witness_ReturnFromInterruptRuns :
    ((begin 0x8000 [0x40] [] fun c => { c with s := 0xFE }).withInputs noise).memoryAnswers := by decide
theorem witness_ReturnUndoesInterrupt_int :
    let s := { code [0xEA] with cpu := { (code [0xEA]).cpu with seq := .int } }
    s.memoryAnswers ∧ Memory.wf s.bus.mem = true ∧ s.cpu.t = 1 ∧ s.cpu.seq = .int ∧
      ∃ t u, takeTrap .int s = .next t ∧ exec .rti t = .next u := ⟨by decide, by decide, by decide, by decide, _, _, rfl, rfl⟩
theorem witness_ReturnUndoesInterrupt_brk :
    (code [0x00]).memoryAnswers ∧ Memory.wf (code [0x00]).bus.mem = true ∧ (code [0x00]).cpu.t = 1 ∧
      ∃ t u, exec .brk (code [0x00]) = .next t ∧ exec .rti t = .next u := ⟨by decide, by decide, by decide, _, _, rfl, rfl⟩
theorem witness_UnlistedOpcodesAreRefused : isUnlisted (.kil 11) = true ∧ (code [0xF2]).cfg.unlisted = .refuse := by decide
/-- With the page crossed (the free page) and not crossed, at the last address of the page. -/
theorem witness_UnlistedOpcodesConventionally :
    let s := conventional (begin 0x8000 [0x9E, 0xF0, 0x20] [] fun c => { c with y := 0x0F })
    s.memoryAnswers ∧ s.cfg.unlisted = .conventional ∧ pageCross (.absy 0x20F0) s.cpu s.peek = false ∧
      pageCross (.absy 0x20F1) s.cpu s.peek = true := by decide

end Sys2Proof.Tests
end

section
/-! PROOFS. The scope (00_scope R11, R51): admitted instructions complete, and only an unlisted opcode value stops a step. -/

namespace Sys2Proof.Machine

/-! ## Three bytes are always an instruction -/

theorem length_mapRow : ∀ n < 16, (mapRow n).length = 16 := by decide

/-- Every opcode value is in the map (R86). -/
theorem exists_entryOf (op : Byte) : ∃ e, entryOf op = some e := by
  have hcol : op.toNat % 16 < (mapRow (op.toNat / 16)).length := by
    rw [length_mapRow _ (by omega)]
    exact Nat.mod_lt _ (by decide)
  exact ⟨_, List.getElem?_eq_getElem hcol⟩

/-- No instruction is longer than three bytes (R80). -/
theorem exists_decodeInstr_three (op b c : Byte) (rest : List Byte) : ∃ i, decodeInstr (op :: b :: c :: rest) = some i := by
  obtain ⟨e, he⟩ := exists_entryOf op
  cases e with
  | one i => exact ⟨i, by simp [decodeInstr, decode, he]⟩
  | two f => exact ⟨f b, by simp [decodeInstr, decode, he]⟩
  | three f => exact ⟨f (join c b), by simp [decodeInstr, decode, he]⟩

theorem State.exists_fetched (s : State) : ∃ i, s.fetched = some i := exists_decodeInstr_three _ _ _ []

/-! ## The decision at a boundary -/

/-- At a boundary a step is a reset sequence, an interrupt sequence or an instruction (R112): the decoder rejects nothing. -/
theorem plan_of_t_eq_one {s : State} (h : s.cpu.t = 1) :
    (∃ u, plan s = .reset u) ∨ (∃ u, plan s = .interrupt u) ∨ ∃ i u, plan s = .instruction i u := by
  simp only [plan, State.beginStep_cpu, if_pos h]
  cases s.beginStep.boundary.cpu.seq with
  | reset => exact .inl ⟨_, rfl⟩
  | int => exact .inr (.inl ⟨_, rfl⟩)
  | instr =>
    obtain ⟨i, hi⟩ := s.beginStep.boundary.exists_fetched
    exact .inr (.inr ⟨i, s.beginStep.boundary, by simp only [hi]⟩)

/-! ## Admitted instructions -/

/-- Settles O10: an admitted instruction runs its cycle table, and a table run from its first row ends at a boundary. -/
theorem admittedInstructionsComplete : Obligations.AdmittedInstructionsComplete := by
  intro i s hi
  have htable : tableLike (rowsOf i) := tableLike_rowsOf (by rintro k rfl; cases hi)
  exact ⟨_, exec_admitted hi s, perform_boundary htable (Nat.le_refl 1), perform_cfg _ _⟩

/-- Settles O9: by the decision at the boundary. The sequences have no outcome but a next state, and an admitted instruction
completes. -/
theorem onlyUnlistedOpcodesStop : Obligations.OnlyUnlistedOpcodesStop := by
  intro s hb hlisted
  obtain ⟨u, hp⟩ | ⟨u, hp⟩ | ⟨i, u, hp⟩ := plan_of_t_eq_one hb.1
  · exact ⟨_, by rw [step, hp]; rfl⟩
  · exact ⟨_, by rw [step, hp]; rfl⟩
  · obtain ⟨t, ht, -⟩ := admittedInstructionsComplete i u (hlisted i u hp)
    exact ⟨t, by rw [step, hp]; exact ht⟩

end Sys2Proof.Machine
end

section
/-! PROOFS. What every step keeps (10_state R27, R29, R31, R50): canonical memory, the instruction boundary, the cycle count; and
the two states a machine starts in. -/

namespace Sys2Proof.Machine

/-! ## The invariant -/

/-- The stall cycles before a step's decision keep memory canonical. -/
theorem State.stepStart_wf {s : State} (h : Memory.wf s.bus.mem = true) : Memory.wf s.stepStart.bus.mem = true := by
  rw [State.stepStart_bus, State.beginStep_mem]
  exact wf_replay _ _ _ h

/-- Settles O7: every cycle keeps memory canonical, so a step does, and a completed step stands at a boundary. -/
theorem everyStepKeepsTheInvariant : Obligations.EveryStepKeepsTheInvariant := by
  intro s t hinv hstep
  exact ⟨step_keeps (P := fun u => Memory.wf u.bus.mem = true) Row.cycle_wf (State.stepStart_wf hinv.1) hstep,
    step_boundary hstep⟩

/-- Settles O8: by evaluation of two closed states. -/
theorem resetMeetsTheInvariant : Obligations.ResetMeetsTheInvariant :=
  ⟨⟨rfl, rfl, rfl⟩, rfl, rfl, rfl⟩

/-- Settles O11: by evaluation of the seven cycles of the reset sequence. -/
theorem powerOnStepIsReset : Obligations.PowerOnStepIsReset := by
  have hplan : plan State.powerOn = .reset State.powerOn.beginStep.boundary := rfl
  rw [Obligations.PowerOnStepIsReset, step, hplan]
  rfl

/-! ## The cycle count -/

/-- `n` CPU cycles after a state whose count was `c` and whose log held `k` of them, for some `n`. -/
def State.CountedFrom (c : BitVec 64) (k : Nat) (u : State) : Prop :=
  ∃ n : Nat, (cyclesOf u.bus.log).length = k + n ∧ u.cyc = c + BitVec.ofNat 64 n

/-- A cycle and the stall cycles before it count each of the CPU cycles they leave in the log (R27, R65). -/
theorem Row.cycle_countedFrom {c : BitVec 64} {k : Nat} (r : Row) {u : State} (h : u.CountedFrom c k) :
    (r.cycle u).CountedFrom c k := by
  obtain ⟨n, hlog, hcyc⟩ := h
  refine ⟨n + u.bus.stalls.length + 1, ?_, ?_⟩
  · simp only [Row.cycle_cyclesOf, List.length_cons, List.length_append, List.length_replicate, hlog]
    omega
  · simp only [Row.cycle_cyc, State.serveStalls_cyc, hcyc, BitVec.ofNat_add, BitVec.add_assoc]
    rfl

/-- The stall cycles before the decision are the whole log at the start of a step's cycles. -/
theorem State.stepStart_cyclesOf (s : State) : (cyclesOf s.stepStart.bus.log).length = s.bus.stalls.length := by
  simp [State.stepStart_bus, State.beginStep_log]

/-- The decision at a boundary restarts the count for a reset, and for nothing else (R112). -/
theorem State.boundary_cyc (s : State) : s.boundary.cyc = if s.irq.resetPending then 0 else s.cyc := by
  unfold State.boundary
  split
  · rfl
  · split <;> rfl

/-- The count at the start of a step's cycles: the stall cycles have counted, unless a reset restarts it. -/
theorem State.stepStart_cyc (s : State) :
    s.stepStart.cyc =
      if s.cpu.t = 1 ∧ s.beginStep.irq.resetPending = true then 0
      else s.cyc + BitVec.ofNat 64 s.bus.stalls.length := by
  have hbegin : s.beginStep.cyc = s.cyc + BitVec.ofNat 64 s.bus.stalls.length := State.serveStalls_cyc _
  unfold State.stepStart
  by_cases ht : s.cpu.t = 1
  · rw [if_pos ht, State.boundary_cyc, hbegin]
    simp only [ht, true_and]
  · rw [if_neg ht, hbegin, if_neg fun h => ht h.1]

theorem Bus.length_stalls (b : Bus) : b.stalls.length = ((b.inputs.head?).map fun i => i.stalls.length).getD 0 := by
  unfold Bus.stalls
  cases b.inputs <;> rfl

/-- Settles O26: the cycles count from where the decision leaves the count, the stall cycles before it already logged. -/
theorem cycCountsEveryCycle : Obligations.CycCountsEveryCycle := by
  intro s t hstep
  have hstart : s.stepStart.CountedFrom s.stepStart.cyc s.bus.stalls.length :=
    ⟨0, s.stepStart_cyclesOf, by simp⟩
  obtain ⟨n, hlog, hcyc⟩ := step_keeps (fun r _ => r.cycle_countedFrom) hstart hstep
  simp only [← Bus.length_stalls, hcyc, hlog, State.stepStart_cyc, Nat.add_sub_cancel_left]
  split
  · exact BitVec.zero_add _
  · rw [BitVec.ofNat_add, BitVec.add_assoc]

end Sys2Proof.Machine
end

section
/-! PROOFS. Frames and the D flag (10_state R20, R21, R24; R180, R279): what the `then` column of every row of every table keeps,
and that D is an input of none of them but the pushes' and of those that load it. -/

namespace Sys2Proof.Machine

/-! ## Frames as equations -/

/-- The flags of `w` from `q`, the others from `p`. -/
def Flags.take (w : FlagSet) (p q : Flags) : Flags :=
  ⟨cond w.n q.n p.n, cond w.v q.v p.v, cond w.d q.d p.d, cond w.i q.i p.i, cond w.z q.z p.z, cond w.c q.c p.c⟩

/-- The byte registers of `g` from `c'`, the others from `c`; the rest of the registers from `c'`. -/
def Cpu.take (g : RegSet) (c c' : Cpu) : Cpu :=
  { c' with a := cond g.a c'.a c.a, x := cond g.x c'.x c.x, y := cond g.y c'.y c.y, s := cond g.s c'.s c.s }

theorem Flags.agreeOutside_of_take {w : FlagSet} {p q : Flags} (h : p.take w q = q) : Flags.agreeOutside w q p := by
  rw [← h]
  refine ⟨?_, ?_, ?_, ?_, ?_, ?_⟩ <;> intro hw <;> simp [Flags.take, hw]

theorem Cpu.agreeOutside_of_take {g : RegSet} {c c' : Cpu} (h : c.take g c' = c') : Cpu.agreeOutside g c' c := by
  rw [← h]
  refine ⟨?_, ?_, ?_, ?_⟩ <;> intro hg <;> simp [Cpu.take, hg]

theorem Flags.agreeOutside_trans {w : FlagSet} {p q r : Flags} (h : Flags.agreeOutside w p q)
    (h' : Flags.agreeOutside w q r) : Flags.agreeOutside w p r := by
  obtain ⟨hn, hv, hd, hi, hz, hc⟩ := h
  obtain ⟨hn', hv', hd', hi', hz', hc'⟩ := h'
  exact ⟨fun e => (hn e).trans (hn' e), fun e => (hv e).trans (hv' e), fun e => (hd e).trans (hd' e),
    fun e => (hi e).trans (hi' e), fun e => (hz e).trans (hz' e), fun e => (hc e).trans (hc' e)⟩

theorem Cpu.agreeOutside_trans {g : RegSet} {p q r : Cpu} (h : Cpu.agreeOutside g p q)
    (h' : Cpu.agreeOutside g q r) : Cpu.agreeOutside g p r := by
  obtain ⟨ha, hx, hy, hs⟩ := h
  obtain ⟨ha', hx', hy', hs'⟩ := h'
  exact ⟨fun e => (ha e).trans (ha' e), fun e => (hx e).trans (hx' e), fun e => (hy e).trans (hy' e),
    fun e => (hs e).trans (hs' e)⟩

/-! ## Another D -/

/-- The registers with another D flag. -/
def Cpu.withD (c : Cpu) (b : Bool) : Cpu := { c with p := { c.p with d := b } }

section
variable (c : Cpu) (b : Bool)

@[simp] theorem Cpu.withD_cross : (c.withD b).cross = c.cross := rfl

theorem Cpu.withD_advance (last : Bool) : (c.withD b).advance last = (c.advance last).withD b := by
  cases last <;> rfl

end

/-! ## What a row may do

A field's default proof is that the two sides compute to the same: `{}` is the proof for a `then` column written out. -/

/-- The change of registers keeps the flags outside `w` and the byte registers outside `g`. -/
structure Cpu.Frames (w : FlagSet) (g : RegSet) (f : Cpu → Cpu) : Prop where
  flags : ∀ c, c.p.take w (f c).p = (f c).p := by intros; rfl
  regs : ∀ c, c.take g (f c) = f c := by intros; rfl

/-- Besides, D is no input of it. -/
structure Cpu.Tame (w : FlagSet) (g : RegSet) (f : Cpu → Cpu) : Prop extends Cpu.Frames w g f where
  inert : ∀ b c, f (c.withD b) = (f c).withD b := by intros; rfl

/-- A row that selects no vector, whose `then` column is tame, and for whose transaction and marks D is no input. -/
structure Row.Tame (w : FlagSet) (g : RegSet) (r : Row) : Prop where
  selects : r.selects = false := by rfl
  bus : ∀ b c, r.bus (c.withD b) = r.bus c := by intros; rfl
  act : ∀ d, Cpu.Tame w g (r.act d) := by exact fun _ => {}
  poll : ∀ b cfg c, r.poll cfg (c.withD b) = r.poll cfg c := by intros; rfl
  last : ∀ b c, r.last (c.withD b) = r.last c := by intros; rfl

section
variable {w : FlagSet} {g : RegSet}

/-- What keeps every flag and every byte register frames anything. -/
theorem Cpu.Tame.mono {f : Cpu → Cpu} (h : Cpu.Tame {} {} f) : Cpu.Tame w g f where
  flags c := by
    have hp : (f c).p = c.p := (h.flags c).symm
    rw [hp]
    simp [Flags.take]
  regs c := by
    have hr : ({ f c with a := c.a, x := c.x, y := c.y, s := c.s } : Cpu) = f c := h.regs c
    rw [← hr]
    simp [Cpu.take]
  inert := h.inert

theorem Row.Tame.mono {r : Row} (h : r.Tame {} {}) : r.Tame w g :=
  { h with act := fun d => (h.act d).mono }

/-- A choice by the carry of the index addition. -/
theorem Cpu.Tame.ite_cross {f f' : Cpu → Cpu} (h : Cpu.Tame w g f) (h' : Cpu.Tame w g f') :
    Cpu.Tame w g fun c => if c.cross then f c else f' c where
  flags c := by cases hc : c.cross <;> simp only [if_true, Bool.false_eq_true, if_false, h.flags, h'.flags]
  regs c := by cases hc : c.cross <;> simp only [if_true, Bool.false_eq_true, if_false, h.regs, h'.regs]
  inert b c := by cases hc : c.cross <;> simp [hc, h.inert, h'.inert]

/-! ## The rows that form an address keep every flag and every byte register -/

section
variable (v : Byte) (poll : Bool)

@[simp] theorem tame_opcodeRow : (opcodeRow poll).Tame w g := .mono {}
@[simp] theorem tame_dummyPcRow : (dummyPcRow poll).Tame w g := .mono {}
@[simp] theorem tame_loRow : (loRow v poll).Tame w g := .mono {}
@[simp] theorem tame_hiRow : (hiRow v poll).Tame w g := .mono {}
@[simp] theorem tame_ptrRow : (ptrRow v).Tame w g := .mono {}
@[simp] theorem tame_ptrIndexRow : ptrIndexRow.Tame w g := .mono {}
@[simp] theorem tame_ptrLoRow : ptrLoRow.Tame w g := .mono {}
@[simp] theorem tame_ptrHiRow : (ptrHiRow poll).Tame w g := .mono {}
@[simp] theorem tame_ptrHiIndexRow : (ptrHiIndexRow poll).Tame w g := .mono {}
@[simp] theorem tame_fixupRow : (fixupRow poll).Tame w g := .mono {}

@[simp] theorem tame_zpIndexRow_x : (zpIndexRow Cpu.x poll).Tame w g := .mono {}
@[simp] theorem tame_zpIndexRow_y : (zpIndexRow Cpu.y poll).Tame w g := .mono {}
@[simp] theorem tame_zpIndexEaRow_x : (zpIndexEaRow Cpu.x).Tame w g := .mono {}
@[simp] theorem tame_zpIndexEaRow_y : (zpIndexEaRow Cpu.y).Tame w g := .mono {}
@[simp] theorem tame_hiIndexRow_x : (hiIndexRow v Cpu.x poll).Tame w g := .mono {}
@[simp] theorem tame_hiIndexRow_y : (hiIndexRow v Cpu.y poll).Tame w g := .mono {}

end

/-! ## The tables, by what they do with the operand -/

theorem tame_impliedRows {f : Cpu → Cpu} (hf : Cpu.Tame w g f) : ∀ r ∈ impliedRows f, r.Tame w g := by
  simp only [impliedRows, List.forall_mem_cons]
  exact ⟨tame_opcodeRow _, { act := fun _ => hf }, nofun⟩

theorem tame_immediateRows (v : Byte) {f : Byte → Cpu → Cpu} (hf : ∀ d, Cpu.Tame w g (f d)) :
    ∀ r ∈ immediateRows v f, r.Tame w g := by
  simp only [immediateRows, List.forall_mem_cons]
  refine ⟨tame_opcodeRow _, { act := fun _ => ?_ }, nofun⟩
  exact { flags := fun c => (hf v).flags { c with pc := c.pc + 1 }
          regs := fun c => (hf v).regs { c with pc := c.pc + 1 }
          inert := fun b c => (hf v).inert b { c with pc := c.pc + 1 } }

theorem tame_memReadRows (mo : MemOperand) {f : Byte → Cpu → Cpu} (hf : ∀ d, Cpu.Tame w g (f d)) :
    ∀ r ∈ memReadRows mo f, r.Tame w g := by
  have hzp : (readRow Cpu.zplo f).Tame w g := { act := hf }
  have hhilo : (readRow Cpu.hilo f).Tame w g := { act := hf }
  have hfixup : (fixupOrReadRow f).Tame w g := { act := fun d => .ite_cross (.mono {}) (hf d) }
  cases mo <;> simp [memReadRows, hzp, hhilo, hfixup]

theorem tame_readRows (m : ReadOperand) {f : Byte → Cpu → Cpu} (hf : ∀ d, Cpu.Tame w g (f d)) :
    ∀ r ∈ readRows m f, r.Tame w g := by
  cases m with
  | imm v => exact tame_immediateRows v hf
  | mem mo => exact tame_memReadRows mo hf

theorem tame_storeAddressRows (mo : MemOperand) : ∀ r ∈ storeAddressRows mo, r.Tame w g := by
  cases mo <;> simp [storeAddressRows]

theorem tame_storeRows (mo : MemOperand) {v : Cpu → Byte} (hv : ∀ b c, v (c.withD b) = v c) :
    ∀ r ∈ storeRows mo v, r.Tame w g := by
  have hwrite : (writeRow (storeAddress mo) v).Tame w g := by
    refine .mono { bus := fun b c => ?_ }
    cases mo <;> exact congrArg (BusOp.write _) (hv b c)
  exact List.forall_mem_append.2 ⟨tame_storeAddressRows mo, List.forall_mem_singleton.2 hwrite⟩

theorem tame_unstableStoreRows (mo : MemOperand) {v : Cpu → Byte} (hv : ∀ b c, v (c.withD b) = v c) :
    ∀ r ∈ unstableStoreRows mo v, r.Tame w g :=
  List.forall_mem_append.2 ⟨tame_storeAddressRows mo, List.forall_mem_singleton.2
    { bus := fun b c => congrArg (BusOp.write c.unstableTarget) (hv b c)
      act := fun _ => .ite_cross (.mono {}) (.mono {}) }⟩

theorem tame_rmwRows (mo : MemOperand) {f : Cpu → Byte} {ex : Cpu → Cpu} (hf : ∀ b c, f (c.withD b) = f c)
    (hex : Cpu.Tame w g ex) : ∀ r ∈ rmwRows mo f ex, r.Tame w g := by
  refine List.forall_mem_append.2 ⟨?_, ?_⟩
  · cases mo <;> simp [rmwAddressRows] <;> exact .mono {}
  · simp only [rmwTail, List.forall_mem_cons]
    exact ⟨.mono {}, .mono {}, { bus := fun b c => congrArg (BusOp.write c.ea) (hf b c), act := fun _ => hex }, nofun⟩

theorem tame_branchRows {cond : Flags → Bool} (hcond : ∀ b p, cond { p with d := b } = cond p) (rel : Byte) :
    ∀ r ∈ branchRows cond rel, r.Tame w g := by
  simp only [branchRows, List.forall_mem_cons]
  refine ⟨.mono { poll := fun b cfg c => ?_ }, .mono { act := fun _ => { inert := fun b c => ?_ } }, .mono {},
    .mono {}, nofun⟩
  · exact congrArg (pollsFirst cfg.branchPoll · (branchCrosses (c.pc + 1) rel)) (hcond b c.p)
  · simp only [Cpu.withD, hcond]

end

/-! ## The tables of the instructions -/

/-- The instructions of which D is an input or a result: PHP and BRK push it, PLP, RTI, CLD and SED load it. -/
def dUsers : List Instr := [.php, .brk, .plp, .rti, .cld, .sed]

/-- The rows of every other instruction write what the tables of R24 and of the registers list for it, and D is no input. -/
theorem tame_rowsOf {i : Instr} (hi : i ∉ dUsers) :
    ∀ r ∈ rowsOf i, r.Tame (flagsWritten i) (registersWritten i) := by
  cases i
  case php | brk | plp | rti | cld | sed => exact absurd (by simp [dUsers]) hi
  case kil => exact nofun
  case lda m | ldx m | ldy m | adc m | sbc m | and m | ora m | eor m | cmp m | cpx m | cpy m =>
    exact tame_readRows m fun _ => {}
  case bit m | lax m => exact tame_memReadRows m fun _ => {}
  case nopZp k z => exact tame_memReadRows (.zp z) fun _ => {}
  case nopZpx k z => exact tame_memReadRows (.zpx z) fun _ => {}
  case nopAbs w => exact tame_memReadRows (.abs w) fun _ => {}
  case nopAbsx k w => exact tame_memReadRows (.absx w) fun _ => {}
  case las w => exact tame_memReadRows (.absy w) fun _ => {}
  case sta m | stx m | sty m | sax m => exact tame_storeRows m fun _ _ => rfl
  case ahxIndy | ahxAbsy | shy | shx => exact tame_unstableStoreRows _ fun _ _ => rfl
  case tas w =>
    exact List.forall_mem_append.2 ⟨tame_storeAddressRows _, List.forall_mem_singleton.2 {}⟩
  case asl m | lsr m | rol m | ror m =>
    cases m with
    | acc => exact tame_impliedRows {}
    | mem mo => exact tame_rmwRows mo (fun _ _ => rfl) {}
  case inc m | dec m | dcp m | isc m | slo m | rla m | sre m | rra m => exact tame_rmwRows m (fun _ _ => rfl) {}
  case bpl r => exact tame_branchRows (cond := fun p => !p.n) (fun _ _ => rfl) r
  case bvc r => exact tame_branchRows (cond := fun p => !p.v) (fun _ _ => rfl) r
  case bcc r => exact tame_branchRows (cond := fun p => !p.c) (fun _ _ => rfl) r
  case bne r => exact tame_branchRows (cond := fun p => !p.z) (fun _ _ => rfl) r
  case bmi r | bvs r | bcs r | beq r => exact tame_branchRows (fun _ _ => rfl) r
  case anc k v | alr v | arr v | axs v | xaa v | lxa v | usbc v => exact tame_immediateRows v fun _ => {}
  case nopImm k v => exact tame_immediateRows v (f := fun _ c => c) fun _ => {}
  case tax | tay | txa | tya | tsx | txs | inx | iny | dex | dey | clc | sec | cli | sei | clv | nop | nopImp =>
    exact tame_impliedRows {}
  case jmp | jmpInd | jsr | rts | pha | pla =>
    simp only [rowsOf, jmpRows, jmpIndRows, jsrRows, rtsRows, phaRows, plaRows, pullRows, List.forall_mem_cons,
      List.not_mem_nil, false_implies, implies_true, and_true]
    and_intros <;> exact {}

/-- The `then` columns of every instruction write what the tables of R24 and of the registers list for it. -/
theorem frames_rowsOf (i : Instr) :
    ∀ r ∈ rowsOf i, ∀ d, Cpu.Frames (flagsWritten i) (registersWritten i) (r.act d) := by
  by_cases hi : i ∈ dUsers
  · simp only [dUsers, List.mem_cons, List.not_mem_nil, or_false] at hi
    obtain rfl | rfl | rfl | rfl | rfl | rfl := hi
    all_goals
      simp only [rowsOf, phpRows, brkRows, trapRows, plpRows, pullRows, rtiRows, returnRows, cldRows, sedRows,
        impliedRows, List.forall_mem_cons, List.not_mem_nil, false_implies, implies_true, and_true]
      and_intros <;> exact fun _ => {}
  · exact fun r hr d => ((tame_rowsOf hi r hr).act d).toFrames

/-! ## From rows to whole instructions -/

/-- What the rows of a table frame, a run of it frames. -/
theorem perform_agreeOutside {w : FlagSet} {g : RegSet} {rows : List Row}
    (hrows : ∀ r ∈ rows, ∀ d, Cpu.Frames w g (r.act d)) (s : State) :
    Flags.agreeOutside w (perform rows s).cpu.p s.cpu.p ∧ Cpu.agreeOutside g (perform rows s).cpu s.cpu := by
  refine perform_keeps (P := fun u => Flags.agreeOutside w u.cpu.p s.cpu.p ∧ Cpu.agreeOutside g u.cpu s.cpu) rows s ?_
    ⟨Flags.agreeOutside_of_take (by simp [Flags.take]), Cpu.agreeOutside_of_take (by simp [Cpu.take])⟩
  intro r hr u ⟨hp, hc⟩
  let d := u.serveStalls.bus.data u.cfg.map (r.bus u.cpu)
  have hp' : Flags.agreeOutside w (r.cycle u).cpu.p u.cpu.p := by
    rw [Row.cycle_cpu]
    simpa using Flags.agreeOutside_of_take ((hrows r hr d).flags u.cpu)
  have hc' : Cpu.agreeOutside g (r.cycle u).cpu u.cpu := by
    rw [Row.cycle_cpu]
    simpa [Cpu.agreeOutside] using Cpu.agreeOutside_of_take ((hrows r hr d).regs u.cpu)
  exact ⟨Flags.agreeOutside_trans hp' hp, Cpu.agreeOutside_trans hc' hc⟩

theorem exec_agreeOutside {i : Instr} {s t : State} (h : exec i s = .next t) :
    Flags.agreeOutside (flagsWritten i) t.cpu.p s.cpu.p ∧ Cpu.agreeOutside (registersWritten i) t.cpu s.cpu := by
  rw [exec_next h]
  exact perform_agreeOutside (frames_rowsOf i) { s with cpu := s.cpu.start }

/-- Settles O32: row by row, by the tables. -/
theorem flagsFrame : Obligations.FlagsFrame := fun _ _ _ h => (exec_agreeOutside h).1

/-- Settles O33: row by row, by the tables. -/
theorem registersFrame : Obligations.RegistersFrame := fun _ _ _ h => (exec_agreeOutside h).2

/-! ## D is inert -/

theorem State.withD_eq (s : State) (b : Bool) : s.withD b = { s with cpu := s.cpu.withD b } := rfl

section
variable (s : State) (b : Bool)

/-- Stall cycles leave the registers alone, so another D goes through them. -/
theorem State.stalls_withD (is : List Stall) :
    is.foldl State.stallCycle (s.withD b) = (is.foldl State.stallCycle s).withD b := by
  induction is generalizing s with
  | nil => rfl
  | cons i is ih => exact ih (s.stallCycle i)

theorem State.serveStalls_withD : (s.withD b).serveStalls = s.serveStalls.withD b := by
  cases h : s.bus.inputs with
  | nil => rw [State.serveStalls_quiet h, State.serveStalls_quiet (s := s.withD b) h]
  | cons i rest =>
    rw [State.serveStalls_cons h, State.serveStalls_cons (s := s.withD b) h, State.stalls_withD]
    rfl

/-- A cycle of a tame row from the state with another D ends in the same state with that other D. -/
theorem Row.cycle_withD {w : FlagSet} {g : RegSet} {r : Row} (hr : r.Tame w g) :
    r.cycle (s.withD b) = (r.cycle s).withD b := by
  rw [r.cycle_eq _ hr.selects, r.cycle_eq _ hr.selects, State.serveStalls_withD]
  simp only [State.withD_eq, hr.bus, (hr.act _).inert, hr.poll, hr.last, Cpu.withD_advance]
  rfl

theorem perform_withD {w : FlagSet} {g : RegSet} {rows : List Row} (hrows : ∀ r ∈ rows, r.Tame w g) :
    perform rows (s.withD b) = (perform rows s).withD b := by
  induction rows generalizing s with
  | nil => rfl
  | cons r rest ih =>
    rw [perform_cons, perform_cons, Row.cycle_withD s b (hrows r List.mem_cons_self),
      ih _ fun q hq => hrows q (List.mem_cons_of_mem r hq)]
    exact (apply_ite (State.withD · b) ..).symm

end

/-- Under the conventional policy an unlisted opcode runs its table, as an admitted one does under either (R298). -/
theorem exec_unlisted {i : Instr} (hi : isUnlisted i = true) (hkil : ∀ k, i ≠ .kil k) (s : State) :
    exec i s = unlisted (rowsOf i) s := by
  cases i
  case kil k => exact absurd rfl (hkil k)
  case xaa | lxa | usbc | ahxIndy | ahxAbsy | shy | shx | tas | las => rfl
  all_goals cases hi

/-- Whether an instruction completes, or stops before its table, the parameters alone decide. -/
theorem exec_of_cfg_eq {i : Instr} {s t u : State} (h : exec i s = .next t) (hcfg : u.cfg = s.cfg) :
    exec i u = runInstr (rowsOf i) u := by
  cases hi : isUnlisted i with
  | false => exact exec_admitted hi u
  | true =>
    have hrun := exec_unlisted hi (exec_next_notKil h)
    rw [hrun] at h ⊢
    unfold unlisted at h ⊢
    rw [hcfg]
    cases hpolicy : s.cfg.unlisted with
    | refuse => simp [hpolicy] at h
    | conventional => rfl

/-- Settles O35: the rows of every other instruction are tame, so its table commutes with a change of D. -/
theorem decimalFlagIsInert : Obligations.DecimalFlagIsInert := by
  intro i s t b hi h
  rw [exec_of_cfg_eq (u := s.withD b) h rfl, exec_next h]
  exact congrArg Host.Outcome.next (perform_withD { s with cpu := s.cpu.start } b (tame_rowsOf hi))

end Sys2Proof.Machine
end

section
/-! PROOFS. The bus (20_memory R50 to R66): stores and reads of a step in the order of its cycles, what stall cycles and lines
leave alone, the data latch, the kind of the next transaction, the RAM mirrors. -/

namespace Sys2Proof.Machine

/-! ## Stall cycles -/

/-- Stall cycles sample their lines one after the other, and nothing else moves the latches (R65, R321, R322). -/
theorem stalls_irq (is : List Stall) (s : State) :
    (is.foldl State.stallCycle s).irq = (is.map Stall.lines).foldl Latches.sample s.irq := by
  induction is generalizing s with
  | nil => rfl
  | cons i is ih => exact ih (s.stallCycle i)

/-- Settles O22: the stores of a run of stall cycles are those its log holds, and its latches are those of its samples. -/
theorem stallCyclesTouchNothingElse : Obligations.StallCyclesTouchNothingElse := by
  intro s is
  rw [← replay_stallLog, ← stalls_irq]
  dsimp only
  rw [stalls_eq]
  exact ⟨rfl, rfl, rfl, rfl, rfl, rfl⟩

/-! ## The byte of the last cycle -/

/-- The bus cycle is a transaction of the core with this byte on the bus. -/
def BusCycle.hasByte (c : BusCycle) (d : Byte) : Prop := ∃ a, c = .read a d ∨ c = .write a d

/-- There is one byte on the bus in a transaction. -/
theorem BusCycle.hasByte_unique {c : BusCycle} {d e : Byte} (h : c.hasByte d) (h' : c.hasByte e) : d = e := by
  obtain ⟨a, rfl | rfl⟩ := h <;> obtain ⟨b, hb | hb⟩ := h' <;> cases hb <;> rfl

theorem BusOp.hasByte_logged (op : BusOp) (b : Bus) (map : AddressMap) :
    (op.logged (b.data map op)).hasByte (b.data map op) := by
  cases op with
  | read a => exact ⟨a, .inl rfl⟩
  | write a v => exact ⟨a, .inr rfl⟩

/-- A cycle leaves the byte of its transaction in the data latch (R52), and the transaction newest of the active cycles. -/
theorem Row.cycle_latch (r : Row) (s : State) :
    ∃ c, c.hasByte (r.cycle s).bus.latch ∧ (∃ rest, activeCycles (r.cycle s).bus.log = c :: rest) ∧
      ∃ rest, cyclesOf (r.cycle s).bus.log = c :: rest := by
  refine ⟨_, ?_, ⟨_, Row.cycle_active⟩, ⟨_, Row.cycle_cyclesOf⟩⟩
  rw [Row.cycle_bus, Bus.transact_latch]
  exact BusOp.hasByte_logged ..

/-- A run of cycles ends with a cycle of one of its rows. -/
theorem perform_eq_cycle {rows : List Row} (h : rows ≠ []) (s : State) : ∃ r u, perform rows s = Row.cycle r u := by
  induction rows generalizing s with
  | nil => exact absurd rfl h
  | cons r rest ih =>
    by_cases hend : (r.cycle s).cpu.t = 1
    · exact ⟨r, s, perform_last hend⟩
    · rw [perform_next hend]
      cases rest with
      | nil => exact ⟨r, s, rfl⟩
      | cons q rest => exact ih (List.cons_ne_nil q rest) _

/-- Settles O27: a step ends with a cycle, whose byte the latch holds. -/
theorem latchIsTheLastByte : Obligations.LatchIsTheLastByte := by
  intro s t hstep
  obtain ⟨-, rows, hrows, -, rfl, -⟩ := step_next hstep
  obtain ⟨r, u, hlast⟩ := perform_eq_cycle hrows s.stepStart
  rw [hlast]
  obtain ⟨c, ⟨a, hbyte⟩, -, rest, hlog⟩ := r.cycle_latch u
  exact ⟨c, rest, a, hlog, hbyte⟩

/-! ## Stalls and lines -/

/-- No instruction but BRK selects a vector (R331). -/
theorem selects_rowsOf {i : Instr} (hi : i ≠ .brk) : ∀ r ∈ rowsOf i, r.selects = false := by
  by_cases hd : i ∈ dUsers
  · simp only [dUsers, List.mem_cons, List.not_mem_nil, or_false] at hd
    obtain rfl | rfl | rfl | rfl | rfl | rfl := hd
    · simp [rowsOf, phpRows, opcodeRow, dummyPcRow, pushRow]
    · exact absurd rfl hi
    · simp [rowsOf, plpRows, pullRows, opcodeRow, dummyPcRow, pullDummyRow, readRow]
    · simp [rowsOf, rtiRows, returnRows, opcodeRow, dummyPcRow, pullDummyRow]
    · exact selects_impliedRows _
    · exact selects_impliedRows _
  · exact fun r hr => (tame_rowsOf hd r hr).selects

theorem tableLike_ne_nil {rows : List Row} (h : tableLike rows) : rows ≠ [] := by
  obtain ⟨init, r, rfl, -⟩ := h
  simp

/-- Where memory answers two machines that differ in what else the environment does, a table without vector selection ends
with the same registers, memory, data latch and active cycles: `valuesOf` and `trafficOf` do not name the environment. -/
theorem perform_same_results {rows : List Row} (hrows : rows ≠ []) (hsel : ∀ r ∈ rows, r.selects = false) {s u : State}
    (hs : s.memoryAnswers) (hu : u.memoryAnswers) (hcfg : u.cfg = s.cfg) (hcpu : u.cpu = s.cpu)
    (hmem : u.bus.mem = s.bus.mem) (hlog : u.bus.log = s.bus.log) :
    (perform rows s).cpu = (perform rows u).cpu ∧ (perform rows s).bus.mem = (perform rows u).bus.mem ∧
      (perform rows s).bus.latch = (perform rows u).bus.latch ∧
      activeCycles (perform rows s).bus.log = activeCycles (perform rows u).bus.log := by
  obtain ⟨hcpuS, hmemS⟩ := perform_values rows hsel hs
  obtain ⟨hcpuU, hmemU⟩ := perform_values rows hsel hu
  have hactive : activeCycles (perform rows s).bus.log = activeCycles (perform rows u).bus.log := by
    rw [perform_traffic rows hsel hs, perform_traffic rows hsel hu, hcfg, hcpu, hmem, hlog]
  rw [hcfg, hcpu, hmem] at hcpuU hmemU
  refine ⟨hcpuS.trans hcpuU.symm, hmemS.trans hmemU.symm, ?_, hactive⟩
  obtain ⟨r, v, hlastS⟩ := perform_eq_cycle hrows s
  obtain ⟨q, w, hlastU⟩ := perform_eq_cycle hrows u
  rw [hlastS, hlastU] at hactive ⊢
  obtain ⟨c, hc, ⟨rest, hcs⟩, -⟩ := r.cycle_latch v
  obtain ⟨d, hd, ⟨rest', hds⟩, -⟩ := q.cycle_latch w
  obtain rfl : c = d := by
    rw [hcs, hds] at hactive
    exact (List.cons.inj hactive).1
  exact BusCycle.hasByte_unique hc hd

/-- Settles O23: the same table runs in silence, and only a vector selection could tell the lines apart. -/
theorem stallsAndLinesChangeNoResult : Obligations.StallsAndLinesChangeNoResult := by
  intro i s t hs hi hexec
  have hrows : rowsOf i ≠ [] := tableLike_ne_nil (tableLike_rowsOf (exec_next_notKil hexec))
  refine ⟨_, exec_of_cfg_eq (u := { s with bus := { s.bus with inputs := [] } }) hexec rfl, ?_⟩
  rw [exec_next hexec]
  exact perform_same_results hrows (selects_rowsOf hi) (s := { s with cpu := s.cpu.start }) hs
    (State.quiet_memoryAnswers rfl) rfl rfl rfl rfl

/-! ## Memory consistency -/

theorem read_notMem_othersLogged (ws : List (Word × Byte)) (a : Word) (d : Byte) :
    BusCycle.read a d ∉ othersLogged ws := by
  induction ws with
  | nil => exact nofun
  | cons w ws ih => simp [othersLogged, ih]

theorem read_notMem_stallLog (is : List Stall) (a : Word) (d : Byte) : BusCycle.read a d ∉ stallLog is := by
  induction is with
  | nil => exact nofun
  | cons i is ih => simp [stallLog, ih, read_notMem_othersLogged]

/-- Every read of a log (newest first) gave the byte of the latest earlier store to its cell, or what `m` held there. -/
def readsLatest (map : AddressMap) (m : Memory) (log : List BusCycle) : Prop :=
  ∀ (newer older : List BusCycle) (a : Word) (d : Byte), log = newer ++ .read a d :: older →
    d = Memory.read (replay map older m) (cellOf map a)

section
variable {map : AddressMap} {m : Memory} {log : List BusCycle}

theorem readsLatest_cons {c : BusCycle} (hlog : readsLatest map m log)
    (hc : ∀ a d, c = .read a d → d = Memory.read (replay map log m) (cellOf map a)) : readsLatest map m (c :: log) := by
  intro newer older a d h
  cases newer with
  | nil =>
    obtain ⟨rfl, rfl⟩ := List.cons.inj h
    exact hc a d rfl
  | cons c' newer => exact hlog newer older a d (List.cons.inj h).2

/-- Stores and stall cycles newer than a log are no reads. -/
theorem readsLatest_append {new : List BusCycle} (hnew : ∀ a d, BusCycle.read a d ∉ new)
    (hlog : readsLatest map m log) : readsLatest map m (new ++ log) := by
  induction new with
  | nil => exact hlog
  | cons c new ih =>
    refine readsLatest_cons (ih fun a d h => hnew a d (List.mem_cons_of_mem c h)) ?_
    rintro a d rfl
    exact absurd List.mem_cons_self (hnew a d)

end

/-- Memory answers from now on, and the log so far is consistent: memory is `m` with its stores, its reads are right. -/
structure State.Consistent (map : AddressMap) (m : Memory) (u : State) : Prop where
  serves : u.memoryServes
  map_eq : u.cfg.map = map
  mem_eq : u.bus.mem = replay map u.bus.log m
  reads : readsLatest map m u.bus.log

/-- A cycle keeps the log consistent: its read answers from memory as the stall cycles before it leave it (R59, R65). -/
theorem Row.cycle_consistent {map : AddressMap} {m : Memory} (r : Row) {u : State} (h : u.Consistent map m) :
    (r.cycle u).Consistent map m := by
  obtain ⟨hserves, rfl, hmem, hreads⟩ := h
  refine ⟨r.cycle_memoryServes hserves, by simp, ?_, ?_⟩
  · rw [r.cycle_replay hserves, hmem, ← replay_append, ← Row.cycle_log]
  · rw [Row.cycle_log, Row.cycleLog, List.append_assoc, List.cons_append]
    refine readsLatest_append (read_notMem_othersLogged _)
      (readsLatest_cons (readsLatest_append (read_notMem_stallLog _) hreads) fun a d hread => ?_)
    cases hop : r.bus u.cpu with
    | read b =>
      rw [hop, State.data_serves hserves] at hread
      obtain ⟨rfl, rfl⟩ := BusCycle.read.inj hread
      rw [replay_append, ← hmem]
    | write b v =>
      rw [hop] at hread
      cases hread

theorem State.serveStalls_memoryServes {s : State} (h : s.memoryServes) : s.serveStalls.memoryServes := by
  cases hi : s.bus.inputs with
  | nil => rwa [State.serveStalls_quiet hi]
  | cons i rest =>
    rw [State.memoryServes, hi] at h
    obtain ⟨hfirst, hrest⟩ := List.forall_mem_cons.1 h
    rw [State.serveStalls_cons hi]
    exact List.forall_mem_cons.2 ⟨hfirst, hrest⟩

theorem State.stepStart_mem (s : State) : s.stepStart.bus.mem = replay s.cfg.map s.stepStart.bus.log s.bus.mem := by
  rw [State.stepStart_bus, State.beginStep_mem, State.beginStep_log]

/-- A step's cycles start with a consistent log: the stall cycles before the decision. -/
theorem State.stepStart_consistent {s : State} (h : s.memoryServes) : s.stepStart.Consistent s.cfg.map s.bus.mem where
  serves := by
    unfold State.memoryServes
    rw [State.stepStart_bus]
    exact State.serveStalls_memoryServes h
  map_eq := by simp
  mem_eq := s.stepStart_mem
  reads := by
    rw [State.stepStart_bus, State.beginStep_log, ← List.append_nil (stallLog _)]
    exact readsLatest_append (read_notMem_stallLog _) (by simp [readsLatest])

/-- Settles O24: every cycle keeps the log consistent, so a step does. -/
theorem memoryIsTheWritesReplayed : Obligations.MemoryIsTheWritesReplayed := by
  intro s t hserves hstep
  obtain ⟨-, -, hmem, hreads⟩ := step_keeps (fun r _ => r.cycle_consistent) (State.stepStart_consistent hserves) hstep
  exact ⟨hmem, hreads⟩

/-! ## Unwritten addresses -/

/-- Replaying a log changes no cell but those its stores name. -/
theorem read_replay_other {map : AddressMap} {log : List BusCycle} (m : Memory) {c : Nat}
    (h : ∀ b v, BusCycle.write b v ∈ log ∨ BusCycle.other b v ∈ log → cellOf map b ≠ c) :
    Memory.read (replay map log m) c = Memory.read m c := by
  induction log with
  | nil => rfl
  | cons e log ih =>
    have hlog : Memory.read (replay map log m) c = Memory.read m c :=
      ih fun b v hb => h b v (hb.imp (List.mem_cons_of_mem e) (List.mem_cons_of_mem e))
    cases e with
    | read a d | stall => exact hlog
    | write a v =>
      rw [replay_write, Memory.read_write_other _ _ (h a v (.inl List.mem_cons_self)).symm, hlog]
    | other a v =>
      rw [replay_other, Memory.read_write_other _ _ (h a v (.inr List.mem_cons_self)).symm, hlog]

/-- In every environment a cycle changes memory by stores it leaves in the log: by all of them, or, where memory does not
answer, by all but its own. -/
theorem Row.cycle_mem_sublist (r : Row) (u : State) :
    ∃ stores, stores.Sublist (r.cycleLog u) ∧ (r.cycle u).bus.mem = replay u.cfg.map stores u.bus.mem := by
  have hothers : (othersLogged u.bus.nextWrites ++ stallLog u.bus.stalls).Sublist (r.cycleLog u) :=
    (List.sublist_cons_self _ _).append_left _
  cases hop : r.bus u.cpu with
  | read a => exact ⟨_, List.Sublist.refl _, Row.cycle_mem_read hop⟩
  | write a v =>
    cases htarget : u.bus.target with
    | memory =>
      refine ⟨_, List.Sublist.refl _, ?_⟩
      rw [Row.cycle_mem, Row.cycleLog, replay_append, replay_othersLogged, hop, BusOp.logged, replay_write,
        Bus.memAfter, State.serveStalls_target, htarget, State.serveStalls_mem]
    | device _ | unmapped =>
      refine ⟨_, hothers, ?_⟩
      rw [Row.cycle_mem, hop, replay_append, replay_othersLogged, ← State.serveStalls_mem]
      simp [Bus.memAfter, htarget]

/-- Memory is `m` with some of the stores of the log. -/
def State.StoredFrom (map : AddressMap) (m : Memory) (u : State) : Prop :=
  u.cfg.map = map ∧ ∃ stores, stores.Sublist u.bus.log ∧ u.bus.mem = replay map stores m

theorem Row.cycle_storedFrom {map : AddressMap} {m : Memory} (r : Row) {u : State} (h : u.StoredFrom map m) :
    (r.cycle u).StoredFrom map m := by
  obtain ⟨rfl, stores, hsub, hmem⟩ := h
  obtain ⟨new, hnew, hcycle⟩ := r.cycle_mem_sublist u
  refine ⟨by simp, new ++ stores, ?_, ?_⟩
  · rw [Row.cycle_log]
    exact hnew.append hsub
  · rw [hcycle, hmem, replay_append]

/-- Settles O25: in every environment a step's stores are among those of its log, and none of them names the cell. -/
theorem unwrittenAddressesKeepTheirBytes : Obligations.UnwrittenAddressesKeepTheirBytes := by
  intro s t a hstep hunnamed
  have hstart : s.stepStart.StoredFrom s.cfg.map s.bus.mem :=
    ⟨s.stepStart_cfg ▸ rfl, _, List.Sublist.refl _, s.stepStart_mem⟩
  obtain ⟨hmap, stores, hsub, hmem⟩ := step_keeps (fun r _ => r.cycle_storedFrom) hstart hstep
  rw [State.peek, hmem, hmap]
  exact read_replay_other _ fun b v hb => hunnamed b v (hb.imp (hsub.subset ·) (hsub.subset ·))

/-! ## The kind of the next transaction -/

/-- The kind of a transaction. -/
def BusOp.kind : BusOp → NextKind
  | .read _ => .read
  | .write _ _ => .write

theorem State.nextKind_boundary {s : State} (h : s.cpu.t = 1) : s.nextKind = .read := if_pos h

theorem State.nextKind_of_row {s : State} {r : Row} (ht : s.cpu.t ≠ 1)
    (hr : (s.table s.inProgress)[s.cpu.t - 1]? = some r) : s.nextKind = (r.bus s.cpu).kind := by
  rw [State.nextKind, if_neg ht, hr]
  rfl

/-- Every table starts with a read at `PC`: the opcode fetch, or the dummy fetch of a sequence (R113, R330). -/
theorem rowsOf_first_bus {i : Instr} {r : Row} (hr : r ∈ (rowsOf i).head?) (c : Cpu) : r.bus c = .read c.pc := by
  cases i
  case kil => exact nomatch hr
  case lda m | ldx m | ldy m | adc m | sbc m | and m | ora m | eor m | cmp m | cpx m | cpy m =>
    rcases m with v | mo
    · cases hr; rfl
    · cases mo <;> cases hr <;> rfl
  case asl m | lsr m | rol m | ror m =>
    rcases m with _ | mo
    · cases hr; rfl
    · cases mo <;> cases hr <;> rfl
  case sta m | stx m | sty m | sax m | bit m | lax m | inc m | dec m | dcp m | isc m | slo m | rla m | sre m | rra m =>
    cases m <;> cases hr <;> rfl
  all_goals cases hr; rfl

theorem State.table_first_bus {s : State} {i : Option Instr} {r : Row} (hr : r ∈ (s.table i).head?) (c : Cpu) :
    r.bus c = .read c.pc := by
  unfold State.table at hr
  split at hr
  · cases hr; rfl
  · cases hr; rfl
  · split at hr
    · exact rowsOf_first_bus hr c
    · exact nomatch hr

/-- The rows left start with the row of cycle `T`. -/
theorem State.table_of_rowsLeft {s : State} {i : Option Instr} {r : Row} {rest : List Row}
    (h : s.rowsLeft i = r :: rest) : (s.table i)[s.cpu.t - 1]? = some r := by
  unfold State.rowsLeft at h
  split at h
  · exact nomatch h
  · split at h
    · exact nomatch h
    · rw [← List.head?_drop, h, List.head?_cons]

/-- The byte at `PC` is read after the stall cycles, served already or not. -/
theorem State.inProgress_serveStalls (s : State) : s.serveStalls.inProgress = s.inProgress := by
  unfold State.inProgress
  simp only [fetchAhead, Row.cycle_serveStalls, State.serveStalls_cpu]

theorem State.table_serveStalls (s : State) (i : Option Instr) : s.serveStalls.table i = s.table i := by
  unfold State.table
  rw [State.serveStalls_cpu]

theorem noRow_ne_next (s t : State) (i : Option Instr) : noRow s i ≠ .next t := by
  unfold noRow
  repeat' split
  all_goals exact nofun

/-- The row of a cycle that is performed is of the kind the state before it shows (R66, R146). -/
theorem cycle_next_kind {s t : State} (h : cycle s = .next t) :
    ∃ (r : Row) (u : State), t = r.cycle u ∧ (r.bus u.cpu).kind = s.nextKind := by
  by_cases ht : s.cpu.t = 1
  · simp only [cycle, State.serveStalls_cpu, State.boundary_t, ht, if_true] at h
    split at h
    · exact absurd h (noRow_ne_next _ _ _)
    · rename_i r rest hrows
      have hfirst := State.table_of_rowsLeft hrows
      rw [State.boundary_t, State.serveStalls_cpu, ht, ← List.head?_eq_getElem?] at hfirst
      refine ⟨r, _, (Host.Outcome.next.inj h).symm, ?_⟩
      rw [State.nextKind_boundary ht, State.table_first_bus hfirst]
      rfl
  · simp only [cycle, State.serveStalls_cpu, ht, if_false, State.inProgress_serveStalls] at h
    split at h
    · exact absurd h (noRow_ne_next _ _ _)
    · rename_i r rest hrows
      have hrow := State.table_of_rowsLeft hrows
      rw [State.serveStalls_cpu, State.table_serveStalls] at hrow
      refine ⟨r, _, (Host.Outcome.next.inj h).symm, ?_⟩
      rw [State.nextKind_of_row ht hrow, State.serveStalls_cpu]

/-- Settles O30: the row a cycle performs is the one the kind was read off, or the first of a table, a read. -/
theorem nextKindIsRight : Obligations.NextKindIsRight := by
  intro s t h
  obtain ⟨r, u, rfl, hkind⟩ := cycle_next_kind h
  rw [← hkind, Row.cycle_cyclesOf]
  cases r.bus u.cpu with
  | read a => exact ⟨a, _, _, rfl⟩
  | write a v => exact ⟨a, v, _, rfl⟩

/-! ## The RAM mirrors -/

/-- Addresses of the RAM that agree modulo its size are one cell under the console map (R54). -/
theorem cellOf_console_mirror {a b : Word} (ha : a.toNat < 0x2000) (hb : b.toNat < 0x2000)
    (h : a.toNat % 0x0800 = b.toNat % 0x0800) : cellOf .console a = cellOf .console b := by
  simp only [cellOf, if_pos ha, if_pos hb, h]

/-- Settles O31: the store changes the one cell that every mirror of its address is. -/
theorem ramIsMirrored : Obligations.RamIsMirrored := by
  intro s m hmap hs hwf haddr
  obtain ⟨t, _, _, _, _, _, ht, -, hmem, hcfg, -⟩ :=
    storeInstr_values m Cpu.a hs fun _ _ _ _ _ _ _ _ _ _ => rfl
  refine ⟨t, ht, fun a ha hmirror => ?_⟩
  rw [State.peek, hmem, hcfg, hmap, cellOf_console_mirror ha haddr hmirror]
  exact Memory.read_write_same _ _ hwf

end Sys2Proof.Machine
end

section
/-! PROOFS. The encoding (30_encoding R80 to R86): what the decoder answers for one cell of the opcode map, that every cell agrees
with the encoding tables of files 41 to 46, and that every well-formed instruction has its cell. The two directions of the round
trip follow. -/

namespace Sys2Proof

/-! ## What a cell makes of operands -/

/-- The instruction of a cell, for the operand byte or the operand word it takes. -/
def Entry.instr (b : Byte) (w : Word) : Entry → Instr
  | .one i => i
  | .two f => f b
  | .three f => f w

/-- The operand bytes the cell takes that operand from. -/
def Entry.operand (b : Byte) (w : Word) : Entry → List Byte
  | .one _ => []
  | .two _ => [b]
  | .three _ => wordBytes w

/-- The format of a cell, read off one of its instructions. -/
def Entry.mode (e : Entry) : Mode := (e.instr 0 0).mode

/-! ## The decoder, cell by cell -/

/-- The decoder takes the operand bytes of the opcode's cell and leaves the rest (R80, R83). -/
theorem decode_cell {op : Byte} {e : Entry} (he : entryOf op = some e) (b : Byte) (w : Word) (rest : List Byte) :
    decode (op :: e.operand b w ++ rest) = .ok (e.instr b w, rest) := by
  cases e with
  | one i => simp [decode, he, Entry.operand, Entry.instr]
  | two f => simp [decode, he, Entry.operand, Entry.instr]
  | three f => simp [decode, he, Entry.operand, Entry.instr, wordBytes]

/-- What decodes starts with an opcode and the operand bytes of its cell. -/
theorem exists_cell_of_decode {bs rest : List Byte} {i : Instr} (h : decode bs = .ok (i, rest)) :
    ∃ op e b w, entryOf op = some e ∧ bs = op :: e.operand b w ++ rest ∧ i = e.instr b w := by
  obtain _ | ⟨op, bs⟩ := bs
  · cases h
  · simp only [decode] at h
    split at h
    next i _ he =>
      cases h
      exact ⟨op, _, 0, 0, he, rfl, rfl⟩
    next f b _ he =>
      cases h
      exact ⟨op, _, b, 0, he, rfl, rfl⟩
    next f l hi _ he =>
      cases h
      exact ⟨op, _, 0, join hi l, he, by simp [Entry.operand, wordBytes], rfl⟩
    next => cases h

/-- Two bytes hold the operand of any cell: the byte is the first, the word is both. -/
theorem Entry.operand_append_drop (e : Entry) (l h : Byte) (rest : List Byte) :
    e.operand l (join h l) ++ (l :: h :: rest).drop (e.operand l (join h l)).length = l :: h :: rest := by
  cases e with
  | one i => rfl
  | two f => rfl
  | three f => simp [Entry.operand, wordBytes]

theorem Entry.length_operand_le (e : Entry) (b : Byte) (w : Word) : (e.operand b w).length ≤ 2 := by
  cases e <;> simp [Entry.operand, wordBytes]

/-! ## The map against the encoding tables -/

/-- A cell agrees with the encoding tables: its instructions are well formed, their rule's table gives them the opcode `op`, their
operand bytes are those the cell takes, and they all have one format, which counts those bytes. -/
structure Entry.Sound (op : Byte) (e : Entry) : Prop where
  wellFormed : ∀ b w, (e.instr b w).wellFormed = true
  opcode_eq : ∀ b w, opcode (e.instr b w) = some op
  operandBytes_eq : ∀ b w, operandBytes (e.instr b w) = e.operand b w
  mode_eq : ∀ b w, (e.instr b w).mode = e.mode
  length_operand : ∀ b w, (e.operand b w).length + 1 = e.mode.length

/-- The cells of a row from column `k` on are sound for their opcode values. -/
def rowSound (n k : Nat) : List Entry → Prop
  | [] => True
  | e :: es => e.Sound (BitVec.ofNat 8 (16 * n + k)) ∧ rowSound n (k + 1) es

/-- R84 agrees with the tables of files 41 to 46, column by column of each of its rows. -/
theorem rowSound_mapRow : ∀ n, rowSound n 0 (mapRow n)
  | 0 | 1 | 2 | 3 | 4 | 5 | 6 | 7 | 8 | 9 | 10 | 11 | 12 | 13 | 14 | 15 => by
    refine ⟨?_, ?_, ?_, ?_, ?_, ?_, ?_, ?_, ?_, ?_, ?_, ?_, ?_, ?_, ?_, ?_, trivial⟩ <;>
      exact ⟨fun _ _ => rfl, fun _ _ => rfl, fun _ _ => rfl, fun _ _ => rfl, fun _ _ => rfl⟩
  | _ + 16 => trivial

theorem sound_of_rowSound {n k j : Nat} {es : List Entry} {e : Entry} (h : rowSound n k es) (he : es[j]? = some e) :
    e.Sound (BitVec.ofNat 8 (16 * n + (k + j))) := by
  induction es generalizing k j with
  | nil => cases he
  | cons e' es ih =>
    obtain ⟨hfirst, hrest⟩ := h
    cases j with
    | zero =>
      cases he
      exact hfirst
    | succ j =>
      have := ih hrest he
      rwa [Nat.add_right_comm] at this

/-- Every cell of the map is sound for its opcode value. -/
theorem sound_entryOf {op : Byte} {e : Entry} (he : entryOf op = some e) : e.Sound op := by
  have h := sound_of_rowSound (rowSound_mapRow _) he
  rwa [Nat.zero_add, Nat.div_add_mod, BitVec.ofNat_toNat, BitVec.setWidth_eq] at h

theorem Entry.Sound.encode_instr {op : Byte} {e : Entry} (h : e.Sound op) (b : Byte) (w : Word) :
    encode (e.instr b w) = op :: e.operand b w := by
  rw [encode, h.opcode_eq, h.operandBytes_eq]

theorem Entry.Sound.length_instr {op : Byte} {e : Entry} (h : e.Sound op) (b : Byte) (w : Word) :
    (e.instr b w).length = (e.operand b w).length + 1 := by
  rw [Instr.length, h.mode_eq, h.length_operand]

/-! ## Every well-formed instruction is in the map -/

/-- The instruction is one of those of the cell at its opcode. -/
def Instr.InMap (i : Instr) : Prop :=
  ∃ op e b w, opcode i = some op ∧ entryOf op = some e ∧ e.instr b w = i

/-- A well-formed instruction is in the map. The split is by the form of its operand; `cases h` leaves the forms its rule lists. -/
theorem Instr.inMap {i : Instr} (h : i.wellFormed = true) : i.InMap := by
  cases i
  case lda m | ldx m | ldy m | adc m | sbc m | and m | ora m | eor m | cmp m | cpx m | cpy m =>
    cases m with
    | imm v => exact ⟨_, _, v, 0, rfl, rfl, rfl⟩
    | mem m =>
      cases m with
      | zp z | zpx z | zpy z | indx z | indy z => cases h <;> exact ⟨_, _, z, 0, rfl, rfl, rfl⟩
      | abs w | absx w | absy w => cases h <;> exact ⟨_, _, 0, w, rfl, rfl, rfl⟩
  case sta m | stx m | sty m | bit m | inc m | dec m | lax m | sax m | dcp m | isc m | slo m | rla m | sre m | rra m =>
    cases m with
    | zp z | zpx z | zpy z | indx z | indy z => cases h <;> exact ⟨_, _, z, 0, rfl, rfl, rfl⟩
    | abs w | absx w | absy w => cases h <;> exact ⟨_, _, 0, w, rfl, rfl, rfl⟩
  case asl m | lsr m | rol m | ror m =>
    cases m with
    | acc => exact ⟨_, _, 0, 0, rfl, rfl, rfl⟩
    | mem m =>
      cases m with
      | zp z | zpx z | zpy z | indx z | indy z => cases h <;> exact ⟨_, _, z, 0, rfl, rfl, rfl⟩
      | abs w | absx w | absy w => cases h <;> exact ⟨_, _, 0, w, rfl, rfl, rfl⟩
  case bpl b | bmi b | bvc b | bvs b | bcc b | bcs b | bne b | beq b | alr b | arr b | axs b | xaa b | lxa b | usbc b |
      ahxIndy b => exact ⟨_, _, b, 0, rfl, rfl, rfl⟩
  case jmp w | jmpInd w | jsr w | nopAbs w | ahxAbsy w | shy w | shx w | tas w | las w => exact ⟨_, _, 0, w, rfl, rfl, rfl⟩
  case anc k b | nopImm k b | nopZp k b | nopZpx k b => fin_cases k <;> exact ⟨_, _, b, 0, rfl, rfl, rfl⟩
  case nopAbsx k w => fin_cases k <;> exact ⟨_, _, 0, w, rfl, rfl, rfl⟩
  case nopImp k | kil k => fin_cases k <;> exact ⟨_, _, 0, 0, rfl, rfl, rfl⟩
  case tax | tay | txa | tya | tsx | txs | inx | iny | dex | dey | rts | pha | php | pla | plp | clc | sec | cli | sei | clv |
      cld | sed | nop | brk | rti => exact ⟨_, _, 0, 0, rfl, rfl, rfl⟩

/-! ## The round trip -/

/-- Settles O2: the instruction is one of its cell's, and the decoder reads the cell's operand. -/
theorem decodeReadsEncode : Obligations.DecodeReadsEncode := by
  intro i rest h
  obtain ⟨op, e, b, w, -, he, rfl⟩ := Instr.inMap h
  rw [(sound_entryOf he).encode_instr]
  exact decode_cell he b w rest

/-- Settles O3: what decodes is an instruction of a cell, and every cell is sound. -/
theorem encodeRestoresTheBytes : Obligations.EncodeRestoresTheBytes := by
  intro bs rest i h
  obtain ⟨op, e, b, w, he, rfl, rfl⟩ := exists_cell_of_decode h
  exact ⟨(sound_entryOf he).wellFormed b w, by rw [(sound_entryOf he).encode_instr]⟩

/-- Settles O4: the format is that of the opcode's cell, whose operand the two bytes hold. -/
theorem opcodeAloneDecides : Obligations.OpcodeAloneDecides := by
  intro op
  obtain ⟨e, he⟩ := Machine.exists_entryOf op
  have hs := sound_entryOf he
  refine ⟨e.mode, fun b1 b2 rest => ⟨e.instr b1 (join b2 b1), ?_, hs.opcode_eq _ _, hs.mode_eq _ _, ?_, ?_, ?_⟩⟩
  · rw [hs.length_instr, List.drop_succ_cons]
    have hdecode := decode_cell he b1 (join b2 b1)
      ((b1 :: b2 :: rest).drop (e.operand b1 (join b2 b1)).length)
    rwa [List.cons_append, e.operand_append_drop] at hdecode
  · rw [Instr.length, hs.mode_eq]
  · rw [hs.length_instr]
    omega
  · rw [hs.length_instr]
    have := e.length_operand_le b1 (join b2 b1)
    omega

/-- Settles O1: the decoder runs on each of the words. -/
theorem sampleWordsDecode : Obligations.SampleWordsDecode := by
  unfold Obligations.SampleWordsDecode
  decide

end Sys2Proof
end

section
/-! PROOFS. The cycle tables as a whole (40_bus_cycles R113, R145): the opcode fetch they start with, the latch `IR` that no later
row writes, and how many active cycles a table takes. -/

namespace Sys2Proof.Machine

/-! ## The opcode fetch and `IR` -/

/-- Cycle 1 of an instruction, but for its poll and its vector selection: the byte at `PC` goes to `IR` (R113). -/
structure Row.Fetches (r : Row) : Prop where
  bus : ∀ c, r.bus c = .read c.pc := by intros; rfl
  act : ∀ d c, r.act d c = { c with ir := d, pc := c.pc + 1 } := by intros; rfl
  last : ∀ c, r.last c = false := by intros; rfl

/-- The `then` column leaves `IR` alone. -/
structure Row.KeepsIr (r : Row) : Prop where
  act : ∀ d c, (r.act d c).ir = c.ir := by intros; rfl

/-- The opcode fetch, then rows that keep what it has latched. -/
def fetchFirst (rows : List Row) : Prop := ∃ r rest, rows = r :: rest ∧ r.Fetches ∧ ∀ q ∈ rest, q.KeepsIr

section
variable {f : Byte → Cpu → Cpu}

theorem fetchFirst_cons {r : Row} {rest : List Row} (hr : r.Fetches) (hrest : ∀ q ∈ rest, q.KeepsIr) :
    fetchFirst (r :: rest) := ⟨r, rest, rfl, hr, hrest⟩

theorem fetchFirst_append {front rows : List Row} (hfront : fetchFirst front) (hrows : ∀ q ∈ rows, q.KeepsIr) :
    fetchFirst (front ++ rows) := by
  obtain ⟨r, rest, rfl, hr, hrest⟩ := hfront
  exact fetchFirst_cons hr (List.forall_mem_append.2 ⟨hrest, hrows⟩)

theorem fetchFirst_impliedRows {f : Cpu → Cpu} (hf : ∀ c, (f c).ir = c.ir) : fetchFirst (impliedRows f) :=
  fetchFirst_cons {} (List.forall_mem_singleton.2 ⟨fun _ => hf⟩)

theorem fetchFirst_immediateRows (v : Byte) (hf : ∀ d c, (f d c).ir = c.ir) : fetchFirst (immediateRows v f) :=
  fetchFirst_cons {} (List.forall_mem_singleton.2 ⟨fun _ _ => hf v _⟩)

theorem keepsIr_fixupOrReadRow (hf : ∀ d c, (f d c).ir = c.ir) : (fixupOrReadRow f).KeepsIr where
  act d c := by
    simp only [fixupOrReadRow]
    split
    · rfl
    · exact hf d c

theorem fetchFirst_memReadRows (mo : MemOperand) (hf : ∀ d c, (f d c).ir = c.ir) : fetchFirst (memReadRows mo f) := by
  have hread (addr : Cpu → Word) : (readRow addr f).KeepsIr := ⟨hf⟩
  have hfixup := keepsIr_fixupOrReadRow hf
  cases mo <;> refine fetchFirst_cons {} ?_ <;>
    simp only [List.forall_mem_cons, List.not_mem_nil, false_implies, implies_true, and_true, hread, hfixup] <;>
    and_intros <;> exact {}

theorem fetchFirst_readRows (m : ReadOperand) (hf : ∀ d c, (f d c).ir = c.ir) : fetchFirst (readRows m f) := by
  cases m with
  | imm v => exact fetchFirst_immediateRows v hf
  | mem mo => exact fetchFirst_memReadRows mo hf

theorem fetchFirst_storeAddressRows (mo : MemOperand) : fetchFirst (storeAddressRows mo) := by
  cases mo <;> refine fetchFirst_cons {} ?_ <;>
    simp only [List.forall_mem_cons, List.not_mem_nil, false_implies, implies_true, and_true] <;>
    and_intros <;> exact {}

theorem fetchFirst_rmwAddressRows (mo : MemOperand) : fetchFirst (rmwAddressRows mo) := by
  cases mo <;> refine fetchFirst_cons {} ?_ <;>
    simp only [List.forall_mem_cons, List.not_mem_nil, false_implies, implies_true, and_true] <;>
    and_intros <;> exact {}

end

theorem fetchFirst_storeRows (mo : MemOperand) (v : Cpu → Byte) : fetchFirst (storeRows mo v) :=
  fetchFirst_append (fetchFirst_storeAddressRows mo) (List.forall_mem_singleton.2 {})

theorem fetchFirst_unstableStoreRows (mo : MemOperand) (v : Cpu → Byte) : fetchFirst (unstableStoreRows mo v) :=
  fetchFirst_append (fetchFirst_storeAddressRows mo)
    (List.forall_mem_singleton.2 ⟨fun _ c => by cases hc : c.cross <;> simp [hc, Cpu.takeFree]⟩)

theorem fetchFirst_rmwRows (mo : MemOperand) (f : Cpu → Byte) {ex : Cpu → Cpu} (hex : ∀ c, (ex c).ir = c.ir) :
    fetchFirst (rmwRows mo f ex) :=
  fetchFirst_append (fetchFirst_rmwAddressRows mo) (by
    simp only [rmwTail, List.forall_mem_cons]
    exact ⟨{}, {}, ⟨fun _ => hex⟩, nofun⟩)

theorem fetchFirst_branchRows (cond : Flags → Bool) (rel : Byte) : fetchFirst (branchRows cond rel) :=
  fetchFirst_cons {} (by
    simp only [List.forall_mem_cons]
    exact ⟨{}, {}, {}, nofun⟩)

/-- Every table but KIL's, which has no row. -/
theorem fetchFirst_rowsOf {i : Instr} (hi : ∀ k, i ≠ .kil k) : fetchFirst (rowsOf i) := by
  cases i
  case kil k => exact absurd rfl (hi k)
  case lda m | ldx m | ldy m | adc m | sbc m | and m | ora m | eor m | cmp m | cpx m | cpy m =>
    exact fetchFirst_readRows m fun _ _ => rfl
  case bit m | lax m => exact fetchFirst_memReadRows m fun _ _ => rfl
  case nopZp k z => exact fetchFirst_memReadRows (.zp z) fun _ _ => rfl
  case nopZpx k z => exact fetchFirst_memReadRows (.zpx z) fun _ _ => rfl
  case nopAbs w => exact fetchFirst_memReadRows (.abs w) fun _ _ => rfl
  case nopAbsx k w => exact fetchFirst_memReadRows (.absx w) fun _ _ => rfl
  case las w => exact fetchFirst_memReadRows (.absy w) fun _ _ => rfl
  case sta m | stx m | sty m | sax m => exact fetchFirst_storeRows m _
  case ahxIndy | ahxAbsy | shy | shx => exact fetchFirst_unstableStoreRows _ _
  case tas w => exact fetchFirst_append (fetchFirst_storeAddressRows _) (List.forall_mem_singleton.2 {})
  case asl m | lsr m | rol m | ror m =>
    cases m with
    | acc => exact fetchFirst_impliedRows fun _ => rfl
    | mem mo => exact fetchFirst_rmwRows mo _ fun _ => rfl
  case inc m | dec m | dcp m | isc m | slo m | rla m | sre m | rra m => exact fetchFirst_rmwRows m _ fun _ => rfl
  case bpl r => exact fetchFirst_branchRows (fun p => !p.n) r
  case bvc r => exact fetchFirst_branchRows (fun p => !p.v) r
  case bcc r => exact fetchFirst_branchRows (fun p => !p.c) r
  case bne r => exact fetchFirst_branchRows (fun p => !p.z) r
  case bmi r | bvs r | bcs r | beq r => exact fetchFirst_branchRows _ r
  case anc k v | alr v | arr v | axs v | nopImm k v | xaa v | lxa v | usbc v =>
    exact fetchFirst_immediateRows v fun _ _ => rfl
  case tax | tay | txa | tya | tsx | txs | inx | iny | dex | dey | clc | sec | cli | sei | clv | cld | sed | nop | nopImp =>
    exact fetchFirst_impliedRows fun _ => rfl
  case jmp | jmpInd | jsr | rts | rti | brk | pha | php | pla | plp =>
    refine fetchFirst_cons {} ?_
    simp only [List.forall_mem_cons, List.not_mem_nil, false_implies, implies_true, and_true]
    and_intros <;> exact {}

end Sys2Proof.Machine
end

section
/-! PROOFS. The first cycle of an instruction and the number of its active cycles (40_bus_cycles R113, R145). -/

namespace Sys2Proof.Machine

/-- A row that keeps `IR` keeps it over its cycle. -/
theorem Row.KeepsIr.cycle_ir {r : Row} (hr : r.KeepsIr) (s : State) : (r.cycle s).cpu.ir = s.cpu.ir := by
  rw [Row.cycle_cpu]
  simp [hr.act]

/-- The opcode fetch leaves the byte of its read in `IR`. -/
theorem Row.Fetches.cycle_active {r : Row} (hr : r.Fetches) (s : State) :
    activeCycles (r.cycle s).bus.log = .read s.cpu.pc (r.cycle s).cpu.ir :: activeCycles s.bus.log := by
  rw [Row.cycle_active, Row.cycle_cpu, hr.bus]
  simp [hr.act, BusOp.logged]

/-- A run adds to the log, `IR` kept, when its rows keep it. -/
theorem perform_keepsIr {rows : List Row} (hrows : ∀ q ∈ rows, q.KeepsIr) (s : State) :
    (perform rows s).cpu.ir = s.cpu.ir ∧
      ∃ cycles, activeCycles (perform rows s).bus.log = cycles ++ activeCycles s.bus.log := by
  refine perform_keeps
    (P := fun u => u.cpu.ir = s.cpu.ir ∧ ∃ cycles, activeCycles u.bus.log = cycles ++ activeCycles s.bus.log)
    rows s ?_ ⟨rfl, [], rfl⟩
  rintro r hr u ⟨hir, cycles, hlog⟩
  exact ⟨((hrows r hr).cycle_ir u).trans hir, _ :: cycles, by rw [Row.cycle_active, hlog]; rfl⟩

/-- Settles O28: the table starts with the opcode fetch, and no later row writes `IR`. -/
theorem firstCycleIsTheFetch : Obligations.FirstCycleIsTheFetch := by
  intro i s t h
  obtain ⟨r, rest, hrows, hfetch, hrest⟩ := fetchFirst_rowsOf (exec_next_notKil h)
  have hfirst := hfetch.cycle_active { s with cpu := s.cpu.start }
  rw [exec_next h, hrows, perform_cons]
  split
  · exact ⟨[], hfirst⟩
  · obtain ⟨hir, cycles, hlog⟩ := perform_keepsIr hrest (r.cycle { s with cpu := s.cpu.start })
    exact ⟨cycles, by rw [hlog, hir, hfirst, List.append_assoc]; rfl⟩

/-! ## How many active cycles -/

/-- The run of the rows from `s` takes `n` active cycles. -/
def takes (rows : List Row) (s : State) (n : Nat) : Prop :=
  (activeCycles (perform rows s).bus.log).length = (activeCycles s.bus.log).length + n

/-- No row but the last is marked `end`. -/
def straight (rows : List Row) : Prop := ∀ r ∈ rows.dropLast, ∀ c, r.last c = false

/-- A table without an early `end` takes a cycle a row, in every environment. -/
theorem takes_of_straight {rows : List Row} (htable : tableLike rows) (hrows : straight rows) {s : State}
    (ht : 1 ≤ s.cpu.t) : takes rows s rows.length := by
  obtain ⟨init, r, rfl, hsteady, -⟩ := htable
  rw [straight, List.dropLast_concat] at hrows
  induction init generalizing s with
  | nil =>
    rw [takes, List.nil_append, perform_cons, perform_nil, ite_self, Row.cycle_active]
    rfl
  | cons q init ih =>
    have hq : (q.cycle s).cpu.t = s.cpu.t + 1 := by
      rw [q.cycle_t (hsteady q (by simp)), hrows q (by simp)]
      rfl
    have hrest := ih (s := q.cycle s) (by omega) (fun p hp => hrows p (List.mem_cons_of_mem q hp))
      fun p hp => hsteady p (List.mem_cons_of_mem q hp)
    rw [takes, Row.cycle_active] at hrest
    rw [takes, List.cons_append, perform_next (by omega), hrest]
    simp only [List.length_cons]
    omega

theorem length_transactions (log : List BusCycle) : (transactions log).length = (activeCycles log).length := by
  induction log with
  | nil => rfl
  | cons c log ih => cases c <;> simp [ih]

/-- Where memory answers, a table without vector selection takes a cycle a transaction. -/
theorem takes_opsOf {rows : List Row} (hsel : ∀ r ∈ rows, r.selects = false) {s : State} (h : s.memoryAnswers) :
    takes rows s (opsOf s.cfg.map rows s.cpu s.bus.mem).length := by
  rw [takes, ← length_transactions, perform_performs rows hsel h, List.length_append, List.length_reverse,
    length_transactions, Nat.add_comm]

/-- The read column of R145: a transaction less than a cycle each before the operand. -/
theorem length_leadIn (mo : MemOperand) (c : Cpu) (rd : Word → Byte) :
    (leadIn false mo c rd).length + 1 = readCycles mo c rd := by
  cases mo with
  | zp z | zpx z | zpy z | abs w | indx z => rfl
  | absx w | absy w | indy z =>
    simp only [leadIn, readCycles, Bool.false_or]
    split <;> rfl

theorem takes_memReadRows (mo : MemOperand) {f : Byte → Cpu → Cpu} (hf : ∀ d c, (f d c).cross = c.cross) {s : State}
    (h : s.memoryAnswers) (ht : s.cpu.t = 1) : takes (memReadRows mo f) s (readCycles mo s.cpu s.peek) := by
  have hops := takes_opsOf (selects_memReadRows mo f) h
  rw [memReadRows_ops mo f _ _ _ ht hf, List.length_append, List.length_singleton, length_leadIn] at hops
  exact hops

theorem straight_append {front : List Row} {r : Row} (h : ∀ q ∈ front, ∀ c, q.last c = false) :
    straight (front ++ [r]) := by rwa [straight, List.dropLast_concat]

theorem straight_immediateRows (v : Byte) (f : Byte → Cpu → Cpu) : straight (immediateRows v f) :=
  straight_append (front := [opcodeRow true]) (List.forall_mem_singleton.2 fun _ => rfl)

theorem straight_impliedRows (f : Cpu → Cpu) : straight (impliedRows f) :=
  straight_append (front := [opcodeRow true]) (List.forall_mem_singleton.2 fun _ => rfl)

theorem not_last_storeAddressRows (mo : MemOperand) : ∀ q ∈ storeAddressRows mo, ∀ c, q.last c = false := by
  cases mo <;> simp [storeAddressRows, opcodeRow, loRow, hiRow, zpIndexRow, hiIndexRow, fixupRow, ptrRow, ptrIndexRow,
    ptrLoRow, ptrHiRow, ptrHiIndexRow]

theorem not_last_rmwAddressRows (mo : MemOperand) : ∀ q ∈ rmwAddressRows mo, ∀ c, q.last c = false := by
  cases mo <;> simp [rmwAddressRows, opcodeRow, loRow, hiRow, zpIndexEaRow, hiIndexRow, fixupRow, ptrRow, ptrIndexRow,
    ptrLoRow, ptrHiRow, ptrHiIndexRow, Row.also]

theorem straight_rmwRows (mo : MemOperand) (f : Cpu → Byte) (ex : Cpu → Cpu) : straight (rmwRows mo f ex) := by
  rw [rmwRows, rmwTail, straight, List.dropLast_append_of_ne_nil (by simp)]
  exact List.forall_mem_append.2 ⟨not_last_rmwAddressRows mo, by simp⟩

theorem length_storeAddressRows (mo : MemOperand) : (storeAddressRows mo).length + 1 = writeCycles mo := by
  cases mo <;> rfl

theorem length_rmwRows (mo : MemOperand) (f : Cpu → Byte) (ex : Cpu → Cpu) :
    (rmwRows mo f ex).length = rmwCycles mo := by
  cases mo <;> rfl

theorem takes_readRows (m : ReadOperand) {f : Byte → Cpu → Cpu} (hf : ∀ d c, (f d c).cross = c.cross)
    (hsteady : ∀ d c, (f d c).t = c.t ∧ (f d c).seq = c.seq)
    {s : State} (h : s.memoryAnswers) (ht : s.cpu.t = 1) :
    takes (readRows m f) s (operandCycles m s.cpu s.peek) := by
  cases m with
  | imm v => exact takes_of_straight (tableLike_immediateRows v hsteady) (straight_immediateRows v f) (by omega)
  | mem mo => exact takes_memReadRows mo hf h ht

/-- The REL row of R145. -/
theorem length_opsOf_branchRows (cond : Flags → Bool) (rel : Byte) (map : AddressMap) (c : Cpu) (m : Memory)
    (ht : c.t = 1) : (opsOf map (branchRows cond rel) c m).length = branchCycles (cond c.p) (c.pc + 2) rel := by
  have hpc : c.pc + 1#16 + 1#16 = c.pc + 2#16 := by rw [BitVec.add_assoc]; rfl
  cases hc : cond c.p with
  | false => simp [branchRows, opsOf, Row.values, ht, hc, branchCycles]
  | true =>
    cases hx : branchCrosses (c.pc + 2#16) rel <;>
      simp [branchRows, opsOf, Row.values, ht, hc, hpc, hx, branchCycles]

theorem takes_branchRows (cond : Flags → Bool) (rel : Byte) {s : State} (h : s.memoryAnswers) (ht : s.cpu.t = 1) :
    takes (branchRows cond rel) s (branchCycles (cond s.cpu.p) (s.cpu.pc + 2) rel) := by
  rw [← length_opsOf_branchRows cond rel s.cfg.map s.cpu s.bus.mem ht]
  exact takes_opsOf (by simp [branchRows]) h

/-- The tables without an early `end`: all but the indexed reads' and the branches'. -/
theorem takes_straight {i : Instr} (hi : ∀ k, i ≠ .kil k) (hrows : straight (rowsOf i)) {n : Nat}
    (hn : (rowsOf i).length = n) (s : State) : takes (rowsOf i) { s with cpu := s.cpu.start } n :=
  hn ▸ takes_of_straight (tableLike_rowsOf hi) hrows (Nat.le_refl 1)

/-- The documented number, table by table. -/
theorem takes_cycleCount {i : Instr} (hi : ∀ k, i ≠ .kil k) {s : State} (h : s.memoryAnswers) :
    takes (rowsOf i) { s with cpu := s.cpu.start } (cycleCount i s.cpu s.peek) := by
  have hread (m : ReadOperand) {f : Byte → Cpu → Cpu} (hf : ∀ d c, (f d c).cross = c.cross)
      (hsteady : ∀ d c, (f d c).t = c.t ∧ (f d c).seq = c.seq) :
      takes (readRows m f) { s with cpu := s.cpu.start } (operandCycles m s.cpu s.peek) :=
    takes_readRows m hf hsteady (s := { s with cpu := s.cpu.start }) h rfl
  have hmem (mo : MemOperand) {f : Byte → Cpu → Cpu} (hf : ∀ d c, (f d c).cross = c.cross) :
      takes (memReadRows mo f) { s with cpu := s.cpu.start } (readCycles mo s.cpu s.peek) :=
    takes_memReadRows mo hf (s := { s with cpu := s.cpu.start }) h rfl
  have hbranch (cond : Flags → Bool) (rel : Byte) :
      takes (branchRows cond rel) { s with cpu := s.cpu.start } (branchCycles (cond s.cpu.p) (s.cpu.pc + 2) rel) :=
    takes_branchRows cond rel (s := { s with cpu := s.cpu.start }) h rfl
  cases i
  case kil k => exact absurd rfl (hi k)
  case lda m | ldx m | ldy m | adc m | sbc m | and m | ora m | eor m | cmp m | cpx m | cpy m =>
    exact hread m (fun _ _ => rfl) fun _ _ => ⟨rfl, rfl⟩
  case bit m | lax m => exact hmem m fun _ _ => rfl
  case nopZp k z => exact hmem (.zp z) fun _ _ => rfl
  case nopZpx k z => exact hmem (.zpx z) fun _ _ => rfl
  case nopAbs w => exact hmem (.abs w) fun _ _ => rfl
  case nopAbsx k w => exact hmem (.absx w) fun _ _ => rfl
  case las w => exact hmem (.absy w) fun _ _ => rfl
  case bpl r => exact hbranch (fun p => !p.n) r
  case bvc r => exact hbranch (fun p => !p.v) r
  case bcc r => exact hbranch (fun p => !p.c) r
  case bne r => exact hbranch (fun p => !p.z) r
  case bmi r => exact hbranch (fun p => p.n) r
  case bvs r => exact hbranch (fun p => p.v) r
  case bcs r => exact hbranch (fun p => p.c) r
  case beq r => exact hbranch (fun p => p.z) r
  case sta m | stx m | sty m | sax m =>
    exact takes_straight hi (straight_append (not_last_storeAddressRows m))
      ((List.length_append ..).trans (length_storeAddressRows m)) s
  case ahxIndy | ahxAbsy | shy | shx | tas =>
    exact takes_straight hi (straight_append (not_last_storeAddressRows _)) rfl s
  case asl m | lsr m | rol m | ror m =>
    cases m with
    | acc => exact takes_straight hi (straight_impliedRows _) rfl s
    | mem mo => exact takes_straight hi (straight_rmwRows mo _ _) (length_rmwRows mo _ _) s
  case inc m | dec m | dcp m | isc m | slo m | rla m | sre m | rra m =>
    exact takes_straight hi (straight_rmwRows m _ _) (length_rmwRows m _ _) s
  case anc k v | alr v | arr v | axs v | xaa v | lxa v | usbc v =>
    exact takes_straight hi (straight_immediateRows v _) rfl s
  case nopImm k v => exact takes_straight hi (straight_immediateRows v fun _ c => c) rfl s
  case tax | tay | txa | tya | tsx | txs | inx | iny | dex | dey | clc | sec | cli | sei | clv | cld | sed | nop | nopImp =>
    exact takes_straight hi (straight_impliedRows _) rfl s
  case jmp | jmpInd | jsr | rts | rti | brk | pha | php | pla | plp =>
    refine takes_straight hi ?_ rfl s
    simp [straight, rowsOf, jmpRows, jmpIndRows, jsrRows, rtsRows, rtiRows, returnRows, brkRows, trapRows, phaRows,
      phpRows, plaRows, plpRows, pullRows, opcodeRow, dummyPcRow, loRow, hiRow, pushRow, pullDummyRow, trapFetchRow,
      trapPushRow]

/-- Settles O29: the log grows by the cycles its table takes. -/
theorem cycleCounts : Obligations.CycleCounts := by
  intro i s t h hexec
  rw [exec_next hexec]
  exact takes_cycleCount (exec_next_notKil hexec) h

end Sys2Proof.Machine
end

section
/-! PROOFS. The step at an instruction boundary in an environment that says nothing (40_bus_cycles R110, R112, R113). -/

namespace Sys2Proof.Machine

/-- In silence a cycle has no stall cycles before it. -/
theorem Row.cycle_quiet (r : Row) {s : State} (h : s.quiet) : r.cycle s = r.active s := by
  rw [Row.cycle, State.serveStalls_quiet h]

theorem State.beginStep_quiet {s : State} (h : s.quiet) :
    s.beginStep = { s with bus := { s.bus with log := [] } } :=
  State.serveStalls_quiet (s := { s with bus := { s.bus with log := [] } }) h

/-- With nothing due the next instruction is chosen (R112). -/
theorem State.boundary_of_noneDue {s : State} (h : s.noneDue) :
    s.boundary = { s with cpu := { s.cpu with seq := .instr } } := by
  simp [State.boundary, h.1, h.2]

/-- The first byte fetched ahead is the byte at `PC`, where memory answers. -/
theorem fetchAhead_memory (n : Nat) {s : State} (h : s.memoryAnswers) :
    fetchAhead (n + 1) s = s.peek s.cpu.pc :: fetchAhead n (opcodeRow.cycle s) := by
  have hlatch : (opcodeRow.cycle s).bus.latch = s.peek s.cpu.pc := by
    rw [Row.cycle_bus, Bus.transact_latch]
    exact State.data_memory h (.read s.cpu.pc)
  rw [fetchAhead, hlatch]

theorem peek_opcodeRow_cycle {s : State} (h : s.memoryAnswers) (a : Word) : (opcodeRow.cycle s).peek a = s.peek a := by
  rw [State.peek, Row.cycle_mem_memory _ h, Row.cycle_cfg]
  rfl

/-- Where memory answers, the bytes fetched ahead are the bytes from `PC` on. -/
theorem fetchAhead_three {s : State} (h : s.memoryAnswers) :
    fetchAhead 3 s = [s.peek s.cpu.pc, s.peek (s.cpu.pc + 1), s.peek (s.cpu.pc + 2)] := by
  have hpc (u : State) : (opcodeRow.cycle u).cpu.pc = u.cpu.pc + 1 := by rw [Row.cycle_cpu]; simp [opcodeRow]
  have hpc2 : s.cpu.pc + 1 + 1 = s.cpu.pc + 2 := by rw [BitVec.add_assoc]; rfl
  have h1 := opcodeRow.cycle_memoryAnswers h
  have h2 := opcodeRow.cycle_memoryAnswers h1
  rw [fetchAhead_memory 2 h, fetchAhead_memory 1 h1, fetchAhead_memory 0 h2]
  simp only [peek_opcodeRow_cycle h1, peek_opcodeRow_cycle h, hpc, hpc2, fetchAhead]

theorem decodeInstr_of_decode {bs rest : List Byte} {i : Instr} (h : decode bs = .ok (i, rest)) :
    decodeInstr bs = some i := by
  rw [decodeInstr, h]

/-- Settles O5: in silence the stall cycles and the decision leave all but the log and `seq`, and the fetch sees memory. -/
theorem stepRunsTheDecodedInstruction : Obligations.StepRunsTheDecodedInstruction := by
  intro s i rest hquiet ht hnone hdecode
  have hstart : s.beginStep.boundary =
      { s with cpu := { s.cpu with seq := .instr }, bus := { s.bus with log := [] } } := by
    rw [State.beginStep_quiet hquiet]
    exact State.boundary_of_noneDue (s := { s with bus := { s.bus with log := [] } }) hnone
  have hfetched : s.beginStep.boundary.fetched = some i := by
    rw [State.fetched, fetchAhead_three (State.quiet_memoryAnswers (by rw [hstart]; exact hquiet)), hstart]
    exact decodeInstr_of_decode hdecode
  have hplan : plan s = .instruction i s.beginStep.boundary := by
    simp only [plan, State.beginStep_cpu, if_pos ht, hfetched]
    simp only [hstart]
  rw [step, hplan, hstart]

end Sys2Proof.Machine
end

section
/-! PROOFS. A step is its cycles (40_bus_cycles R110 to R112, 10_state R29): the machine that performs one CPU cycle a call goes
through the rows of the table the step runs, because every operand byte enters a table in the very cycle that reads it. -/

namespace Sys2Proof.Machine

/-! ## One cycle -/

/-- The state of which a cycle's row is chosen: after the stall cycles, and at a boundary after its decision. -/
def State.due (s : State) : State := if s.cpu.t = 1 then s.serveStalls.boundary else s.serveStalls

/-- The instruction a cycle belongs to: the one at `PC` at a boundary, the one in progress elsewhere. -/
def State.dueInstr (s : State) : Option Instr := if s.cpu.t = 1 then s.due.fetched else s.due.inProgress

theorem State.due_of_boundary {s : State} (ht : s.cpu.t = 1) : s.due = s.serveStalls.boundary := if_pos ht

theorem State.due_of_midway {s : State} (ht : s.cpu.t ≠ 1) : s.due = s.serveStalls := if_neg ht

theorem State.dueInstr_of_boundary {s : State} (ht : s.cpu.t = 1) : s.dueInstr = s.due.fetched := if_pos ht

theorem State.dueInstr_of_midway {s : State} (ht : s.cpu.t ≠ 1) : s.dueInstr = s.due.inProgress := if_neg ht

theorem cycle_of_cons {s : State} {r : Row} {rest : List Row} (h : s.due.rowsLeft s.dueInstr = r :: rest) :
    cycle s = .next (r.cycle s.due) := by
  unfold State.dueInstr State.due at *
  by_cases ht : s.cpu.t = 1 <;> simp only [ht, if_true, if_false] at h ⊢ <;> simp [cycle, ht, h]

theorem cycle_of_nil {s : State} (h : s.due.rowsLeft s.dueInstr = []) : cycle s = noRow s.due s.dueInstr := by
  unfold State.dueInstr State.due at *
  by_cases ht : s.cpu.t = 1 <;> simp only [ht, if_true, if_false] at h ⊢ <;> simp [cycle, ht, h]

theorem cycle_serveStalls (s : State) : cycle s.serveStalls = cycle s := by
  simp only [cycle, State.serveStalls_idem]

theorem cyclesToBoundary_serveStalls (n : Nat) (s : State) : cyclesToBoundary n s.serveStalls = cyclesToBoundary n s := by
  cases n with
  | zero => rfl
  | succ n => rw [cyclesToBoundary, cyclesToBoundary, cycle_serveStalls]

/-! ## The log below -/

section
variable (s : State) (old : List BusCycle)

theorem State.due_under : (s.under old).due = s.due.under old := by
  simp only [State.due, State.serveStalls_under, State.boundary_under, State.under_cpu]
  exact (apply_ite (State.under · old) ..).symm

theorem State.fetched_under : (s.under old).fetched = s.fetched := by
  rw [State.fetched, State.fetched, fetchAhead_under]

theorem State.inProgress_under : (s.under old).inProgress = s.inProgress := by
  unfold State.inProgress
  rw [fetchAhead_under]
  rfl

theorem State.dueInstr_under : (s.under old).dueInstr = s.dueInstr := by
  simp only [State.dueInstr, State.due_under, State.fetched_under, State.inProgress_under, State.under_cpu]

end

/-- A cycle that completes over an older log completes without it, in the same state but for that log. -/
theorem cycle_of_under {s w : State} {old : List BusCycle} (h : cycle (s.under old) = .next w) :
    ∃ u, cycle s = .next u ∧ w = u.under old := by
  have hrows : (s.under old).due.rowsLeft (s.under old).dueInstr = s.due.rowsLeft s.dueInstr := by
    rw [State.due_under, State.dueInstr_under]
    rfl
  cases hleft : s.due.rowsLeft s.dueInstr with
  | nil =>
    rw [cycle_of_nil (hrows.trans hleft)] at h
    exact absurd h (noRow_ne_next _ _ _)
  | cons r rest =>
    rw [cycle_of_cons (hrows.trans hleft), State.due_under, Row.cycle_under] at h
    exact ⟨_, cycle_of_cons hleft, (Host.Outcome.next.inj h).symm⟩

/-- What completes in `n + 1` cycles at most, by its first cycle. -/
theorem cyclesToBoundary_succ_next {n : Nat} {s t : State} (h : cyclesToBoundary (n + 1) s = .next t) :
    ∃ u, cycle s = .next u ∧ (u.cpu.t = 1 ∧ u = t ∨ u.cpu.t ≠ 1 ∧ cyclesToBoundary n u = .next t) := by
  rw [cyclesToBoundary] at h
  split at h
  · rename_i u hu
    refine ⟨u, hu, ?_⟩
    split at h
    · exact .inl ⟨‹_›, Host.Outcome.next.inj h⟩
    · exact .inr ⟨‹_›, h⟩
  · cases h
  · cases h

theorem cyclesToBoundary_succ {n : Nat} {s u : State} (h : cycle s = .next u) (ht : u.cpu.t ≠ 1) :
    cyclesToBoundary (n + 1) s = cyclesToBoundary n u := by
  rw [cyclesToBoundary, h]
  exact if_neg ht

theorem cyclesToBoundary_last {n : Nat} {s u : State} (h : cycle s = .next u) (ht : u.cpu.t = 1) :
    cyclesToBoundary (n + 1) s = .next u := by
  rw [cyclesToBoundary, h]
  exact if_pos ht

/-- More cycles allowed than are needed change nothing. -/
theorem cyclesToBoundary_mono {n : Nat} {s t : State} (h : cyclesToBoundary n s = .next t) :
    cyclesToBoundary (n + 1) s = .next t := by
  induction n generalizing s with
  | zero => cases h
  | succ n ih =>
    obtain ⟨u, hu, ⟨ht, rfl⟩ | ⟨ht, hrest⟩⟩ := cyclesToBoundary_succ_next h
    · exact cyclesToBoundary_last hu ht
    · rw [cyclesToBoundary_succ hu ht, ih hrest]

theorem cyclesToBoundary_of_under {n : Nat} {s w : State} {old : List BusCycle}
    (h : cyclesToBoundary n (s.under old) = .next w) : ∃ t, cyclesToBoundary n s = .next t ∧ w = t.under old := by
  induction n generalizing s with
  | zero => cases h
  | succ n ih =>
    obtain ⟨_, hu, hrest⟩ := cyclesToBoundary_succ_next h
    obtain ⟨u, hcycle, rfl⟩ := cycle_of_under hu
    obtain ⟨ht, rfl⟩ | ⟨ht, hrest⟩ := hrest
    · exact ⟨u, cyclesToBoundary_last hcycle ht, rfl⟩
    · obtain ⟨t, hrun, rfl⟩ := ih hrest
      exact ⟨t, by rw [cyclesToBoundary_succ hcycle ht, hrun], rfl⟩

/-! ## Runs, cycle by cycle -/

/-- Cycle by cycle, the machine performs these rows up to the one that ends the table. -/
inductive Runs : List Row → State → Prop where
  | last {r : Row} {rest : List Row} {s : State} (h : cycle s = .next (r.cycle s)) (ht : (r.cycle s).cpu.t = 1) :
      Runs (r :: rest) s
  | next {r : Row} {rest : List Row} {s : State} (h : cycle s = .next (r.cycle s)) (ht : (r.cycle s).cpu.t ≠ 1)
      (hrest : Runs rest (r.cycle s)) : Runs (r :: rest) s

/-- Where the machine performs the rows cycle by cycle, it ends where the run of the rows ends. -/
theorem Runs.cyclesToBoundary_eq {rows : List Row} {s : State} (h : Runs rows s) {n : Nat} (hn : rows.length ≤ n) :
    cyclesToBoundary n s = .next (perform rows s) := by
  induction h generalizing n with
  | last h ht =>
    obtain ⟨n, rfl⟩ := Nat.exists_eq_add_of_lt (Nat.lt_of_lt_of_le (Nat.succ_pos _) hn)
    rw [Nat.zero_add, cyclesToBoundary_last h ht, perform_last ht]
  | next h ht _ ih =>
    obtain ⟨n, rfl⟩ := Nat.exists_eq_add_of_lt (Nat.lt_of_lt_of_le (Nat.succ_pos _) hn)
    rw [Nat.zero_add, cyclesToBoundary_succ h ht, ih (by simpa using hn), perform_next ht]

/-- A cycle inside a table performs the row the table in progress has for it. -/
theorem cycle_midway {s : State} {r : Row} (ht : s.cpu.t ≠ 1) (hr : (s.rowsLeft s.inProgress).head? = some r) :
    cycle s = .next (r.cycle s) := by
  obtain ⟨rest, hrest⟩ := List.head?_eq_some_iff.1 hr
  have hdue : s.due.rowsLeft s.dueInstr = r :: rest := by
    rw [State.dueInstr_of_midway ht, State.due_of_midway ht, State.inProgress_serveStalls, ← hrest]
    simp only [State.rowsLeft, State.table_serveStalls, State.serveStalls_cpu, State.serveStalls_cfg]
  rw [cycle_of_cons hdue, State.due_of_midway ht, Row.cycle_serveStalls]

/-- A cycle that does not end its table moves `T` on by one and keeps `seq`. -/
theorem Row.cycle_go {r : Row} (hr : r.steady) {s : State} (ht : (r.cycle s).cpu.t ≠ 1) :
    (r.cycle s).cpu.t = s.cpu.t + 1 ∧ (r.cycle s).cpu.seq = s.cpu.seq := by
  rw [r.cycle_t hr] at ht ⊢
  rw [r.cycle_seq hr]
  split at ht
  · exact absurd rfl ht
  · rename_i hlast
    exact ⟨if_neg hlast, if_neg hlast⟩

theorem tableLike_steady {rows : List Row} (h : tableLike rows) : ∀ r ∈ rows, r.steady := by
  obtain ⟨init, r, rfl, hsteady, -⟩ := h
  exact hsteady

/-- The last row of a table ends it. -/
theorem tableLike_cycle_last {rows : List Row} (h : tableLike rows) {n : Nat} {r : Row} (hr : rows[n]? = some r)
    (hn : n + 1 = rows.length) (s : State) : (r.cycle s).cpu.t = 1 := by
  obtain ⟨init, q, rfl, hsteady, hlast⟩ := h
  obtain rfl : n = init.length := by simpa using hn
  obtain rfl : q = r := by simpa using hr
  rw [q.cycle_t (hsteady q (by simp)), hlast]
  rfl

/-- One cycle of a run: unless it ends the table, there are rows left, and they run on. -/
theorem runs_step {rows : List Row} (htable : tableLike rows) {n : Nat} {r : Row} (hr : rows[n]? = some r) {s : State}
    (hcycle : cycle s = .next (r.cycle s))
    (hrest : (r.cycle s).cpu.t ≠ 1 → n + 1 < rows.length → Runs (rows.drop (n + 1)) (r.cycle s)) :
    Runs (rows.drop n) s := by
  obtain ⟨hn, rfl⟩ := List.getElem?_eq_some_iff.1 hr
  rw [List.drop_eq_getElem_cons hn]
  by_cases hend : (rows[n].cycle s).cpu.t = 1
  · exact .last hcycle hend
  · have hmore : n + 1 ≠ rows.length := fun h => hend (tableLike_cycle_last htable hr h s)
    exact .next hcycle hend (hrest hend (by omega))

/-- The rows of a table from row `k` on run cycle by cycle, when whatever holds at row `k` and is kept by these rows says that
the row due is the table's. -/
theorem runs_drop {K : State → Prop} {rows : List Row} {k : Nat} (hk : 1 ≤ k) (htable : tableLike rows)
    (hkeeps : ∀ n r u, k ≤ n → rows[n]? = some r → K u → (r.cycle u).cpu.t ≠ 1 → K (r.cycle u))
    (hdue : ∀ n u, k ≤ n → K u → u.cpu.t = n + 1 → (u.rowsLeft u.inProgress).head? = rows[n]?)
    {n : Nat} (hkn : k ≤ n) (hn : n < rows.length) {s : State} (hs : K s) (ht : s.cpu.t = n + 1) :
    Runs (rows.drop n) s := by
  induction hm : rows.length - n generalizing n s with
  | zero => omega
  | succ m ih =>
    have hr : rows[n]? = some rows[n] := List.getElem?_eq_getElem hn
    refine runs_step htable hr (cycle_midway (by omega) ((hdue n s hkn hs ht).trans hr)) fun hend hmore => ?_
    have hgo := Row.cycle_go (tableLike_steady htable _ (List.getElem_mem hn)) hend
    exact ih (by omega) hmore (hkeeps n _ s hkn hr hs hend) (by omega) (by omega)

end Sys2Proof.Machine
end

section
/-! PROOFS. The operand bytes of a table (30_encoding R80, R84; 40_bus_cycles R110): each is used in the cycle that reads it. -/

namespace Sys2Proof

open Machine

/-- A cell's operand bytes are used when they are read: an operand byte in the table's second row alone, of an operand word
the low byte in the second and the high byte in the third. -/
def Entry.UsesWhenRead : Entry → Prop
  | .one _ => True
  | .two f => ∀ b b', (rowsOf (f b)).drop 2 = (rowsOf (f b')).drop 2
  | .three f =>
    (∃ poll, ∀ w, (rowsOf (f w))[1]? = some (loRow (loByte w) poll)) ∧
    (∀ w w', hiByte w = hiByte w' → (rowsOf (f w))[2]? = (rowsOf (f w'))[2]?) ∧
    ∀ w w', (rowsOf (f w)).drop 3 = (rowsOf (f w')).drop 3

/-- The operand bytes of a cell decide neither its policy nor, outside the rows that read them, its table. -/
structure Entry.Timely (e : Entry) : Prop where
  unlisted : ∀ b b' w w', isUnlisted (e.instr b w) = isUnlisted (e.instr b' w')
  rows : e.UsesWhenRead

/-- A branch has used its offset once its second row has latched it. -/
theorem drop_branchRows (cond : Flags → Bool) (b b' : Byte) :
    (branchRows cond b).drop 2 = (branchRows cond b').drop 2 := by
  simp only [branchRows, List.drop_succ_cons]

/-- All cells of a row are timely. -/
def rowTimely : List Entry → Prop
  | [] => True
  | e :: es => e.Timely ∧ rowTimely es

/-- R84, column by column of each of its rows. A cell takes no operand byte, a word, a branch offset, or another byte: a line
below for each. -/
theorem rowTimely_mapRow : ∀ n, rowTimely (mapRow n)
  | 0 | 1 | 2 | 3 | 4 | 5 | 6 | 7 | 8 | 9 | 10 | 11 | 12 | 13 | 14 | 15 => by
    refine ⟨?_, ?_, ?_, ?_, ?_, ?_, ?_, ?_, ?_, ?_, ?_, ?_, ?_, ?_, ?_, ?_, trivial⟩ <;>
      refine ⟨fun _ _ _ _ => rfl, ?_⟩ <;> first
        | exact trivial
        | exact ⟨⟨_, fun _ => rfl⟩, fun w w' h => congrArg some (by congr!), fun _ _ => rfl⟩
        | exact fun b b' => drop_branchRows _ b b'
        | exact fun _ _ => rfl
  | _ + 16 => trivial

theorem timely_of_rowTimely {es : List Entry} {e : Entry} (h : rowTimely es) (he : e ∈ es) : e.Timely := by
  induction es with
  | nil => cases he
  | cons e' es ih =>
    obtain ⟨hfirst, hrest⟩ := h
    obtain rfl | he := List.mem_cons.1 he
    · exact hfirst
    · exact ih hrest he

theorem timely_entryOf {op : Byte} {e : Entry} (he : entryOf op = some e) : e.Timely :=
  timely_of_rowTimely (rowTimely_mapRow _) (List.mem_of_getElem? he)

end Sys2Proof
end

section
/-! PROOFS. A step is its cycles: the instruction in progress, cycle by cycle, and the two halves of the statement. -/

namespace Sys2Proof.Machine

/-! ## The byte at `PC` -/

/-- The byte the next cycle reads, if it reads at `PC`. -/
def State.byteAhead (s : State) : Byte := (opcodeRow.cycle s).bus.latch

theorem stalls_bus_congr (is : List Stall) {s u : State} (hbus : s.bus = u.bus) (hcfg : s.cfg = u.cfg) :
    (is.foldl State.stallCycle s).bus = (is.foldl State.stallCycle u).bus := by
  induction is generalizing s u with
  | nil => exact hbus
  | cons i is ih => exact ih (by simp only [State.stallCycle_bus, hbus, hcfg]) hcfg

theorem State.serveStalls_bus_congr {s u : State} (hbus : s.bus = u.bus) (hcfg : s.cfg = u.cfg) :
    s.serveStalls.bus = u.serveStalls.bus := by
  cases h : u.bus.inputs with
  | nil => rw [State.serveStalls_quiet h, State.serveStalls_quiet (by rw [State.quiet, hbus, h]), hbus]
  | cons i rest =>
    rw [State.serveStalls_cons h, State.serveStalls_cons (by rw [hbus, h])]
    simp only [stalls_bus_congr _ hbus hcfg]

/-- The bus after a cycle depends on the bus before it, the parameters and the transaction alone. -/
theorem Row.cycle_bus_congr {r q : Row} {s u : State} (hbus : s.bus = u.bus) (hcfg : s.cfg = u.cfg)
    (hop : r.bus s.cpu = q.bus u.cpu) : (r.cycle s).bus = (q.cycle u).bus := by
  rw [Row.cycle_bus, Row.cycle_bus, State.serveStalls_bus_congr hbus hcfg, hcfg, hop]

theorem State.byteAhead_congr {s u : State} (hbus : s.bus = u.bus) (hcfg : s.cfg = u.cfg) (hpc : s.cpu.pc = u.cpu.pc) :
    s.byteAhead = u.byteAhead := by
  have hop : (opcodeRow false).bus s.cpu = (opcodeRow false).bus u.cpu := congrArg BusOp.read hpc
  rw [State.byteAhead, State.byteAhead, Row.cycle_bus_congr hbus hcfg hop]

/-- The opcode, the operand byte or the operand word's low byte, and its high byte, as far as the instruction has them. -/
theorem State.fetched_eq {s : State} {e : Entry} (he : entryOf s.byteAhead = some e) :
    s.fetched = some (e.instr (opcodeRow.cycle s).byteAhead
      (join (opcodeRow.cycle (opcodeRow.cycle s)).byteAhead (opcodeRow.cycle s).byteAhead)) := by
  rw [State.byteAhead] at he
  simp only [State.fetched, fetchAhead, decodeInstr]
  cases e <;> simp [decode, he, Entry.instr, State.byteAhead]

theorem State.inProgress_eq {s : State} {e : Entry} (he : entryOf s.cpu.ir = some e) :
    s.inProgress = some (e.instr s.byteAhead (join s.byteAhead s.byteAhead)) := by
  simp only [State.inProgress, fetchAhead, decodeInstr]
  cases e <;> simp [decode, he, Entry.instr, State.byteAhead]

/-! ## The instruction in progress -/

/-- Inside an instruction: its opcode in `IR`. -/
structure State.Midway (op : Byte) (cfg : Config) (u : State) : Prop where
  seq : u.cpu.seq = .instr
  ir : u.cpu.ir = op
  cfg : u.cfg = cfg

/-- The next cycle is inside the same instruction, unless it is the first of another. -/
theorem State.Midway.cycle {op : Byte} {cfg : Config} {u : State} (h : u.Midway op cfg) {r : Row} (hr : r.steady)
    (hir : r.KeepsIr) (ht : (r.cycle u).cpu.t ≠ 1) : (r.cycle u).Midway op cfg where
  seq := (Row.cycle_go hr ht).2.trans h.seq
  ir := (hir.cycle_ir u).trans h.ir
  cfg := (r.cycle_cfg u).trans h.cfg

theorem rowsLeft_instr {s : State} {i : Instr} (hseq : s.cpu.seq = .instr)
    (hlisted : s.cfg.unlisted = .refuse → isUnlisted i = false) {n : Nat} (ht : s.cpu.t = n + 1) :
    s.rowsLeft (some i) = (rowsOf i).drop n := by
  have hrun : ¬(s.cpu.seq = .instr ∧ s.cfg.unlisted = .refuse ∧ ((some i).map isUnlisted).getD false) :=
    fun h => by simp [hlisted h.2.1] at h
  rw [State.rowsLeft, if_neg (by omega), if_neg hrun, State.table, hseq, ht]
  rfl

/-- The row due inside an instruction: the one of the table that the opcode and the byte at `PC` give. -/
theorem State.Midway.row_due {op : Byte} {cfg : Config} {u : State} (h : u.Midway op cfg) {e : Entry}
    (he : entryOf op = some e) (hlisted : cfg.unlisted = .refuse → ∀ b w, isUnlisted (e.instr b w) = false) {n : Nat}
    (ht : u.cpu.t = n + 1) :
    (u.rowsLeft u.inProgress).head? = (rowsOf (e.instr u.byteAhead (join u.byteAhead u.byteAhead)))[n]? := by
  rw [State.inProgress_eq (by rw [h.ir, he]), rowsLeft_instr h.seq (fun hcfg => hlisted (h.cfg ▸ hcfg) _ _) ht,
    List.head?_drop]

theorem getElem?_eq_of_drop_eq {l l' : List Row} {k n : Nat} (h : l.drop k = l'.drop k) (hn : k ≤ n) : l[n]? = l'[n]? := by
  have hget := congrArg (·[n - k]?) h
  simpa only [List.getElem?_drop, Nat.add_sub_cancel' hn] using hget

theorem fetchFirst_keepsIr {rows : List Row} (h : fetchFirst rows) {n : Nat} {r : Row} (hn : 1 ≤ n)
    (hr : rows[n]? = some r) : r.KeepsIr := by
  obtain ⟨q, rest, rfl, -, hrest⟩ := h
  obtain ⟨n, rfl⟩ := Nat.exists_eq_add_of_le' hn
  exact hrest r (List.mem_of_getElem? hr)

section
variable {op : Byte} {cfg : Config} {e : Entry} {i : Instr} (he : entryOf op = some e)
  (hlisted : cfg.unlisted = .refuse → ∀ b w, isUnlisted (e.instr b w) = false) (hkil : ∀ k, i ≠ .kil k)
include he hlisted hkil

/-- The machine performs row `n` of the table, when it is the row that the opcode and the byte at `PC` give. -/
theorem State.Midway.runs_step {u : State} (hu : u.Midway op cfg) {n : Nat} (hn : 1 ≤ n) (ht : u.cpu.t = n + 1) {r : Row}
    (hr : (rowsOf i)[n]? = some r) (hdue : (rowsOf (e.instr u.byteAhead (join u.byteAhead u.byteAhead)))[n]? = some r)
    (hrest : (r.cycle u).Midway op cfg → (r.cycle u).cpu.t = n + 1 + 1 → n + 1 < (rowsOf i).length →
      Runs ((rowsOf i).drop (n + 1)) (r.cycle u)) : Runs ((rowsOf i).drop n) u := by
  have hsteady := tableLike_steady (tableLike_rowsOf hkil) r (List.mem_of_getElem? hr)
  have hir := fetchFirst_keepsIr (fetchFirst_rowsOf hkil) hn hr
  refine Machine.runs_step (tableLike_rowsOf hkil) hr (cycle_midway (by omega) ?_) fun hgo hmore => ?_
  · rw [hu.row_due he hlisted ht, hdue]
  · exact hrest (hu.cycle hsteady hir hgo) (by rw [(Row.cycle_go hsteady hgo).1, ht]) hmore

/-- The machine performs the rows from `k` on, when the operand no longer matters to them. -/
theorem State.Midway.runs_drop {u : State} (hu : u.Midway op cfg) {k : Nat} (hk : 1 ≤ k) (ht : u.cpu.t = k + 1)
    (hlength : k < (rowsOf i).length) (hlate : ∀ b w, (rowsOf (e.instr b w)).drop k = (rowsOf i).drop k) :
    Runs ((rowsOf i).drop k) u := by
  refine Machine.runs_drop (K := State.Midway op cfg) hk (tableLike_rowsOf hkil) (fun n r u hn hr hu hgo => ?_)
    (fun n u hn hu ht => ?_) (Nat.le_refl k) hlength hu ht
  · exact hu.cycle (tableLike_steady (tableLike_rowsOf hkil) r (List.mem_of_getElem? hr))
      (fetchFirst_keepsIr (fetchFirst_rowsOf hkil) (by omega) hr) hgo
  · exact (hu.row_due he hlisted ht).trans (getElem?_eq_of_drop_eq (hlate _ _) hn)

end

/-- From its second cycle on the machine runs the instruction that was fetched ahead: what a row needs of the operand is read by
the row's own cycle, and what an earlier row has taken is in the latches. -/
theorem State.Midway.runs {op b h : Byte} {cfg : Config} {e : Entry} (he : entryOf op = some e)
    (hlisted : cfg.unlisted = .refuse → ∀ b w, isUnlisted (e.instr b w) = false)
    (hkil : ∀ k, e.instr b (join h b) ≠ .kil k) (hlength : 1 < (rowsOf (e.instr b (join h b))).length) {u : State}
    (hu : u.Midway op cfg) (ht : u.cpu.t = 2) (hb : u.byteAhead = b) (hh : (opcodeRow.cycle u).byteAhead = h) :
    Runs ((rowsOf (e.instr b (join h b))).drop 1) u := by
  have hlate := (timely_entryOf he).rows
  cases e with
  | one i => exact hu.runs_drop he hlisted hkil (Nat.le_refl 1) ht hlength fun _ _ => rfl
  | two f =>
    have hr := List.getElem?_eq_getElem hlength
    refine hu.runs_step he hlisted hkil (Nat.le_refl 1) ht hr (hb ▸ hr) fun hu' ht' hmore => ?_
    exact hu'.runs_drop he hlisted hkil (by decide) ht' hmore fun _ _ => hlate _ _
  | three f =>
    obtain ⟨⟨poll, hlo⟩, hhi, hlater⟩ := hlate
    have hr (h : Byte) : (rowsOf (f (join h b)))[1]? = some (loRow b poll) := by rw [hlo, loByte_join]
    refine hu.runs_step he hlisted hkil (Nat.le_refl 1) ht (hr h) (hb ▸ hr _) fun hu' ht' hmore => ?_
    have hh' : ((loRow b poll).cycle u).byteAhead = h := by
      rw [← hh]
      refine State.byteAhead_congr (Row.cycle_bus_congr rfl rfl rfl) (by simp) ?_
      rw [Row.cycle_cpu_plain rfl, Row.cycle_cpu_plain rfl]
      simp [loRow, opcodeRow]
    have hr' := List.getElem?_eq_getElem hmore
    refine hu'.runs_step he hlisted hkil (by decide) ht' hr' ((hhi _ _ ?_).trans hr') fun hu'' ht'' hmore' => ?_
    · rw [hh', hiByte_join, hiByte_join]
    · exact hu''.runs_drop he hlisted hkil (by decide) ht'' hmore' fun _ _ => hlater _ _

/-! ## The two halves of the statement -/

theorem one_lt_length_rowsOf {i : Instr} (hi : ∀ k, i ≠ .kil k) : 1 < (rowsOf i).length := by
  obtain ⟨r, rest, hrows, hfetch, -⟩ := fetchFirst_rowsOf hi
  obtain ⟨init, q, hlast, -, hq⟩ := tableLike_rowsOf hi
  cases rest with
  | cons q' rest => simp [hrows]
  | nil =>
    obtain rfl : r = q := by
      have := hrows.symm.trans hlast
      cases init <;> simp_all
    have hend := hq State.reset.cpu
    rw [hfetch.last] at hend
    cases hend

theorem length_memReadRows_le (mo : MemOperand) (f : Byte → Cpu → Cpu) : (memReadRows mo f).length ≤ 8 := by
  cases mo <;> simp [memReadRows]

/-- The longest table has eight rows. -/
theorem length_rowsOf_le (i : Instr) : (rowsOf i).length ≤ 8 := by
  cases i
  case lda m | ldx m | ldy m | adc m | sbc m | and m | ora m | eor m | cmp m | cpx m | cpy m =>
    rcases m with v | mo
    · exact Nat.le_of_ble_eq_true rfl
    · exact length_memReadRows_le mo _
  case asl m | lsr m | rol m | ror m =>
    rcases m with _ | mo
    · exact Nat.le_of_ble_eq_true rfl
    · cases mo <;> exact Nat.le_of_ble_eq_true rfl
  case sta m | stx m | sty m | sax m | bit m | lax m | inc m | dec m | dcp m | isc m | slo m | rla m | sre m | rra m =>
    cases m <;> exact Nat.le_of_ble_eq_true rfl
  all_goals exact Nat.le_of_ble_eq_true rfl

/-- Refused by name, once its opcode is fetched (R298). -/
theorem exec_refused {i : Instr} {s : State} (hi : isUnlisted i = true) (hcfg : s.cfg.unlisted = .refuse) :
    exec i s = .refused (.unlistedOpcode s.fetchOpcode) := by
  by_cases hkil : ∃ k, i = .kil k
  · obtain ⟨k, rfl⟩ := hkil
    simp only [exec, execKil, hcfg]
  · rw [exec_unlisted hi (fun k h => hkil ⟨k, h⟩)]
    simp only [unlisted, hcfg]

/-- What completes, or jams, runs the table; nothing else does. -/
theorem exec_of_listed {i : Instr} {s : State} (hlisted : s.cfg.unlisted = .refuse → isUnlisted i = false)
    (hkil : ∀ k, i ≠ .kil k) : exec i s = runInstr (rowsOf i) s := by
  cases hi : isUnlisted i with
  | false => exact exec_admitted hi s
  | true =>
    rw [exec_unlisted hi hkil]
    cases hpolicy : s.cfg.unlisted with
    | refuse => simp [hlisted hpolicy] at hi
    | conventional => simp only [unlisted, hpolicy]

theorem cyclesToBoundary_refused {n : Nat} {s : State} {r : Refusal} (h : cycle s = .refused r) :
    cyclesToBoundary (n + 1) s = .refused r := by
  rw [cyclesToBoundary, h]

theorem cyclesToBoundary_fault {n : Nat} {s : State} {r : Fault} (h : cycle s = .fault r) :
    cyclesToBoundary (n + 1) s = .fault r := by
  rw [cyclesToBoundary, h]

/-- A table that is not over after its first row: the rest runs cycle by cycle. -/
theorem cyclesToBoundary_table {s : State} {r : Row} {rest : List Row} {n : Nat}
    (hrows : s.due.rowsLeft s.dueInstr = r :: rest) (hgo : (r.cycle s.due).cpu.t ≠ 1)
    (hrest : Runs rest (r.cycle s.due)) (hlength : (r :: rest).length ≤ n + 1) :
    cyclesToBoundary (n + 1) s = .next (perform (r :: rest) s.due) := by
  rw [cyclesToBoundary_succ (cycle_of_cons hrows) hgo, hrest.cyclesToBoundary_eq (Nat.le_of_succ_le_succ hlength),
    perform_next hgo]

/-! ### The opcode fetch -/

theorem fetches_opcodeRow (poll : Bool) : (opcodeRow poll).Fetches := {}

section
variable {r : Row} (h : r.Fetches) (s : State)
include h

theorem Row.Fetches.steady : r.steady := fun d c => by
  rw [h.act]
  exact ⟨rfl, rfl⟩

theorem Row.Fetches.cycle_t : (r.cycle s).cpu.t = s.cpu.t + 1 := by
  rw [r.cycle_t h.steady, h.last]
  rfl

theorem Row.Fetches.cycle_pc : (r.cycle s).cpu.pc = s.cpu.pc + 1 := by
  rw [Row.cycle_cpu]
  simp [h.act]

/-- The fetch leaves the bus as a fetch ahead leaves it. -/
theorem Row.Fetches.cycle_bus : (r.cycle s).bus = (opcodeRow.cycle s).bus :=
  Row.cycle_bus_congr rfl rfl (h.bus s.cpu)

theorem Row.Fetches.cycle_midway (hseq : s.cpu.seq = .instr) : (r.cycle s).Midway s.byteAhead s.cfg where
  seq := by rw [r.cycle_seq h.steady, h.last, hseq]; rfl
  ir := by
    rw [Row.cycle_cpu, State.byteAhead, ← h.cycle_bus, Row.cycle_bus, h.bus]
    simp [h.act]
  cfg := r.cycle_cfg s

end

/-- After its fetch the instruction at `PC` runs cycle by cycle. -/
theorem runs_after_fetch {s : State} {i : Instr} (ht : s.cpu.t = 1) (hseq : s.cpu.seq = .instr)
    (hi : s.fetched = some i) (hlisted : s.cfg.unlisted = .refuse → isUnlisted i = false) (hkil : ∀ k, i ≠ .kil k)
    {r : Row} {rest : List Row} (htable : rowsOf i = r :: rest) (hfetch : r.Fetches) : Runs rest (r.cycle s) := by
  obtain ⟨e, he⟩ := exists_entryOf s.byteAhead
  obtain rfl := Option.some.inj (hi.symm.trans (State.fetched_eq he))
  have hbus := hfetch.cycle_bus s
  have hcfg : (r.cycle s).cfg = (opcodeRow.cycle s).cfg := by simp
  have hpc : (r.cycle s).cpu.pc = (opcodeRow.cycle s).cpu.pc := by
    rw [hfetch.cycle_pc, (fetches_opcodeRow false).cycle_pc]
  have hpc' : (opcodeRow.cycle (r.cycle s)).cpu.pc = (opcodeRow.cycle (opcodeRow.cycle s)).cpu.pc := by
    rw [(fetches_opcodeRow false).cycle_pc, (fetches_opcodeRow false).cycle_pc, hpc]
  have hlisted' (hpolicy : s.cfg.unlisted = .refuse) (b : Byte) (w : Word) : isUnlisted (e.instr b w) = false :=
    ((timely_entryOf he).unlisted _ _ _ _).trans (hlisted hpolicy)
  have hruns := (hfetch.cycle_midway s hseq).runs he hlisted' hkil (one_lt_length_rowsOf hkil)
    (by rw [hfetch.cycle_t, ht]) (State.byteAhead_congr hbus hcfg hpc)
    (State.byteAhead_congr (Row.cycle_bus_congr hbus hcfg (congrArg BusOp.read hpc)) (by simp) hpc')
  rwa [htable] at hruns

/-! ### What is due at a boundary -/

theorem length_trapRows (k : Trap) : (trapRows k).length = 7 := rfl

theorem State.table_reset {s : State} (h : s.cpu.seq = .reset) (i : Option Instr) : s.table i = trapRows .reset := by
  simp only [State.table, h]

theorem State.table_int {s : State} (h : s.cpu.seq = .int) (i : Option Instr) : s.table i = trapRows .int := by
  simp only [State.table, h]

section
variable {s : State} (ht : s.cpu.t = 1)
include ht

theorem State.due_t : s.due.cpu.t = 1 := by
  rw [State.due_of_boundary ht]
  simpa using ht

/-- An instruction that is not refused and does not jam: its table, cycle by cycle. -/
theorem cyclesToBoundary_runs {i : Instr} (hseq : s.due.cpu.seq = .instr) (hi : s.due.fetched = some i)
    (hlisted : s.due.cfg.unlisted = .refuse → isUnlisted i = false) (hkil : ∀ k, i ≠ .kil k) :
    cyclesToBoundary 8 s = exec i s.due := by
  obtain ⟨r, rest, htable, hfetch, -⟩ := fetchFirst_rowsOf hkil
  have hrows : s.due.rowsLeft s.dueInstr = r :: rest := by
    rw [State.dueInstr_of_boundary ht, hi, rowsLeft_instr hseq hlisted (n := 0) (State.due_t ht), htable]
    rfl
  have hstart : ({ s.due with cpu := s.due.cpu.start } : State) = s.due := by rw [start_eq (State.due_t ht) hseq]
  have hgo : (r.cycle s.due).cpu.t ≠ 1 := by rw [hfetch.cycle_t, State.due_t ht]; decide
  rw [cyclesToBoundary_table hrows hgo (runs_after_fetch (State.due_t ht) hseq hi hlisted hkil htable hfetch)
      (htable ▸ length_rowsOf_le i),
    exec_of_listed hlisted hkil, htable]
  exact congrArg (fun u => Host.Outcome.next (perform (r :: rest) u)) hstart.symm

/-- A refused opcode value: one cycle, the fetch (R298). -/
theorem cyclesToBoundary_unlisted {i : Instr} (hseq : s.due.cpu.seq = .instr) (hi : s.due.fetched = some i)
    (hunlisted : isUnlisted i = true) (hpolicy : s.due.cfg.unlisted = .refuse) :
    cyclesToBoundary 8 s = exec i s.due := by
  have hinstr : s.dueInstr = some i := (State.dueInstr_of_boundary ht).trans hi
  have hrows : s.due.rowsLeft s.dueInstr = [] := by simp [hinstr, State.rowsLeft, hseq, hpolicy, hunlisted]
  rw [exec_refused hunlisted hpolicy]
  refine cyclesToBoundary_refused ?_
  rw [cycle_of_nil hrows, hinstr]
  simp [noRow, hseq, hunlisted, hpolicy, State.due_t ht]

/-- A KIL under the conventional policy jams after its fetch (U1). -/
theorem cyclesToBoundary_kil {k : Fin 12} (hseq : s.due.cpu.seq = .instr) (hi : s.due.fetched = some (.kil k))
    (hpolicy : s.due.cfg.unlisted = .conventional) : cyclesToBoundary 8 s = exec (.kil k) s.due := by
  have hinstr : s.dueInstr = some (.kil k) := (State.dueInstr_of_boundary ht).trans hi
  have hrows : s.due.rowsLeft s.dueInstr = [] := by
    rw [hinstr, rowsLeft_instr hseq (by simp [hpolicy]) (n := 0) (State.due_t ht)]
    rfl
  have hexec : exec (.kil k) s.due = .fault (.jammed s.due.fetchOpcode) := by simp only [exec, execKil, hpolicy]
  rw [hexec]
  refine cyclesToBoundary_fault ?_
  rw [cycle_of_nil hrows, hinstr]
  simp [noRow, hseq, isUnlisted, hpolicy, State.due_t ht, rowsOf, kilRows]

theorem cyclesToBoundary_instr {i : Instr} (hseq : s.due.cpu.seq = .instr) (hi : s.due.fetched = some i) :
    cyclesToBoundary 8 s = exec i s.due := by
  cases hpolicy : s.due.cfg.unlisted with
  | refuse =>
    cases hunlisted : isUnlisted i with
    | true => exact cyclesToBoundary_unlisted ht hseq hi hunlisted hpolicy
    | false => exact cyclesToBoundary_runs ht hseq hi (fun _ => hunlisted) (by rintro k rfl; cases hunlisted)
  | conventional =>
    by_cases hkil : ∃ k, i = .kil k
    · obtain ⟨k, rfl⟩ := hkil
      exact cyclesToBoundary_kil ht hseq hi hpolicy
    · exact cyclesToBoundary_runs ht hseq hi (by simp [hpolicy]) fun k h => hkil ⟨k, h⟩

/-- A sequence: its table does not depend on what is fetched. -/
theorem cyclesToBoundary_trap {k : Trap} {q : Seq} (hq : q ≠ .instr)
    (htable : ∀ (u : State) (i : Option Instr), u.cpu.seq = q → u.table i = trapRows k) (hseq : s.due.cpu.seq = q) :
    cyclesToBoundary 8 s = takeTrap k s.due := by
  have hleft (u : State) (i : Option Instr) (n : Nat) (hu : u.cpu.seq = q) (ht : u.cpu.t = n + 1) :
      u.rowsLeft i = (trapRows k).drop n := by
    simp [State.rowsLeft, ht, hu, hq, htable u i hu]
  have hsteady := tableLike_steady (tableLike_trapRows k)
  have hrows := hleft s.due s.dueInstr 0 hseq (State.due_t ht)
  have hgo : ((trapFetchRow k true).cycle s.due).cpu.t = 2 := by
    rw [Row.cycle_t (hsteady _ List.mem_cons_self), State.due_t ht]
    rfl
  refine cyclesToBoundary_table hrows (by omega) ?_ (Nat.le_of_ble_eq_true rfl)
  refine runs_drop (K := fun u => u.cpu.seq = q) (k := 1) (Nat.le_refl 1) (tableLike_trapRows k) ?_ ?_ (Nat.le_refl 1)
    (by rw [length_trapRows]; decide) ?_ hgo
  · exact fun n r u _ hr hu hgo => (Row.cycle_go (hsteady r (List.mem_of_getElem? hr)) hgo).2.trans hu
  · exact fun n u _ hu ht => by rw [hleft u _ n hu ht, List.head?_drop]
  · exact (Row.cycle_go (s := s.due) (hsteady _ List.mem_cons_self) (by omega)).2.trans hseq

end

/-- The state with the log begun anew. -/
def State.anew (s : State) : State := { s with bus := { s.bus with log := [] } }

theorem State.serveStalls_anew (s : State) : s.anew.serveStalls = s.beginStep := rfl

/-- At a boundary a step takes what is due in its first cycle. -/
theorem State.due_anew {s : State} (ht : s.cpu.t = 1) : s.anew.due = s.beginStep.boundary :=
  State.due_of_boundary (s := s.anew) ht

/-- The whole step and the one-cycle machine, from the same state, the log begun anew. -/
theorem step_eq_cyclesToBoundary (s : State) : step s = cyclesToBoundary 8 s.anew := by
  by_cases ht : s.cpu.t = 1
  · have hdue := State.due_anew ht
    have ht' : s.anew.cpu.t = 1 := ht
    cases hseq : s.beginStep.boundary.cpu.seq with
    | reset =>
      have hplan : plan s = .reset s.beginStep.boundary := by simp only [plan, State.beginStep_cpu, if_pos ht, hseq]
      rw [step, hplan, cyclesToBoundary_trap ht' (by decide) (fun u i hu => State.table_reset hu i) (hdue ▸ hseq), hdue]
    | int =>
      have hplan : plan s = .interrupt s.beginStep.boundary := by
        simp only [plan, State.beginStep_cpu, if_pos ht, hseq]
      rw [step, hplan, cyclesToBoundary_trap ht' (by decide) (fun u i hu => State.table_int hu i) (hdue ▸ hseq), hdue]
    | instr =>
      obtain ⟨i, hi⟩ := s.beginStep.boundary.exists_fetched
      have hplan : plan s = .instruction i s.beginStep.boundary := by
        simp only [plan, State.beginStep_cpu, if_pos ht, hseq, hi]
      rw [step, hplan, cyclesToBoundary_instr ht' (hdue ▸ hseq) (hdue ▸ hi), hdue]
  · have hplan : plan s = .resume s.beginStep := by simp only [plan, State.beginStep_cpu, if_neg ht]
    rw [step, hplan]
    exact cyclesToBoundary_serveStalls 8 s.anew

/-- Settles O6: the step is its cycles by the above; after the first of them as many are left as the step taken up there
performs, and no cycle reads the log below its own. -/
theorem stepIsItsCycles : Obligations.StepIsItsCycles := by
  refine ⟨step_eq_cyclesToBoundary, fun s u t hcycle hmid hstep => ?_⟩
  obtain ⟨v, hv, rfl⟩ := cycle_of_under (s := s.anew) (old := s.bus.log) hcycle
  obtain ⟨v', hv', hrest⟩ := cyclesToBoundary_succ_next ((step_eq_cyclesToBoundary s).symm.trans hstep)
  obtain rfl : v = v' := Host.Outcome.next.inj (hv.symm.trans hv')
  obtain ⟨hend, -⟩ | ⟨-, hrest⟩ := hrest
  · exact absurd hend hmid
  obtain ⟨w, hw, rfl⟩ := cyclesToBoundary_of_under (s := v.anew) (old := v.bus.log) hrest
  refine ⟨v.bus.log, w.bus.log, rfl, rfl, ?_⟩
  rw [step_eq_cyclesToBoundary]
  exact cyclesToBoundary_mono hw

end Sys2Proof.Machine
end

section
/-! PROOFS. The interrupt sequence in an environment that says nothing (40_bus_cycles R112, R330, R331): which vector it reads,
and its seven cycles one after the other. -/

namespace Sys2Proof.Machine

/-! ## Rows of a sequence -/

/-- A row of a sequence: the vector may be selected at its end, it does not poll, and `vec`, which only addresses, has no part in
its `then` column. -/
structure Row.OfSequence (r : Row) : Prop where
  selects : r.selects = true := by rfl
  poll : ∀ cfg c, r.poll cfg c = false := by intros; rfl
  steady : r.steady := by exact fun _ _ => ⟨rfl, rfl⟩
  act : ∀ d c v, r.act d { c with vec := v } = { r.act d c with vec := v } := by intros; rfl
  last : ∀ c v, r.last { c with vec := v } = r.last c := by intros; rfl

theorem Row.OfSequence.act_vec {r : Row} (hr : r.OfSequence) (d : Byte) (c : Cpu) : (r.act d c).vec = c.vec := by
  have h := congrArg Cpu.vec (hr.act d c c.vec)
  exact h

theorem ofSequence_trapRows (k : Trap) : ∀ r ∈ trapRows k, r.OfSequence := by
  simp only [trapRows, List.forall_mem_cons, List.not_mem_nil, false_implies, implies_true, and_true]
  refine ⟨?_, ?_, {}, {}, {}, {}, {}⟩ <;> cases k <;> exact {}

/-! ## The vector (R331) -/

/-- An NMI edge is latched at the end of the next cycle, the lines keeping their levels. -/
def State.edge (s : State) : Bool := s.irq.nmiPending || (s.bus.lines.nmi && !s.irq.nmiPrev)

/-- The vector of a sequence that is no reset. -/
def vectorOf (edge : Bool) : Word := if edge then nmiVector else irqVector

/-- The vectors lie above the stack, under both maps: a push leaves their bytes alone. -/
theorem Memory.read_push (map : AddressMap) (m : Memory) (b v : Byte) (edge : Bool) :
    Memory.read (Memory.write m (cellOf map (stackAddr b)) v) (cellOf map (vectorOf edge)) =
      Memory.read m (cellOf map (vectorOf edge)) ∧
    Memory.read (Memory.write m (cellOf map (stackAddr b)) v) (cellOf map (vectorOf edge + 1)) =
      Memory.read m (cellOf map (vectorOf edge + 1)) := by
  have hb := b.isLt
  have h : 512 ≤ cellOf map (vectorOf edge) ∧ 512 ≤ cellOf map (vectorOf edge + 1) := by
    cases map <;> cases edge <;> decide
  rw [cellOf_stackAddr]
  exact ⟨Memory.read_write_other m v (by omega), Memory.read_write_other m v (by omega)⟩

/-- Selecting the vector of a sequence that is no reset uses up the latched edge. -/
theorem State.selectVector_sequence {s : State} (h : s.cpu.seq ≠ .reset) :
    s.selectVector = { s with
      cpu := { s.cpu with vec := vectorOf s.irq.nmiPending }, irq := { s.irq with nmiPending := false } } := by
  obtain ⟨c, ⟨_, pending, _, _⟩, _, _, _⟩ := s
  cases hc : c.seq with
  | reset => exact absurd hc h
  | instr => cases pending <;> simp [State.selectVector, vectorOf, hc]
  | int => cases pending <;> simp [State.selectVector, vectorOf, hc]

/-- What a silent cycle of a sequence leaves in the latches and in the vector. -/
theorem Row.OfSequence.cycle_latches {r : Row} (hr : r.OfSequence) {s : State} (h : s.quiet) (hseq : s.cpu.seq ≠ .reset) :
    (r.cycle s).irq = { s.irq.sample s.bus.lines with
      nmiPending := s.edge && s.cpu.t != windowCycle s.cfg.hijackWindow } ∧
    (r.cycle s).cpu.vec = if s.cpu.t = windowCycle s.cfg.hijackWindow then vectorOf s.edge else s.cpu.vec := by
  have hi : s.bus.inputs = [] := h
  have hsteady := hr.steady (s.bus.data s.cfg.map (r.bus s.cpu)) s.cpu
  have hvec := hr.act_vec (s.bus.data s.cfg.map (r.bus s.cpu)) s.cpu
  rw [Row.cycle_quiet r h]
  by_cases hw : s.cpu.t = windowCycle s.cfg.hijackWindow
  · simp [Row.active, hr.selects, hr.poll, hsteady, hw, hseq, State.selectVector_sequence, Bus.nextLines, hi, State.edge]
  · simp [Row.active, hr.selects, hr.poll, hsteady, hvec, hw, Bus.nextLines, hi, Latches.sample, State.edge]

/-- After `n` silent cycles of a sequence that reads the vector `v`: until the window's cycle the edge that will decide, and from
then on `v`, the edge used up. -/
structure State.Selecting (v : Word) (n : Nat) (u : State) : Prop where
  undecided : n < windowCycle u.cfg.hijackWindow → vectorOf u.edge = v
  decided : windowCycle u.cfg.hijackWindow ≤ n →
    u.cpu.vec = v ∧ u.irq.nmiPending = false ∧ u.irq.nmiPrev = u.bus.lines.nmi

theorem Row.cycle_quiet_lines (r : Row) {s : State} (h : s.quiet) : (r.cycle s).bus.lines = s.bus.lines := by
  rw [Row.cycle_lines, Bus.nextLines, show s.bus.inputs = [] from h]

theorem State.Selecting.cycle {v : Word} {n : Nat} {u : State} (hu : u.Selecting v n) {r : Row} (hr : r.OfSequence)
    (hquiet : u.quiet) (hseq : u.cpu.seq ≠ .reset) (ht : u.cpu.t = n + 1) : (r.cycle u).Selecting v (n + 1) := by
  obtain ⟨hirq, hvec⟩ := hr.cycle_latches hquiet hseq
  have hlines := Row.cycle_quiet_lines r hquiet
  constructor
  · intro hn
    rw [Row.cycle_cfg] at hn
    have hne : u.cpu.t ≠ windowCycle u.cfg.hijackWindow := by omega
    have hedge : (r.cycle u).edge = u.edge := by
      rw [State.edge, hirq, hlines]
      simp [hne]
    rw [hedge]
    exact hu.undecided (by omega)
  · intro hn
    rw [Row.cycle_cfg] at hn
    rw [hirq, hvec, hlines]
    by_cases hw : u.cpu.t = windowCycle u.cfg.hijackWindow
    · exact ⟨(if_pos hw).trans (hu.undecided (by omega)), by simp [hw], rfl⟩
    · obtain ⟨hv, hpending, hprev⟩ := hu.decided (by omega)
      have hedge : u.edge = false := by simp [State.edge, hpending, hprev]
      exact ⟨(if_neg hw).trans hv, by simp [hedge], rfl⟩

/-! ## The cycles -/

/-- The byte of a transaction that memory answers. -/
def State.datum (s : State) : BusOp → Byte
  | .read a => s.peek a
  | .write _ v => v

/-- Silent cycles of a sequence from `s`: the registers (`c`, the vector apart), the cycles performed, newest first, and memory
as they leave it. -/
structure State.Sequenced (s : State) (v : Word) (c : Cpu) (cycles : List BusCycle) (u : State) : Prop where
  quiet : u.quiet
  cpu : u.cpu = { c with vec := u.cpu.vec }
  log : u.bus.log = cycles
  mem : u.bus.mem = replay s.cfg.map cycles s.bus.mem
  cfg : u.cfg = s.cfg
  intReq : u.irq.intReq = s.irq.intReq
  selecting : u.Selecting v cycles.length

section
variable {s u : State} {v : Word} {c : Cpu} {cycles : List BusCycle}

theorem State.sequenced_start (hquiet : s.quiet) (hlog : s.bus.log = []) (hv : vectorOf s.edge = v) :
    s.Sequenced v s.cpu [] s where
  quiet := hquiet
  cpu := rfl
  log := hlog
  mem := rfl
  cfg := rfl
  intReq := rfl
  selecting :=
    { undecided := fun _ => hv
      decided := fun h => absurd h (by cases s.cfg.hijackWindow <;> decide) }

/-- One more cycle: its transaction joins the log, its `then` column changes the registers. -/
theorem State.Sequenced.cycle (h : s.Sequenced v c cycles u) {r : Row} (hr : r.OfSequence) (hseq : c.seq ≠ .reset)
    (ht : c.t = cycles.length + 1) {op : BusOp} (hop : r.bus { c with vec := u.cpu.vec } = op) {d : Byte}
    (hd : u.datum op = d) {c' : Cpu} (hc : (r.act d c).advance (r.last (r.act d c)) = c') :
    s.Sequenced v c' (op.logged d :: cycles) (r.cycle u) := by
  subst hc
  rw [← h.cpu] at hop
  have hanswers := State.quiet_memoryAnswers h.quiet
  have hi : u.bus.inputs = [] := h.quiet
  have hdata : u.serveStalls.bus.data u.cfg.map (r.bus u.cpu) = d := by
    rw [State.data_memory hanswers, hop, ← hd]
    rfl
  have hseq' : u.cpu.seq ≠ .reset := by rwa [h.cpu]
  have ht' : u.cpu.t = cycles.length + 1 := by rwa [h.cpu]
  constructor
  case quiet => rw [State.quiet, Row.cycle_inputs, hi]; rfl
  case cpu =>
    conv_lhs => rw [Row.cycle_cpu, hdata, h.cpu, hr.act, hr.last]
    unfold Cpu.advance
    split <;> rfl
  case log =>
    rw [Row.cycle_log, Row.cycleLog, hdata, hop, h.log]
    simp [Bus.nextWrites, Bus.stalls, hi, othersLogged, stallLog]
  case mem =>
    rw [Row.cycle_mem_memory r hanswers, hop, h.mem, h.cfg]
    cases op with
    | read => rfl
    | write => rfl
  case cfg => rw [Row.cycle_cfg, h.cfg]
  case intReq => rw [(hr.cycle_latches h.quiet hseq').1]; exact h.intReq
  case selecting => exact h.selecting.cycle hr h.quiet hseq' ht'

theorem State.Sequenced.read (h : s.Sequenced v c cycles u) {r : Row} (hr : r.OfSequence) (hseq : c.seq ≠ .reset)
    (ht : c.t = cycles.length + 1) {a : Word} (hop : r.bus { c with vec := u.cpu.vec } = .read a) {d : Byte}
    (hd : u.peek a = d) {c' : Cpu} (hc : (r.act d c).advance (r.last (r.act d c)) = c') :
    s.Sequenced v c' (.read a d :: cycles) (r.cycle u) :=
  h.cycle hr hseq ht hop hd hc

theorem State.Sequenced.write (h : s.Sequenced v c cycles u) {r : Row} (hr : r.OfSequence) (hseq : c.seq ≠ .reset)
    (ht : c.t = cycles.length + 1) {a : Word} {d : Byte} (hop : r.bus { c with vec := u.cpu.vec } = .write a d)
    {c' : Cpu} (hc : (r.act d c).advance (r.last (r.act d c)) = c') :
    s.Sequenced v c' (.write a d :: cycles) (r.cycle u) :=
  h.cycle hr hseq ht hop rfl hc

/-- Between two cycles of the sequence the table goes on. -/
theorem State.Sequenced.perform_cons {r : Row} {w : State} (h : s.Sequenced v c cycles (r.cycle w))
    (ht : c.t = cycles.length + 1) (hpos : 0 < cycles.length) (rest : List Row) :
    perform (r :: rest) w = perform rest (r.cycle w) := by
  have hgo : (r.cycle w).cpu.t ≠ 1 := by
    rw [h.cpu]
    show c.t ≠ 1
    omega
  rw [Machine.perform_cons, if_neg hgo]

/-- Once four cycles are done the vector is selected, whatever the window. -/
theorem State.Sequenced.decided (h : s.Sequenced v c cycles u) (hlen : 4 ≤ cycles.length) :
    u.cpu.vec = v ∧ u.irq.nmiPending = false := by
  have hw : windowCycle u.cfg.hijackWindow ≤ 4 := by cases u.cfg.hijackWindow <;> decide
  obtain ⟨hvec, hpending, -⟩ := h.selecting.decided (hw.trans hlen)
  exact ⟨hvec, hpending⟩

/-- A byte that the cycles' stores leave alone: any before the pushes, the vectors' after them (`Memory.read_push`). -/
theorem State.Sequenced.peek_eq (h : s.Sequenced v c cycles u) {a : Word}
    (ha : ∀ m, Memory.read (replay s.cfg.map cycles m) (cellOf s.cfg.map a) = Memory.read m (cellOf s.cfg.map a)) :
    u.peek a = s.peek a := by
  rw [State.peek, h.mem, h.cfg, ha]
  rfl

end

/-- The seven cycles of an interrupt (R330), from the first to the last. -/
theorem sequenced_interrupt {s : State} (hquiet : s.quiet) (hlog : s.bus.log = []) (ht : s.cpu.t = 1)
    (hseq : s.cpu.seq = .int) {v : Word} (hv : v = vectorOf s.edge) :
    s.Sequenced v
      { s.cpu with
        s := s.cpu.s - 1 - 1 - 1, p := { s.cpu.p with i := true }, pc := join (s.peek (v + 1)) (s.peek v),
        lo := s.peek v, t := 1, seq := .instr }
      [.read (v + 1) (s.peek (v + 1)), .read v (s.peek v),
       .write (stackAddr (s.cpu.s - 1 - 1)) (pByte false s.cpu.p), .write (stackAddr (s.cpu.s - 1)) (loByte s.cpu.pc),
       .write (stackAddr s.cpu.s) (hiByte s.cpu.pc),
       .read s.cpu.pc (s.peek s.cpu.pc), .read s.cpu.pc (s.peek s.cpu.pc)]
      (perform (trapRows .int) s) := by
  subst hv
  have hrows := ofSequence_trapRows .int
  simp only [trapRows, List.forall_mem_cons] at hrows ⊢
  obtain ⟨hr1, hr2, hr3, hr4, hr5, hr6, hr7, -⟩ := hrows
  have hne : s.cpu.seq ≠ .reset := by simp [hseq]
  have ht' (n : Nat) : s.cpu.t + n = n + 1 := by omega
  have h0 := State.sequenced_start hquiet hlog rfl
  have h1 := h0.read hr1 hne ht (a := s.cpu.pc) rfl rfl (c' := { s.cpu with t := s.cpu.t + 1 }) rfl
  have h2 := h1.read hr2 hne (ht' 1) (a := s.cpu.pc) rfl (h1.peek_eq fun _ => rfl)
    (c' := { s.cpu with t := s.cpu.t + 2 }) rfl
  have h3 := h2.write hr3 hne (ht' 2) (a := stackAddr s.cpu.s) (d := hiByte s.cpu.pc) rfl
    (c' := { s.cpu with s := s.cpu.s - 1, t := s.cpu.t + 3 }) rfl
  have h4 := h3.write hr4 hne (ht' 3) (a := stackAddr (s.cpu.s - 1)) (d := loByte s.cpu.pc) rfl
    (c' := { s.cpu with s := s.cpu.s - 1 - 1, t := s.cpu.t + 4 }) rfl
  have h5 := h4.write hr5 hne (ht' 4) (a := stackAddr (s.cpu.s - 1 - 1)) (d := pByte false s.cpu.p) rfl
    (c' := { s.cpu with s := s.cpu.s - 1 - 1 - 1, t := s.cpu.t + 5 }) rfl
  have h6 := h5.read hr6 hne (ht' 5) (a := vectorOf s.edge) (by simp only [(h5.decided (by simp)).1])
    (h5.peek_eq fun m => by simp only [replay_write, replay_read, replay_nil, Memory.read_push])
    (c' := { s.cpu with
      s := s.cpu.s - 1 - 1 - 1, lo := s.peek (vectorOf s.edge), p := { s.cpu.p with i := true }, t := s.cpu.t + 6 }) rfl
  have h7 := h6.read hr7 hne (ht' 6) (a := vectorOf s.edge + 1) (by simp only [(h6.decided (by simp)).1])
    (h6.peek_eq fun m => by simp only [replay_write, replay_read, replay_nil, Memory.read_push])
    (c' := { s.cpu with
      s := s.cpu.s - 1 - 1 - 1, p := { s.cpu.p with i := true },
      pc := join (s.peek (vectorOf s.edge + 1)) (s.peek (vectorOf s.edge)), lo := s.peek (vectorOf s.edge), t := 1, seq := .instr }) rfl
  rw [h1.perform_cons (ht' 1) (by simp), h2.perform_cons (ht' 2) (by simp),
    h3.perform_cons (ht' 3) (by simp), h4.perform_cons (ht' 4) (by simp),
    h5.perform_cons (ht' 5) (by simp), h6.perform_cons (ht' 6) (by simp),
    perform_last (by rw [h7.cpu])]
  exact h7

/-- The state in which a requested interrupt begins, in silence (R112). -/
def State.interrupted (s : State) : State :=
  { s with cpu := { s.cpu with seq := .int }, irq := { s.irq with intReq := false }, bus := { s.bus with log := [] } }

theorem step_interrupted {s : State} (hquiet : s.quiet) (ht : s.cpu.t = 1) (hreset : s.irq.resetPending = false)
    (hreq : s.irq.intReq = true) : step s = takeTrap .int s.interrupted := by
  simp [step, plan, ht, State.beginStep_quiet hquiet, State.boundary, hreset, hreq, State.interrupted]

/-- Settles O14: the decision replaces the instruction, and the seven silent cycles are the sequence's. -/
theorem interruptSequence : Obligations.InterruptSequence := by
  intro s hquiet ht hreset hreq v
  have h := sequenced_interrupt (s := s.interrupted) hquiet rfl ht rfl (v := v) rfl
  have hs : s.cpu.s - 1 - 1 - 1 = s.cpu.s - 3 := by bv_omega
  have hs' : s.cpu.s - 1 - 1 = s.cpu.s - 2 := by bv_omega
  refine ⟨_, step_interrupted hquiet ht hreset hreq, ?_, (h.decided (by simp)).2, h.intReq, ?_, ?_, ?_⟩
  · rw [State.regs, h.cpu, ← hs]
    rfl
  · rw [State.atBoundary, h.cpu]
    exact ⟨rfl, rfl⟩
  · rw [h.log, ← hs']
    rfl
  · rw [h.mem, h.log]
    rfl

end Sys2Proof.Machine
end

section
/-! PROOFS. Loads, stores and transfers (41_load_store_transfer R160 to R172, R280, R281): the tables that store nothing, and what
the implied, the read and the write tables make of the registers a program sees. -/

namespace Sys2Proof.Machine

/-! ## Tables of reads -/

/-- The row's transaction is a read, whatever the registers. -/
structure Row.Reads (r : Row) : Prop where
  bus : ∀ c, ∃ a, r.bus c = .read a := by exact fun _ => ⟨_, rfl⟩

theorem reads_impliedRows (f : Cpu → Cpu) : ∀ r ∈ impliedRows f, r.Reads := by
  simp only [impliedRows, List.forall_mem_cons]
  exact ⟨{}, {}, nofun⟩

theorem reads_immediateRows (v : Byte) (f : Byte → Cpu → Cpu) : ∀ r ∈ immediateRows v f, r.Reads := by
  simp only [immediateRows, List.forall_mem_cons]
  exact ⟨{}, {}, nofun⟩

theorem reads_memReadRows (mo : MemOperand) (f : Byte → Cpu → Cpu) : ∀ r ∈ memReadRows mo f, r.Reads := by
  cases mo <;>
    simp only [memReadRows, List.forall_mem_cons, List.not_mem_nil, false_implies, implies_true, and_true] <;>
    and_intros <;> exact {}

theorem reads_readRows (m : ReadOperand) (f : Byte → Cpu → Cpu) : ∀ r ∈ readRows m f, r.Reads := by
  cases m with
  | imm v => exact reads_immediateRows v f
  | mem mo => exact reads_memReadRows mo f

theorem reads_branchRows (cond : Flags → Bool) (rel : Byte) : ∀ r ∈ branchRows cond rel, r.Reads := by
  simp only [branchRows, List.forall_mem_cons]
  exact ⟨{}, {}, {}, {}, nofun⟩

/-- The tables of the instructions without a write cycle (R146, R160): every row reads. -/
theorem reads_rowsOf {i : Instr} (hi : writesMemory i = false) : ∀ r ∈ rowsOf i, r.Reads := by
  cases i
  case sta | stx | sty | sax | inc | dec | dcp | isc | slo | rla | sre | rra | pha | php | jsr | brk | ahxIndy | ahxAbsy | shy
      | shx | tas => cases hi
  case kil => exact nofun
  case lda m | ldx m | ldy m | adc m | sbc m | and m | ora m | eor m | cmp m | cpx m | cpy m => exact reads_readRows m _
  case bit m | lax m => exact reads_memReadRows m _
  case nopZp k z => exact reads_memReadRows (.zp z) fun _ c => c
  case nopZpx k z => exact reads_memReadRows (.zpx z) fun _ c => c
  case nopAbs w => exact reads_memReadRows (.abs w) fun _ c => c
  case nopAbsx k w => exact reads_memReadRows (.absx w) fun _ c => c
  case las w => exact reads_memReadRows (.absy w) _
  case asl m | lsr m | rol m | ror m =>
    cases m with
    | acc => exact reads_impliedRows _
    | mem mo => cases hi
  case bpl r => exact reads_branchRows (fun p => !p.n) r
  case bvc r => exact reads_branchRows (fun p => !p.v) r
  case bcc r => exact reads_branchRows (fun p => !p.c) r
  case bne r => exact reads_branchRows (fun p => !p.z) r
  case bmi r | bvs r | bcs r | beq r => exact reads_branchRows _ r
  case anc k v | alr v | arr v | axs v | xaa v | lxa v | usbc v => exact reads_immediateRows v _
  case nopImm k v => exact reads_immediateRows v fun _ c => c
  case tax | tay | txa | tya | tsx | txs | inx | iny | dex | dey | clc | sec | cli | sei | clv | cld | sed | nop | nopImp =>
    exact reads_impliedRows _
  case jmp | jmpInd | rts | rti | pla | plp =>
    simp only [rowsOf, jmpRows, jmpIndRows, rtsRows, rtiRows, returnRows, plaRows, plpRows, pullRows, List.forall_mem_cons,
      List.not_mem_nil, false_implies, implies_true, and_true]
    and_intros <;> exact {}

/-- Where nothing is stored but by other agents, every cell that none of their stores names keeps its byte. -/
theorem State.writesNothing.peek_eq {s t : State} (h : s.writesNothing t) (hcfg : t.cfg = s.cfg) {a : Word}
    (ha : ∀ b v, BusCycle.other b v ∈ t.bus.log → cellOf s.cfg.map b ≠ cellOf s.cfg.map a) : t.peek a = s.peek a := by
  obtain ⟨new, hlog, hreads, hmem, -⟩ := h
  rw [State.peek, hmem, hcfg]
  refine read_replay_other _ fun b v hb => ?_
  obtain hwrite | hother := hb
  · exact absurd hwrite (hreads b v)
  · exact ha b v (hlog ▸ List.mem_append_left _ hother)

/-- Settles O34: the table of such an instruction is one of reads. -/
theorem memoryFrame : Obligations.MemoryFrame := by
  intro i s t hi hexec
  rw [exec_next hexec]
  have hnothing : s.writesNothing (perform (rowsOf i) { s with cpu := s.cpu.start }) :=
    perform_writesNothing (rowsOf i) { s with cpu := s.cpu.start } fun r hr => (reads_rowsOf hi r hr).bus
  exact ⟨hnothing, fun a ha => hnothing.peek_eq (perform_cfg _ _) ha⟩

/-! ## The registers a program sees -/

/-- The registers of R26, without the sequencing latches. -/
def Cpu.regs (c : Cpu) : Regs := ⟨c.a, c.x, c.y, c.s, c.pc, c.p⟩

theorem State.regs_eq (s : State) : s.regs = s.cpu.regs := rfl

@[simp] theorem Cpu.regs_advance (c : Cpu) (last : Bool) : (c.advance last).regs = c.regs := by cases last <;> rfl

/-- The implied tables (R114), in every environment: `PC` steps over the opcode, and `g` is what `f` makes of the registers. -/
theorem runs_impliedRows (f : Cpu → Cpu) {g : Regs → Regs} (hg : ∀ c, (f c).regs = g c.regs) (s : State) :
    ∃ t, runInstr (impliedRows f) s = .next t ∧ t.regs = g { s.regs with pc := s.cpu.pc + 1 } ∧ s.writesNothing t ∧
      s.performs t [.read s.cpu.pc, .read (s.cpu.pc + 1)] := by
  obtain ⟨t, ir, -, ht, hcpu, hnothing, -, hops, -⟩ := impliedInstr f s
  refine ⟨t, ht, ?_, hnothing, hops⟩
  rw [State.regs_eq, hcpu, Cpu.regs_advance, hg]
  rfl

/-- The read tables, where memory answers: `PC` steps over the instruction, and `g` is what `f` makes of operand and registers. -/
theorem runs_readRows (m : ReadOperand) (f : Byte → Cpu → Cpu) {g : Byte → Regs → Regs}
    (hg : ∀ d c, (f d c).regs = g d c.regs) (hf : ∀ d c, (f d c).cross = c.cross) {s : State} (h : s.memoryAnswers) :
    ∃ t, runInstr (readRows m f) s = .next t ∧
      t.regs = g (s.operand m) { s.regs with pc := s.cpu.pc + BitVec.ofNat 16 m.mode.length } ∧
      t.bus.mem = s.bus.mem ∧ s.performs t (s.readOps m) := by
  obtain ⟨t, lo, hi, ptr, cross, n, ht, hcpu, hmem, -, hops⟩ := readInstr_values m f h hf
  refine ⟨t, ht, ?_, hmem, hops⟩
  rw [State.regs_eq, hcpu, Cpu.regs_advance, hg]
  rfl

/-- A memory that is the old one with one cell written has taken one byte. -/
theorem State.storesByte_of_mem {s t : State} {a : Word} {v : Byte}
    (hmem : t.bus.mem = Memory.write s.bus.mem (cellOf s.cfg.map a) v) (hcfg : t.cfg = s.cfg) : s.storesByte t a v := by
  refine ⟨hmem, fun hwf => ?_, fun b hb => ?_⟩
  · rw [State.peek, hmem, hcfg]
    exact Memory.read_write_same _ v hwf
  · rw [State.peek, hmem, hcfg]
    exact Memory.read_write_other _ v hb

/-- The write tables, where memory answers: `PC` steps over the instruction, and the byte goes to the effective address. -/
theorem runs_storeRows (mo : MemOperand) (v : Cpu → Byte)
    (hv : ∀ c pc ir lo hi ptr dat ea cross t, v (Cpu.scratch c pc ir lo hi ptr dat ea cross t) = v c) {s : State}
    (h : s.memoryAnswers) :
    ∃ t, runInstr (storeRows mo v) s = .next t ∧
      t.regs = { s.regs with pc := s.cpu.pc + BitVec.ofNat 16 mo.mode.length } ∧
      s.storesByte t (s.address mo) (v s.cpu.start) ∧ s.performs t (s.storeOps mo (v s.cpu.start)) := by
  obtain ⟨t, lo, hi, ptr, cross, n, ht, hcpu, hmem, hcfg, hops⟩ := storeInstr_values mo v h hv
  refine ⟨t, ht, ?_, State.storesByte_of_mem hmem hcfg, hops⟩
  rw [State.regs_eq, hcpu, Cpu.regs_advance]
  rfl

/-! ## The instructions -/

/-- Settles O39: each is a read table whose `then` column sets registers and flags from the operand. -/
theorem loadsRun : Obligations.LoadsRun := by
  intro s h
  refine ⟨fun m => ?_, fun m => ?_, fun m => ?_, fun m => ?_⟩
  · exact runs_readRows m (fun d c => c.setA d) (g := fun d r => { r with a := d, p := r.p.setNZ d }) (fun _ _ => rfl)
      (fun _ _ => rfl) h
  · exact runs_readRows m (fun d c => c.setX d) (g := fun d r => { r with x := d, p := r.p.setNZ d }) (fun _ _ => rfl)
      (fun _ _ => rfl) h
  · exact runs_readRows m (fun d c => c.setY d) (g := fun d r => { r with y := d, p := r.p.setNZ d }) (fun _ _ => rfl)
      (fun _ _ => rfl) h
  · exact runs_readRows (.mem m) (fun d c => { c.setX d with a := d })
      (g := fun d r => { r with a := d, x := d, p := r.p.setNZ d }) (fun _ _ => rfl) (fun _ _ => rfl) h

/-- An instruction of one byte with an implied table, in every environment. -/
theorem exec_implied {i : Instr} {f : Cpu → Cpu} (hexec : ∀ s, exec i s = runInstr (impliedRows f) s) (hi : i.length = 1)
    {g : Regs → Regs} (hg : ∀ c, (f c).regs = g c.regs) (s : State) :
    ∃ t, exec i s = .next t ∧ t.regs = g { s.regs with pc := s.cpu.pc + 1 } ∧ s.writesNothing t ∧ i.length = 1 ∧
      s.performs t [.read s.cpu.pc, .read (s.cpu.pc + 1)] := by
  obtain ⟨t, ht, hregs, hnothing, hops⟩ := runs_impliedRows f hg s
  exact ⟨t, (hexec s).trans ht, hregs, hnothing, hi, hops⟩

/-- Settles O40: each is an implied table whose `then` column moves one register into another. -/
theorem transfersRun : Obligations.TransfersRun := by
  refine ⟨rfl, rfl, rfl, rfl, rfl, rfl, fun s => ⟨?_, ?_, ?_, ?_, ?_, ?_⟩⟩
  · exact exec_implied (fun _ => rfl) rfl (g := fun r => { r with x := r.a, p := r.p.setNZ r.a }) (fun _ => rfl) s
  · exact exec_implied (fun _ => rfl) rfl (g := fun r => { r with y := r.a, p := r.p.setNZ r.a }) (fun _ => rfl) s
  · exact exec_implied (fun _ => rfl) rfl (g := fun r => { r with a := r.x, p := r.p.setNZ r.x }) (fun _ => rfl) s
  · exact exec_implied (fun _ => rfl) rfl (g := fun r => { r with a := r.y, p := r.p.setNZ r.y }) (fun _ => rfl) s
  · exact exec_implied (fun _ => rfl) rfl (g := fun r => { r with x := r.s, p := r.p.setNZ r.s }) (fun _ => rfl) s
  · exact exec_implied (fun _ => rfl) rfl (g := fun r => { r with s := r.x }) (fun _ => rfl) s

/-- Settles O41: each is a write table whose byte is a register, or the and of A and X. -/
theorem storesRun : Obligations.StoresRun := by
  intro s m h
  refine ⟨?_, ?_, ?_, ?_⟩
  · exact runs_storeRows m Cpu.a (fun _ _ _ _ _ _ _ _ _ _ => rfl) h
  · exact runs_storeRows m Cpu.x (fun _ _ _ _ _ _ _ _ _ _ => rfl) h
  · exact runs_storeRows m Cpu.y (fun _ _ _ _ _ _ _ _ _ _ => rfl) h
  · exact runs_storeRows m (fun c => c.a &&& c.x) (fun _ _ _ _ _ _ _ _ _ _ => rfl) h

end Sys2Proof.Machine
end

section
/-! PROOFS. Arithmetic, logic, compares and bit test (42_alu R180 to R190): the adder and the comparison against the integers,
and what the read tables of these instructions make of the registers a program sees. -/

namespace Sys2Proof.Machine

/-! ## The adder (R180) -/

/-- A byte's signed value, in terms `omega` reads. -/
theorem toInt_byte (b : Byte) : b.toInt = if b.toNat < 128 then (b.toNat : Int) else b.toNat - 256 := by
  rw [BitVec.toInt_eq_toNat_cond]
  split <;> split <;> omega

theorem msb_byte (b : Byte) : b.msb = decide (128 ≤ b.toNat) := BitVec.msb_eq_decide b

/-- The complement of R183, unsigned and signed. -/
theorem toNat_complement (m : Byte) : (m ^^^ 0xFF).toNat = 255 - m.toNat := by
  rw [show m ^^^ 0xFF = ~~~m from BitVec.xor_allOnes, BitVec.toNat_not]

theorem toInt_complement (m : Byte) : (m ^^^ 0xFF).toInt = -1 - m.toInt := by
  have hm := m.isLt
  rw [toInt_byte, toInt_byte, toNat_complement]
  split <;> split <;> omega

/-- The borrow into a subtraction: 1 exactly when the carry in is 0. -/
theorem toNat_borrow (c : Bool) : (!c).toNat = 1 - c.toNat := by cases c <;> rfl

section
variable (a m : Byte) (c : Bool)

theorem toNat_adc8_r : (adc8 a m c).r.toNat = (a.toNat + m.toNat + c.toNat) % 256 := BitVec.toNat_ofNat ..

theorem adc8_c_iff : (adc8 a m c).c = true ↔ 255 < a.toNat + m.toNat + c.toNat := decide_eq_true_iff

theorem toNat_adc8_c : (adc8 a m c).c.toNat = (a.toNat + m.toNat + c.toNat) / 256 := by
  have ha := a.isLt
  have hm := m.isLt
  have hc := c.toNat_le
  by_cases h : 255 < a.toNat + m.toNat + c.toNat
  · rw [(adc8_c_iff a m c).mpr h, Bool.toNat_true]
    omega
  · rw [Bool.eq_false_iff.mpr (mt (adc8_c_iff a m c).mp h), Bool.toNat_false]
    omega

/-- The sum byte and the carry out are the nine bits of the unsigned sum. -/
theorem adc8_exact : (adc8 a m c).r.toNat + 256 * (adc8 a m c).c.toNat = a.toNat + m.toNat + c.toNat := by
  rw [toNat_adc8_r, toNat_adc8_c, Nat.mod_add_div]

/-- The overflow by signs: both summands have the sign that the sum has not. -/
theorem adc8_v_iff_msb : (adc8 a m c).v = true ↔ a.msb = m.msb ∧ (adc8 a m c).r.msb ≠ a.msb := by
  have hv : (adc8 a m c).v = (!(a.msb ^^ m.msb) && (a.msb ^^ (adc8 a m c).r.msb)) := by
    simp only [adc8, BitVec.msb_and, BitVec.msb_not, BitVec.msb_xor, Nat.zero_lt_succ, decide_true, Bool.true_and]
  rw [hv, Bool.and_eq_true, Bool.not_eq_true', Bool.xor_comm a.msb (adc8 a m c).r.msb, Bool.xor_iff_ne,
    bne_eq_false_iff_eq]

/-- The overflow says that the signed sum is no byte's signed value. -/
theorem adc8_v_iff : (adc8 a m c).v = true ↔
    a.toInt + m.toInt + c.toNat < -128 ∨ 127 < a.toInt + m.toInt + c.toNat := by
  have ha := a.isLt
  have hm := m.isLt
  have hc := c.toNat_le
  rw [adc8_v_iff_msb, msb_byte, msb_byte, msb_byte, toNat_adc8_r, toInt_byte, toInt_byte, decide_eq_decide, ne_eq,
    decide_eq_decide]
  split <;> split <;> omega

/-! ## Subtraction by complement (R180, R183) -/

/-- The byte of the subtraction is the difference of the bytes, the borrow being the complement of the carry in. -/
theorem sbc8_r : (sbc8 a m c).r = a - m - (BitVec.ofBool !c).setWidth 8 := by
  have ha := a.isLt
  have hm := m.isLt
  have hc := c.toNat_le
  apply BitVec.eq_of_toNat_eq
  rw [sbc8, toNat_adc8_r, toNat_complement, BitVec.toNat_sub, BitVec.toNat_sub,
    BitVec.toNat_setWidth_of_le (by decide), BitVec.toNat_ofBool, toNat_borrow]
  omega

/-- The carry out of the subtraction says that nothing was borrowed. -/
theorem sbc8_c_iff : (sbc8 a m c).c = true ↔ m.toNat + (!c).toNat ≤ a.toNat := by
  have hm := m.isLt
  have hc := c.toNat_le
  rw [sbc8, adc8_c_iff, toNat_complement, toNat_borrow]
  omega

/-- The overflow of the subtraction says that the signed difference is no byte's signed value. -/
theorem sbc8_v_iff : (sbc8 a m c).v = true ↔
    a.toInt - m.toInt - (!c).toNat < -128 ∨ 127 < a.toInt - m.toInt - (!c).toNat := by
  have hc := c.toNat_le
  rw [sbc8, adc8_v_iff, toInt_complement, toNat_borrow]
  omega

end

/-- Settles O36: the unsigned sum by its nine bits, the overflow by signs, the subtraction through the complement. -/
theorem adderIsExact : Obligations.AdderIsExact := fun a m c =>
  ⟨adc8_exact a m c, adc8_v_iff a m c, rfl, sbc8_r a m c, sbc8_c_iff a m c, sbc8_v_iff a m c⟩

/-! ## The comparison (R181) -/

/-- The subtraction without borrow: byte and carry. -/
theorem sbc8_r_noBorrow (r m : Byte) : (sbc8 r m true).r = r - m := (sbc8_r r m true).trans (BitVec.sub_zero _)

theorem sbc8_c_noBorrow (r m : Byte) : (sbc8 r m true).c = decide (m.toNat ≤ r.toNat) :=
  Bool.eq_iff_iff.mpr ((sbc8_c_iff r m true).trans decide_eq_true_iff.symm)

/-- Two bytes are equal exactly when their difference is $00. -/
theorem sub_beq_zero (r m : Byte) : (r - m == 0x00) = (r == m) := by
  rw [Bool.eq_iff_iff, beq_iff_eq, beq_iff_eq]
  exact sub_eq_zero

/-- Settles O37: the flags as the rule gives them, and the same read off the subtraction without borrow. -/
theorem compareIsSubtraction : Obligations.CompareIsSubtraction := by
  intro p r m
  refine ⟨rfl, ?_⟩
  rw [sbc8_r_noBorrow, sbc8_c_noBorrow, Flags.setNZ, sub_beq_zero]
  rfl

/-! ## The instructions -/

/-- How the registers a program sees take the adder's answer (R182, R183). -/
def Regs.takeSum (r : Regs) (x : Sum) : Regs :=
  { r with a := x.r, p := { r.p with n := x.r.msb, z := x.r == 0, c := x.c, v := x.v } }

theorem Cpu.regs_takeSum (c : Cpu) (x : Sum) : (c.takeSum x).regs = c.regs.takeSum x := rfl

/-- How they take a byte in A, N and Z following it (R184 to R186). -/
def Regs.setA (r : Regs) (v : Byte) : Regs := { r with a := v, p := r.p.setNZ v }

theorem Cpu.regs_setA (c : Cpu) (v : Byte) : (c.setA v).regs = c.regs.setA v := rfl

section
variable (m : ReadOperand) {s : State} (h : s.memoryAnswers)
include h

/-- A read table that adds or subtracts, where memory answers. -/
theorem runs_takeSum (adder : Byte → Byte → Bool → Sum) :
    ∃ t, runInstr (readRows m fun d c => c.takeSum (adder c.a d c.p.c)) s = .next t ∧
      t.regs = Regs.takeSum { s.regs with pc := s.cpu.pc + BitVec.ofNat 16 m.mode.length }
        (adder s.cpu.a (s.operand m) s.cpu.p.c) ∧
      t.bus.mem = s.bus.mem ∧ s.performs t (s.readOps m) :=
  runs_readRows m _ (g := fun d r => r.takeSum (adder r.a d r.p.c)) (fun _ c => c.regs_takeSum _) (fun _ _ => rfl) h

/-- A read table that combines A with the operand, where memory answers. -/
theorem runs_combine (op : Byte → Byte → Byte) :
    ∃ t, runInstr (readRows m fun d c => c.setA (op c.a d)) s = .next t ∧
      t.regs = Regs.setA { s.regs with pc := s.cpu.pc + BitVec.ofNat 16 m.mode.length } (op s.cpu.a (s.operand m)) ∧
      t.bus.mem = s.bus.mem ∧ s.performs t (s.readOps m) :=
  runs_readRows m _ (g := fun d r => r.setA (op r.a d)) (fun _ c => c.regs_setA _) (fun _ _ => rfl) h

/-- A read table that sets flags alone from the registers and the operand, where memory answers. -/
theorem runs_setFlags (flags : Byte → Regs → Flags) (hpc : ∀ d r pc, flags d { r with pc := pc } = flags d r) :
    ∃ t, runInstr (readRows m fun d c => { c with p := flags d c.regs }) s = .next t ∧
      t.regs = { s.regs with p := flags (s.operand m) s.regs, pc := s.cpu.pc + BitVec.ofNat 16 m.mode.length } ∧
      t.bus.mem = s.bus.mem ∧ s.performs t (s.readOps m) := by
  have hrun := runs_readRows m (fun d c => { c with p := flags d c.regs }) (g := fun d r => { r with p := flags d r })
    (fun _ _ => rfl) (fun _ _ => rfl) h
  rwa [hpc] at hrun

end

/-- Settles O42: both are read tables whose `then` column takes the adder's answer. -/
theorem addAndSubtractRun : Obligations.AddAndSubtractRun := fun _ m h =>
  ⟨runs_takeSum m h adc8, runs_takeSum m h sbc8⟩

/-- Settles O43: each is a read table whose `then` column puts the combination into A. -/
theorem logicRuns : Obligations.LogicRuns := fun _ m h =>
  ⟨runs_combine m h (· &&& ·), runs_combine m h (· ||| ·), runs_combine m h (· ^^^ ·)⟩

/-- The flags of BIT (R190): N and V from the operand, Z from the and. -/
def Regs.bitTest (d : Byte) (r : Regs) : Flags :=
  { r.p with n := d.getLsbD 7, v := d.getLsbD 6, z := (r.a &&& d) == 0 }

/-- Settles O44: each is a read table whose `then` column sets flags, from a register and the operand. -/
theorem comparesRun : Obligations.ComparesRun := by
  intro s h
  refine ⟨fun m => ⟨?_, ?_, ?_⟩, fun m => ?_⟩
  · exact runs_setFlags m h (fun d r => r.p.compare r.a d) fun _ _ _ => rfl
  · exact runs_setFlags m h (fun d r => r.p.compare r.x d) fun _ _ _ => rfl
  · exact runs_setFlags m h (fun d r => r.p.compare r.y d) fun _ _ _ => rfl
  · exact runs_setFlags (.mem m) h Regs.bitTest fun _ _ _ => rfl

end Sys2Proof.Machine
end

section
/-! PROOFS. Shifts, rotates, increments and decrements (43_rmw_shift_incdec R200 to R211): the rotates as arithmetic on the nine
bits of byte and carry, and what the read-modify-write tables make of memory and of the registers a program sees. -/

namespace Sys2Proof.Machine

/-! ## The modify functions (R200) -/

theorem toNat_carry (c : Bool) : ((BitVec.ofBool c).setWidth 8).toNat = c.toNat := by cases c <;> rfl

section
variable (d : Byte) (c : Bool)

/-- The byte of a left rotation: doubled without bit 7, the carry in bit 0. -/
theorem toNat_rol8 : (rol8 d c).1.toNat = 2 * (d.toNat % 128) + c.toNat := by
  have hshift : d.toNat <<< 1 % 2 ^ 8 = 2 ^ 1 * (d.toNat % 128) := by omega
  rw [rol8, BitVec.toNat_or, BitVec.toNat_shiftLeft, toNat_carry, hshift]
  exact (Nat.two_pow_add_eq_or_of_lt c.toNat_lt _).symm

/-- The carry of a left rotation is bit 7. -/
theorem toNat_rol8_carry : (rol8 d c).2.toNat = d.toNat / 128 := by
  have hd := d.isLt
  have hbit : (rol8 d c).2.toNat = d.toNat / 2 ^ 7 % 2 := Nat.toNat_testBit d.toNat 7
  omega

/-- The byte of a right rotation: halved, the carry in bit 7. -/
theorem toNat_ror8 : (ror8 d c).1.toNat = d.toNat / 2 + 128 * c.toNat := by
  have hd := d.isLt
  have hc := c.toNat_le
  have hshift : c.toNat <<< 7 % 2 ^ 8 = 2 ^ 7 * c.toNat := by omega
  rw [ror8, BitVec.toNat_or, BitVec.toNat_shiftLeft, BitVec.toNat_ushiftRight, toNat_carry, hshift, Nat.or_comm,
    Nat.shiftRight_one, ← Nat.two_pow_add_eq_or_of_lt (by omega)]
  omega

/-- The carry of a right rotation is bit 0. -/
theorem toNat_ror8_carry : (ror8 d c).2.toNat = d.toNat % 2 :=
  (Nat.toNat_testBit d.toNat 0).trans (by rw [pow_zero, Nat.div_one])

/-- A left rotation doubles the nine bits: bit 7 goes out, the carry comes in. -/
theorem rol8_exact : (rol8 d c).1.toNat + 256 * (rol8 d c).2.toNat = 2 * d.toNat + c.toNat := by
  rw [toNat_rol8, toNat_rol8_carry]
  omega

/-- A right rotation halves the nine bits: bit 0 goes out, the carry comes in above bit 7. -/
theorem ror8_exact : 2 * (ror8 d c).1.toNat + (ror8 d c).2.toNat = d.toNat + 256 * c.toNat := by
  rw [toNat_ror8, toNat_ror8_carry]
  omega

end

/-- Byte and carry are equal when their nine-bit values are. -/
theorem byte_carry_eq {p q : Byte × Bool} (h : p.1.toNat + 256 * p.2.toNat = q.1.toNat + 256 * q.2.toNat) : p = q := by
  have hp := p.1.isLt
  have hq := q.1.isLt
  exact Prod.ext (BitVec.eq_of_toNat_eq (by omega)) (Function.LeftInverse.injective Bool.ofNat_toNat (by omega))

theorem ror8_rol8 (d : Byte) (c : Bool) : ror8 (rol8 d c).1 (rol8 d c).2 = (d, c) := by
  have hrol := rol8_exact d c
  have hror := ror8_exact (rol8 d c).1 (rol8 d c).2
  have hout := (ror8 (rol8 d c).1 (rol8 d c).2).2.toNat_le
  have hc := c.toNat_le
  exact byte_carry_eq (by simp only; omega)

theorem rol8_ror8 (d : Byte) (c : Bool) : rol8 (ror8 d c).1 (ror8 d c).2 = (d, c) := by
  have hror := ror8_exact d c
  have hrol := rol8_exact (ror8 d c).1 (ror8 d c).2
  exact byte_carry_eq (hrol.trans hror)

/-- A shift is the rotation with 0 coming in. -/
theorem asl8_eq_rol8 (d : Byte) (c : Bool) : asl8 d c = rol8 d false := Prod.ext BitVec.or_zero.symm rfl

theorem lsr8_eq_ror8 (d : Byte) (c : Bool) : lsr8 d c = ror8 d false := Prod.ext BitVec.or_zero.symm rfl

/-- Settles O38: the rotates by the nine-bit value of byte and carry, which determines both. -/
theorem rotatesAreNineBit : Obligations.RotatesAreNineBit := fun d c =>
  ⟨rol8_exact d c, ror8_exact d c, ror8_rol8 d c, rol8_ror8 d c, asl8_eq_rol8 d c, lsr8_eq_ror8 d c,
    BitVec.toNat_add d 1, BitVec.add_sub_cancel d 1⟩

/-! ## The read-modify-write tables (R119, R201) -/

/-- Where memory answers: `PC` steps over the instruction, `g` is what `ex` makes of the operand and the registers, and memory
takes the modified byte alone, the dummy write putting back what the cell of a canonical memory holds. -/
theorem runs_rmwRows (mo : MemOperand) (f : Cpu → Byte) (ex : Cpu → Cpu) {g : Byte → Regs → Regs}
    (hf : ∀ c pc ir lo hi ptr dat ea cross t, f (Cpu.scratch c pc ir lo hi ptr dat ea cross t) = f { c with dat := dat })
    (hg : ∀ c, (ex c).regs = g c.dat c.regs) {s : State} (h : s.memoryAnswers) :
    ∃ t, runInstr (rmwRows mo f ex) s = .next t ∧
      t.regs = g (s.operand (.mem mo)) { s.regs with pc := s.cpu.pc + BitVec.ofNat 16 mo.mode.length } ∧
      (Memory.wf s.bus.mem = true →
        s.storesByte t (s.address mo) (f { s.cpu.start with dat := s.operand (.mem mo) })) ∧
      s.performs t (s.rmwOps mo (f { s.cpu.start with dat := s.operand (.mem mo) })) := by
  obtain ⟨t, lo, hi, ptr, cross, n, ht, hcpu, hmem, hcfg, hops⟩ := rmwInstr_values mo f ex h hf
  refine ⟨t, ht, ?_, fun hwf => State.storesByte_of_mem ?_ hcfg, hops⟩
  · rw [State.regs_eq, hcpu, Cpu.regs_advance, hg]
    rfl
  · rw [hmem, Memory.write_write_same _ _ _ hwf, hf]

/-! ## Shifts and rotates -/

/-- A shift or rotate runs the table of its modify function in every form. -/
def RunsShift (i : ShiftOperand → Instr) (op : Byte → Bool → Byte × Bool) : Prop :=
  ∀ m, (i m).length = m.mode.length ∧ ∀ s, exec (i m) s = runInstr (shiftRows op m) s

/-- Settles O45: the accumulator form is an implied table, the memory forms are read-modify-write tables. -/
theorem shiftsRun : Obligations.ShiftsRun := by
  intro s i f hif
  have hruns : RunsShift i f := by
    simp only [List.mem_cons, List.not_mem_nil, or_false, Prod.mk.injEq] at hif
    obtain ⟨rfl, rfl⟩ | ⟨rfl, rfl⟩ | ⟨rfl, rfl⟩ | ⟨rfl, rfl⟩ := hif <;> exact fun _ => ⟨rfl, fun _ => rfl⟩
  refine ⟨?_, fun m h => ?_⟩
  · rw [(hruns .acc).2]
    exact runs_impliedRows _ (g := fun r => { r with a := (f r.a r.p.c).1, p := r.p.shifted (f r.a r.p.c) }) (fun _ => rfl) s
  · rw [State.following, (hruns (.mem m)).1, (hruns (.mem m)).2]
    exact runs_rmwRows m _ _ (g := fun d r => { r with p := r.p.shifted (f d r.p.c) }) (fun _ _ _ _ _ _ _ _ _ _ => rfl)
      (fun _ => rfl) h

/-! ## Counts -/

/-- A count in memory, where memory answers: N and Z follow the counted byte, every other flag is kept. -/
theorem runs_countRows (op : Byte → Byte) (m : MemOperand) {s : State} (h : s.memoryAnswers) :
    ∃ t, runInstr (countRows op m) s = .next t ∧
      t.regs = { s.regs with
        p := s.cpu.p.setNZ (op (s.operand (.mem m))), pc := s.cpu.pc + BitVec.ofNat 16 m.mode.length } ∧
      (Memory.wf s.bus.mem = true → s.storesByte t (s.address m) (op (s.operand (.mem m)))) ∧
      s.performs t (s.rmwOps m (op (s.operand (.mem m)))) :=
  runs_rmwRows m _ _ (g := fun d r => { r with p := r.p.setNZ (op d) }) (fun _ _ _ _ _ _ _ _ _ _ => rfl) (fun _ => rfl) h

/-- Settles O46: both are read-modify-write tables whose modify function counts. -/
theorem memoryCountsRun : Obligations.MemoryCountsRun := fun _ m h => ⟨runs_countRows inc8 m h, runs_countRows dec8 m h⟩

/-- How the registers a program sees take a byte in X or in Y, N and Z following it (R208 to R211). -/
def Regs.setX (r : Regs) (v : Byte) : Regs := { r with x := v, p := r.p.setNZ v }

def Regs.setY (r : Regs) (v : Byte) : Regs := { r with y := v, p := r.p.setNZ v }

theorem Cpu.regs_setX (c : Cpu) (v : Byte) : (c.setX v).regs = c.regs.setX v := rfl

theorem Cpu.regs_setY (c : Cpu) (v : Byte) : (c.setY v).regs = c.regs.setY v := rfl

/-- Settles O47: each is an implied table whose `then` column counts one index register. -/
theorem registerCountsRun : Obligations.RegisterCountsRun := by
  refine ⟨rfl, rfl, rfl, rfl, fun s => ⟨?_, ?_, ?_, ?_⟩⟩
  · exact exec_implied (fun _ => rfl) rfl (g := fun r => r.setX (inc8 r.x)) (fun c => c.regs_setX _) s
  · exact exec_implied (fun _ => rfl) rfl (g := fun r => r.setY (inc8 r.y)) (fun c => c.regs_setY _) s
  · exact exec_implied (fun _ => rfl) rfl (g := fun r => r.setX (dec8 r.x)) (fun c => c.regs_setX _) s
  · exact exec_implied (fun _ => rfl) rfl (g := fun r => r.setY (dec8 r.y)) (fun c => c.regs_setY _) s

end Sys2Proof.Machine
end

section
/-! PROOFS. Jumps, subroutine call and return, branches (44_control_flow R220 to R232): what a table does when the bus answers its
cycles with given bytes, which settles the tables whose result needs none of them; and the stack of a call and its return. -/

namespace Sys2Proof.Machine

/-! ## A table whose cycles are answered by given bytes -/

/-- Registers after a table and its transactions, oldest first, when `bytes` stand on the bus in its cycles. -/
def answeredBy : List Row → Stream' Byte → Cpu → Cpu × List BusOp
  | [], _, c => (c, [])
  | r :: rest, bytes, c =>
    let c' := (r.act bytes.head c).advance (r.last (r.act bytes.head c))
    if c'.t = 1 then (c', [r.bus c])
    else ((answeredBy rest bytes.tail c').1, r.bus c :: (answeredBy rest bytes.tail c').2)

/-- In every environment a table without vector selection does what `answeredBy` says for the bytes the environment gives. -/
theorem perform_answeredBy (rows : List Row) (hsel : ∀ r ∈ rows, r.selects = false) (s : State) :
    ∃ bytes, (perform rows s).cpu = (answeredBy rows bytes s.cpu).1 ∧
      s.performs (perform rows s) (answeredBy rows bytes s.cpu).2 := by
  induction rows generalizing s with
  | nil => exact ⟨Stream'.const 0, rfl, rfl⟩
  | cons r rest ih =>
    obtain ⟨hr, hrest⟩ := List.forall_mem_cons.1 hsel
    obtain ⟨bytes, hcpu, hops⟩ := ih hrest (r.cycle s)
    rw [Row.cycle_cpu_plain hr] at hcpu hops
    refine ⟨Stream'.cons (s.serveStalls.bus.data s.cfg.map (r.bus s.cpu)) bytes, ?_⟩
    rw [perform_cons, answeredBy, Row.cycle_cpu_plain hr, Stream'.head_cons, Stream'.tail_cons]
    split
    · exact ⟨Row.cycle_cpu_plain hr, Row.cycle_transactions⟩
    · refine ⟨hcpu, ?_⟩
      rw [State.performs, hops, Row.cycle_transactions, List.reverse_cons, List.append_assoc, List.singleton_append]

/-- An instruction of reads whose registers and transactions are the same whatever bytes answer it, in every environment. -/
theorem runs_answeredBy {rows : List Row} (hsel : ∀ r ∈ rows, r.selects = false) (hreads : ∀ r ∈ rows, r.Reads) {s : State}
    {regs : Regs} {ops : List BusOp}
    (h : ∀ bytes, (answeredBy rows bytes s.cpu.start).1.regs = regs ∧ (answeredBy rows bytes s.cpu.start).2 = ops) :
    ∃ t, runInstr rows s = .next t ∧ t.regs = regs ∧ s.writesNothing t ∧ s.performs t ops := by
  obtain ⟨bytes, hcpu, hops⟩ := perform_answeredBy rows hsel { s with cpu := s.cpu.start }
  obtain ⟨hregs, hlist⟩ := h bytes
  exact ⟨_, rfl, (congrArg Cpu.regs hcpu).trans hregs,
    perform_writesNothing rows { s with cpu := s.cpu.start } fun r hr => (hreads r hr).bus, hlist ▸ hops⟩

/-- The same where memory answers: registers, memory and transactions by `valuesOf` and `opsOf`. -/
theorem runs_valuesOf {rows : List Row} (hsel : ∀ r ∈ rows, r.selects = false) {s : State} (h : s.memoryAnswers)
    {regs : Regs} {mem : Memory} {ops : List BusOp}
    (hvalues : (valuesOf s.cfg.map rows s.cpu.start s.bus.mem).1.regs = regs ∧
      (valuesOf s.cfg.map rows s.cpu.start s.bus.mem).2 = mem ∧ opsOf s.cfg.map rows s.cpu.start s.bus.mem = ops) :
    ∃ t, runInstr rows s = .next t ∧ t.regs = regs ∧ t.bus.mem = mem ∧ t.cfg = s.cfg ∧ s.performs t ops := by
  obtain ⟨t, ht, hcpu, hmem, hcfg, -, hops⟩ := runInstr_values rows hsel h
  obtain ⟨hregs, hafter, hlist⟩ := hvalues
  exact ⟨t, ht, (congrArg Cpu.regs hcpu).trans hregs, hmem.trans hafter, hcfg, hlist ▸ hops⟩

/-! ## Jumps (R220, R221) -/

/-- `PC` after two fetches. -/
theorem pc_add_two (pc : Word) : pc + 1 + 1 = pc + 2 := BitVec.add_assoc pc 1 1

/-- JMP absolute, in every environment. -/
theorem runs_jmpRows (w : Word) (s : State) :
    ∃ t, runInstr (jmpRows w) s = .next t ∧ t.regs = { s.regs with pc := w } ∧ s.writesNothing t ∧
      s.performs t [.read s.cpu.pc, .read (s.cpu.pc + 1), .read (s.cpu.pc + 2)] := by
  refine runs_answeredBy (selects_rowsOf (i := .jmp w) nofun) (reads_rowsOf (i := .jmp w) rfl) fun bytes => ⟨?_, ?_⟩
  · exact congrArg (fun pc => { s.regs with pc := pc }) (join_hi_lo w)
  · rw [← pc_add_two]
    rfl

/-- The table of JMP indirect, where memory answers: the pointer's second byte comes from the pointer's own page. -/
theorem jmpIndRows_values (w : Word) (map : AddressMap) {c : Cpu} (m : Memory) (ht : c.t = 1) :
    let rd := fun a => Memory.read m (cellOf map a)
    let second := join (hiByte w) (loByte w + 1)
    (valuesOf map (jmpIndRows w) c m).1.regs = { c.regs with pc := join (rd second) (rd w) } ∧
      (valuesOf map (jmpIndRows w) c m).2 = m ∧
      opsOf map (jmpIndRows w) c m = [.read c.pc, .read (c.pc + 1), .read (c.pc + 2), .read w, .read second] := by
  rw [← pc_add_two]
  simp [jmpIndRows, valuesOf, opsOf, Row.values, opcodeRow, loRow, hiRow, Cpu.hilo, Cpu.regs, ht]

/-- JMP indirect, where memory answers. -/
theorem runs_jmpIndRows (w : Word) {s : State} (h : s.memoryAnswers) :
    ∃ t, runInstr (jmpIndRows w) s = .next t ∧
      t.regs = { s.regs with pc := join (s.peek (join (hiByte w) (loByte w + 1))) (s.peek w) } ∧ t.bus.mem = s.bus.mem ∧
      s.performs t [.read s.cpu.pc, .read (s.cpu.pc + 1), .read (s.cpu.pc + 2), .read w,
        .read (join (hiByte w) (loByte w + 1))] := by
  obtain ⟨t, ht, hregs, hmem, -, hops⟩ :=
    runs_valuesOf (selects_rowsOf (i := .jmpInd w) nofun) h (jmpIndRows_values w _ _ rfl)
  exact ⟨t, ht, hregs, hmem, hops⟩

/-- Settles O51: the result of JMP needs no byte it reads; the indirect one reads the pointer in its own page. -/
theorem jumpsRun : Obligations.JumpsRun := fun s w => ⟨runs_jmpRows w s, runs_jmpIndRows w⟩

/-! ## Branches (R224 to R232) -/

theorem branchCrosses_iff {next : Word} {rel : Byte} :
    branchCrosses next rel = true ↔ hiByte (branchTarget next rel) ≠ hiByte next := bne_iff_ne

/-- A target that crosses no page is the next instruction's page with the target's low byte. -/
theorem join_of_not_branchCrosses {next : Word} {rel : Byte} (h : branchCrosses next rel = false) :
    join (hiByte next) (loByte (branchTarget next rel)) = branchTarget next rel := by
  rw [← bne_eq_false_iff_eq.1 h, join_hi_lo]

/-- What a branch does, whatever bytes answer it: not taken, taken within the page, or taken across it. -/
theorem branchRows_answeredBy (cond : Flags → Bool) (rel : Byte) (bytes : Stream' Byte) {c : Cpu} (ht : c.t = 1) :
    let next := c.pc + 2
    let target := branchTarget next rel
    (answeredBy (branchRows cond rel) bytes c).1.regs = { c.regs with pc := if cond c.p then target else next } ∧
      (answeredBy (branchRows cond rel) bytes c).2 = [.read c.pc, .read (c.pc + 1)] ++
        (if cond c.p then [.read next] else []) ++
        (if cond c.p ∧ hiByte target ≠ hiByte next then [.read (join (hiByte next) (loByte target))] else []) := by
  simp only [← branchCrosses_iff, ← pc_add_two]
  cases hcond : cond c.p with
  | false => simp [branchRows, answeredBy, ht, hcond, Cpu.regs]
  | true =>
    cases hcross : branchCrosses (c.pc + 1#16 + 1#16) rel with
    | false =>
      have htarget := join_of_not_branchCrosses hcross
      simp [branchRows, answeredBy, ht, hcond, hcross, htarget, Cpu.regs]
    | true => simp [branchRows, answeredBy, ht, hcond, hcross, Cpu.regs]

/-- A branch, in every environment. -/
theorem runs_branchRows (cond : Flags → Bool) (rel : Byte) (s : State) :
    let next := s.cpu.pc + 2
    let target := branchTarget next rel
    ∃ t, runInstr (branchRows cond rel) s = .next t ∧
      t.regs = { s.regs with pc := if cond s.cpu.p then target else next } ∧ s.writesNothing t ∧
      s.performs t ([.read s.cpu.pc, .read (s.cpu.pc + 1)] ++
        (if cond s.cpu.p then [.read next] else []) ++
        (if cond s.cpu.p ∧ hiByte target ≠ hiByte next then [.read (join (hiByte next) (loByte target))] else [])) :=
  runs_answeredBy (by simp [branchRows]) (reads_branchRows cond rel) fun bytes => branchRows_answeredBy cond rel bytes rfl

/-- Settles O54: each is the branch table with its own condition. -/
theorem branchesRun : Obligations.BranchesRun := fun s r =>
  ⟨⟨rfl, runs_branchRows (fun p => !p.n) r s⟩, ⟨rfl, runs_branchRows (fun p => p.n) r s⟩,
    ⟨rfl, runs_branchRows (fun p => !p.v) r s⟩, ⟨rfl, runs_branchRows (fun p => p.v) r s⟩,
    ⟨rfl, runs_branchRows (fun p => !p.c) r s⟩, ⟨rfl, runs_branchRows (fun p => p.c) r s⟩,
    ⟨rfl, runs_branchRows (fun p => !p.z) r s⟩, ⟨rfl, runs_branchRows (fun p => p.z) r s⟩⟩

/-! ## Subroutines (R222, R223) -/

/-- Memory after the two pushes of a word: its high byte at the slot of the stack pointer, its low byte in the slot below. -/
def Memory.pushWord (map : AddressMap) (m : Memory) (sp : Byte) (w : Word) : Memory :=
  Memory.write (Memory.write m (cellOf map (stackAddr sp)) (hiByte w)) (cellOf map (stackAddr (sp - 1))) (loByte w)

section
variable (map : AddressMap) (m : Memory) (sp : Byte) (w : Word)

/-- The pushes leave every cell but the two slots alone. -/
theorem Memory.read_pushWord_other {k : Nat} (hhi : k ≠ cellOf map (stackAddr sp))
    (hlo : k ≠ cellOf map (stackAddr (sp - 1))) : Memory.read (Memory.pushWord map m sp w) k = Memory.read m k := by
  rw [Memory.pushWord, Memory.read_write_other _ _ hlo, Memory.read_write_other _ _ hhi]

variable {m} (h : Memory.wf m = true)
include h

theorem Memory.read_pushWord_lo :
    Memory.read (Memory.pushWord map m sp w) (cellOf map (stackAddr (sp - 1))) = loByte w :=
  Memory.read_write_same _ _ (Memory.wf_write _ _ h (cellOf_lt map _))

/-- The second push does not reach the first one's slot. -/
theorem Memory.read_pushWord_hi :
    Memory.read (Memory.pushWord map m sp w) (cellOf map (stackAddr sp)) = hiByte w := by
  have hslots : cellOf map (stackAddr sp) ≠ cellOf map (stackAddr (sp - 1)) := by
    rw [cellOf_stackAddr, cellOf_stackAddr]
    bv_omega
  rw [Memory.pushWord, Memory.read_write_other _ _ hslots, Memory.read_write_same _ _ h]

end

/-- The table of JSR, where memory answers. -/
theorem jsrRows_values (w : Word) (map : AddressMap) {c : Cpu} (m : Memory) (ht : c.t = 1) :
    let m' := Memory.pushWord map m c.s (c.pc + 2)
    (valuesOf map (jsrRows w) c m).1.regs =
        { c.regs with s := c.s - 2, pc := join (Memory.read m' (cellOf map (c.pc + 2))) (loByte w) } ∧
      (valuesOf map (jsrRows w) c m).2 = m' ∧
      opsOf map (jsrRows w) c m = [.read c.pc, .read (c.pc + 1), .read (stackAddr c.s),
        .write (stackAddr c.s) (hiByte (c.pc + 2)), .write (stackAddr (c.s - 1)) (loByte (c.pc + 2)), .read (c.pc + 2)] := by
  have hs : c.s - 1#8 - 1#8 = c.s - 2#8 := BitVec.sub_sub ..
  rw [← pc_add_two]
  simp [jsrRows, valuesOf, opsOf, Row.values, opcodeRow, loRow, pushRow, Memory.pushWord, Cpu.regs, ht, hs]

/-- The table of RTS, where memory answers. -/
theorem rtsRows_values (map : AddressMap) {c : Cpu} (m : Memory) (ht : c.t = 1) :
    let slot := fun k => Memory.read m (cellOf map (stackAddr (c.s + k)))
    (valuesOf map rtsRows c m).1.regs = { c.regs with s := c.s + 2, pc := join (slot 2) (slot 1) + 1 } ∧
      (valuesOf map rtsRows c m).2 = m ∧
      opsOf map rtsRows c m = [.read c.pc, .read (c.pc + 1), .read (stackAddr c.s), .read (stackAddr (c.s + 1)),
        .read (stackAddr (c.s + 2)), .read (join (slot 2) (slot 1))] := by
  have hs : c.s + 1#8 + 1#8 = c.s + 2#8 := BitVec.add_assoc ..
  simp [rtsRows, valuesOf, opsOf, Row.values, opcodeRow, dummyPcRow, pullDummyRow, Cpu.regs, ht, hs]

/-- JSR, where memory answers: the target's high byte is the one that stands in memory after the pushes. -/
theorem runs_jsrRows (w : Word) {s : State} (h : s.memoryAnswers) :
    ∃ t, runInstr (jsrRows w) s = .next t ∧ t.bus.mem = Memory.pushWord s.cfg.map s.bus.mem s.cpu.s (s.cpu.pc + 2) ∧
      t.cfg = s.cfg ∧ t.regs = { s.regs with s := s.cpu.s - 2, pc := join (t.peek (s.cpu.pc + 2)) (loByte w) } ∧
      s.performs t [.read s.cpu.pc, .read (s.cpu.pc + 1), .read (stackAddr s.cpu.s),
        .write (stackAddr s.cpu.s) (hiByte (s.cpu.pc + 2)), .write (stackAddr (s.cpu.s - 1)) (loByte (s.cpu.pc + 2)),
        .read (s.cpu.pc + 2)] := by
  obtain ⟨t, ht, hregs, hmem, hcfg, hops⟩ :=
    runs_valuesOf (selects_rowsOf (i := .jsr w) nofun) h (jsrRows_values w _ _ rfl)
  refine ⟨t, ht, hmem, hcfg, ?_, hops⟩
  rw [State.peek, hcfg, hmem]
  exact hregs

/-- RTS, where memory answers. -/
theorem runs_rtsRows {s : State} (h : s.memoryAnswers) :
    ∃ t, runInstr rtsRows s = .next t ∧
      t.regs = { s.regs with s := s.cpu.s + 2, pc := join (s.slot 2) (s.slot 1) + 1 } ∧ t.bus.mem = s.bus.mem ∧
      s.performs t [.read s.cpu.pc, .read (s.cpu.pc + 1), .read (stackAddr s.cpu.s), .read (stackAddr (s.cpu.s + 1)),
        .read (stackAddr (s.cpu.s + 2)), .read (join (s.slot 2) (s.slot 1))] := by
  obtain ⟨t, ht, hregs, hmem, -, hops⟩ := runs_valuesOf (selects_rowsOf (i := .rts) nofun) h (rtsRows_values _ _ rfl)
  exact ⟨t, ht, hregs, hmem, hops⟩

/-- Settles O52: by the values of the two tables; pushes that miss the operand leave the target's high byte in place. -/
theorem callAndReturnRun : Obligations.CallAndReturnRun := by
  intro s w h
  refine ⟨?_, runs_rtsRows h⟩
  obtain ⟨t, ht, hmem, hcfg, hregs, hops⟩ := runs_jsrRows w h
  refine ⟨t, ht, hmem, hregs, fun hw hhi hlo => ?_, hops⟩
  have hpeek : t.peek (s.cpu.pc + 2) = hiByte w := by
    rw [State.peek, hcfg, hmem, Memory.read_pushWord_other _ _ _ _ hhi hlo]
    exact hw
  calc
    t.cpu.pc = join (t.peek (s.cpu.pc + 2)) (loByte w) := congrArg Regs.pc hregs
    _ = w := by rw [hpeek, join_hi_lo]

/-- Where memory answers an instruction, it answers what follows. -/
theorem exec_memoryAnswers {i : Instr} {s t : State} (h : s.memoryAnswers) (hexec : exec i s = .next t) : t.memoryAnswers := by
  rw [exec_next hexec]
  exact perform_keeps (P := fun u => u.memoryAnswers) _ _ (fun r _ _ hu => r.cycle_memoryAnswers hu) h

/-- After the two pushes of a word the slots above the stack pointer hold it. -/
theorem State.slots_of_pushWord {s t : State} {w : Word} (hwf : Memory.wf s.bus.mem = true)
    (hmem : t.bus.mem = Memory.pushWord s.cfg.map s.bus.mem s.cpu.s w) (hcfg : t.cfg = s.cfg)
    (hsp : t.cpu.s = s.cpu.s - 2) : t.slot 1 = loByte w ∧ t.slot 2 = hiByte w := by
  have h1 : s.cpu.s - 2 + 1 = s.cpu.s - 1 := by bv_omega
  have h2 : s.cpu.s - 2 + 2 = s.cpu.s := BitVec.sub_add_cancel ..
  simp only [State.slot, State.peek, hmem, hcfg, hsp, h1, h2]
  exact ⟨Memory.read_pushWord_lo _ _ _ hwf, Memory.read_pushWord_hi _ _ _ hwf⟩

/-- Settles O53: RTS pulls the word that JSR pushed, the address of its last byte, and adds one. -/
theorem returnUndoesCall : Obligations.ReturnUndoesCall := by
  intro s t u w h hwf hcall hreturn
  obtain ⟨t', ht, hmem, hcfg, hregs, -⟩ := runs_jsrRows w h
  obtain rfl : t = t' := Host.Outcome.next.inj (hcall.symm.trans ht)
  obtain ⟨u', hu, hregs', -⟩ := runs_rtsRows (exec_memoryAnswers h hcall)
  obtain rfl : u = u' := Host.Outcome.next.inj (hreturn.symm.trans hu)
  have hsp : t.cpu.s = s.cpu.s - 2 := congrArg Regs.s hregs
  obtain ⟨hlo, hhi⟩ := State.slots_of_pushWord hwf hmem hcfg hsp
  have hpc : s.cpu.pc + 2 + 1 = s.cpu.pc + 3 := BitVec.add_assoc ..
  have hs : s.cpu.s - 2 + 2 = s.cpu.s := BitVec.sub_add_cancel ..
  rw [hregs', hlo, hhi, join_hi_lo, hpc, hsp, hs, hregs]
  rfl

end Sys2Proof.Machine
end

section
/-! PROOFS. Stack, flag, NOP and system instructions (45_stack_flags_system R250 to R263; 46_unofficial R292 to R297): the
pushes and the pulls, the NOP variants whatever answers them, the seven cycles of BRK and the return. -/

namespace Sys2Proof.Machine

/-! ## Flags (R254 to R260) -/

/-- Settles O56: each is an implied table whose `then` column sets one flag. -/
theorem flagInstructionsRun : Obligations.FlagInstructionsRun := fun s =>
  ⟨⟨rfl, runs_impliedRows _ (g := fun r => { r with p := { r.p with c := false } }) (fun _ => rfl) s⟩,
    ⟨rfl, runs_impliedRows _ (g := fun r => { r with p := { r.p with c := true } }) (fun _ => rfl) s⟩,
    ⟨rfl, runs_impliedRows _ (g := fun r => { r with p := { r.p with i := false } }) (fun _ => rfl) s⟩,
    ⟨rfl, runs_impliedRows _ (g := fun r => { r with p := { r.p with i := true } }) (fun _ => rfl) s⟩,
    ⟨rfl, runs_impliedRows _ (g := fun r => { r with p := { r.p with v := false } }) (fun _ => rfl) s⟩,
    ⟨rfl, runs_impliedRows _ (g := fun r => { r with p := { r.p with d := false } }) (fun _ => rfl) s⟩,
    ⟨rfl, runs_impliedRows _ (g := fun r => { r with p := { r.p with d := true } }) (fun _ => rfl) s⟩⟩

/-! ## NOPs (R261, R292 to R297) -/

/-- A read that changes nothing, in a form whose address needs no pointer, whatever bytes answer it: in the indexed forms the
address in the latches is the operand's, at once or once the carry is fixed up. -/
theorem nopRows_answeredBy (mo : MemOperand) (hx : mo.mode ≠ .indx) (hy : mo.mode ≠ .indy) (bytes : Stream' Byte) {c : Cpu}
    (ht : c.t = 1) (rd : Word → Byte) :
    (answeredBy (memReadRows mo fun _ c => c) bytes c).1.regs =
        { c.regs with pc := c.pc + BitVec.ofNat 16 mo.mode.length } ∧
      (answeredBy (memReadRows mo fun _ c => c) bytes c).2 = leadIn false mo c rd ++ [.read (addressOf mo c rd)] := by
  have hpc2 : c.pc + 1#16 + 1#16 = c.pc + 2#16 := pc_add_two c.pc
  have hpc3 : c.pc + 2#16 + 1#16 = c.pc + 3#16 := BitVec.add_assoc ..
  have hsum (w : Word) (idx : Byte) := join_hi_lo w ▸ join_index (hiByte w) (loByte w) idx
  cases mo with
  | indx z => exact absurd rfl hx
  | indy z => exact absurd rfl hy
  | zp z | zpx z | zpy z | abs w =>
    simp [memReadRows, answeredBy, opcodeRow, loRow, hiRow, zpIndexRow, readRow, Cpu.zplo, Cpu.hilo, leadIn, addressOf,
      Cpu.regs, MemOperand.mode, Mode.length, ht, hpc2, hpc3]
  | absx w =>
    cases hcross : carries (loByte w) c.x <;>
      simp [memReadRows, answeredBy, opcodeRow, loRow, hiIndexRow, fixupOrReadRow, readRow, Cpu.hilo, leadIn, addressOf,
        pageCross_absx, preFixup, baseOf, Cpu.regs, MemOperand.mode, Mode.length, ht, hpc2, hpc3, ← hsum, hcross]
  | absy w =>
    cases hcross : carries (loByte w) c.y <;>
      simp [memReadRows, answeredBy, opcodeRow, loRow, hiIndexRow, fixupOrReadRow, readRow, Cpu.hilo, leadIn, addressOf,
        pageCross_absy, preFixup, baseOf, Cpu.regs, MemOperand.mode, Mode.length, ht, hpc2, hpc3, ← hsum, hcross]

/-- The same as a run, in every environment. -/
theorem runs_nopRows (mo : MemOperand) (hx : mo.mode ≠ .indx) (hy : mo.mode ≠ .indy) (s : State) :
    ∃ t, runInstr (memReadRows mo fun _ c => c) s = .next t ∧
      t.regs = { s.regs with pc := s.cpu.pc + BitVec.ofNat 16 mo.mode.length } ∧ s.writesNothing t ∧
      s.performs t (leadIn false mo s.cpu.start s.peek ++ [.read (addressOf mo s.cpu.start s.peek)]) :=
  runs_answeredBy (selects_memReadRows mo _) (reads_memReadRows mo _) fun bytes =>
    nopRows_answeredBy mo hx hy bytes (c := s.cpu.start) rfl s.peek

/-- Settles O50: no byte that is read matters to a NOP; the operand bytes are the decoder's. -/
theorem nopsRun : Obligations.NopsRun := by
  intro s done
  have himp := runs_impliedRows id (g := id) (fun _ => rfl) s
  have hpc : { s.regs with pc := s.cpu.pc + 1 + 1 } = { s.regs with pc := s.cpu.pc + 2 } := by rw [pc_add_two]
  exact ⟨himp, fun _ => himp,
    fun _ v => runs_answeredBy (selects_immediateRows v _) (reads_immediateRows v _) fun _ => ⟨hpc, rfl⟩,
    fun _ z => runs_nopRows (.zp z) nofun nofun s, fun _ z => runs_nopRows (.zpx z) nofun nofun s,
    fun w => runs_nopRows (.abs w) nofun nofun s, fun _ w => runs_nopRows (.absx w) nofun nofun s⟩

/-! ## Pushes and pulls (R250 to R253) -/

/-- The flags survive a push and a pull, whatever B the pushed status has (R10, R23). -/
theorem setPFrom_pByte (b : Bool) (p : Flags) : setPFrom (pByte b p) = p := by
  obtain ⟨n, v, d, i, z, c⟩ := p
  revert b n v d i z c
  decide

/-- The two bits of a pushed status that are no flags (R23). -/
theorem pByte_bits (b : Bool) (p : Flags) : (pByte b p).getLsbD 4 = b ∧ (pByte b p).getLsbD 5 = true := by
  obtain ⟨n, v, d, i, z, c⟩ := p
  revert b n v d i z c
  decide

/-- The push tables (R141), where memory answers: the byte, which depends on no sequencing latch, goes to the slot of the stack
pointer. -/
theorem pushRows_values (v : Cpu → Byte) (hv : ∀ c ir pc t, v { c with ir := ir, pc := pc, t := t } = v c) (map : AddressMap)
    {c : Cpu} (m : Memory) (ht : c.t = 1) :
    let rows := [opcodeRow, dummyPcRow true, pushRow v false true]
    (valuesOf map rows c m).1.regs = { c.regs with s := c.s - 1, pc := c.pc + 1 } ∧
      (valuesOf map rows c m).2 = Memory.write m (cellOf map (stackAddr c.s)) (v c) ∧
      opsOf map rows c m = [.read c.pc, .read (c.pc + 1), .write (stackAddr c.s) (v c)] := by
  simp [valuesOf, opsOf, Row.values, opcodeRow, dummyPcRow, pushRow, Cpu.advance, Cpu.regs, ht, hv]

/-- A push, where memory answers. -/
theorem runs_pushRows (v : Cpu → Byte) (hv : ∀ c ir pc t, v { c with ir := ir, pc := pc, t := t } = v c) {s : State}
    (h : s.memoryAnswers) :
    ∃ t, runInstr [opcodeRow, dummyPcRow true, pushRow v false true] s = .next t ∧
      t.regs = { s.regs with s := s.cpu.s - 1, pc := s.cpu.pc + 1 } ∧
      s.storesByte t (stackAddr s.cpu.s) (v s.cpu.start) ∧
      s.performs t [.read s.cpu.pc, .read (s.cpu.pc + 1), .write (stackAddr s.cpu.s) (v s.cpu.start)] := by
  obtain ⟨t, ht, hregs, hmem, hcfg, hops⟩ :=
    runs_valuesOf (by simp [opcodeRow, dummyPcRow, pushRow]) h (pushRows_values v hv _ _ rfl)
  exact ⟨t, ht, hregs, State.storesByte_of_mem hmem hcfg, hops⟩

/-- The pull tables (R142), where memory answers: the stack pointer goes up, and `g` is what `f` makes of the slot's byte. -/
theorem runs_pullRows (f : Byte → Cpu → Cpu) {g : Byte → Regs → Regs} (hg : ∀ d c, (f d c).regs = g d c.regs)
    {s : State} (h : s.memoryAnswers) :
    ∃ t, runInstr (pullRows f) s = .next t ∧
      t.regs = g (s.slot 1) { s.regs with s := s.cpu.s + 1, pc := s.cpu.pc + 1 } ∧ t.bus.mem = s.bus.mem ∧
      s.performs t [.read s.cpu.pc, .read (s.cpu.pc + 1), .read (stackAddr s.cpu.s), .read (stackAddr (s.cpu.s + 1))] := by
  obtain ⟨t, ht, hregs, hmem, -, hops⟩ := runs_valuesOf (rows := pullRows f)
    (by simp [pullRows, opcodeRow, dummyPcRow, pullDummyRow, readRow]) h ⟨hg _ _, rfl, rfl⟩
  exact ⟨t, ht, hregs, hmem, hops⟩

/-- Settles O55: by the push and the pull tables. -/
theorem pushesAndPullsRun : Obligations.PushesAndPullsRun := by
  intro s h pushes pulls
  obtain ⟨t, ht, hregs, hstores, hops⟩ := runs_pushRows (fun c => pByte true c.p) (fun _ _ _ _ => rfl) h
  obtain ⟨u, hu, hregs', hmem, hops'⟩ := runs_pullRows (fun d c => { c with p := setPFrom d })
    (g := fun d r => { r with p := setPFrom d }) (fun _ _ => rfl) h
  exact ⟨runs_pushRows Cpu.a (fun _ _ _ _ => rfl) h,
    ⟨t, ht, hregs, hstores, hops, pByte_bits true s.cpu.p⟩,
    runs_pullRows (fun d c => c.setA d) (g := fun d r => { r with a := d, p := r.p.setNZ d }) (fun _ _ => rfl) h,
    ⟨u, hu, hregs', hmem, hops', fun b => setPFrom_pByte b s.cpu.p⟩⟩

/-! ## Return from interrupt (R263) -/

/-- The table of RTI, where memory answers. -/
theorem rtiRows_values (map : AddressMap) {c : Cpu} (m : Memory) (ht : c.t = 1) :
    let slot := fun k => Memory.read m (cellOf map (stackAddr (c.s + k)))
    (valuesOf map rtiRows c m).1.regs = { c.regs with p := setPFrom (slot 1), s := c.s + 3, pc := join (slot 3) (slot 2) } ∧
      (valuesOf map rtiRows c m).2 = m ∧
      opsOf map rtiRows c m = [.read c.pc, .read (c.pc + 1), .read (stackAddr c.s), .read (stackAddr (c.s + 1)),
        .read (stackAddr (c.s + 2)), .read (stackAddr (c.s + 3))] := by
  have hs2 : c.s + 1#8 + 1#8 = c.s + 2#8 := BitVec.add_assoc ..
  have hs3 : c.s + 2#8 + 1#8 = c.s + 3#8 := BitVec.add_assoc ..
  simp [rtiRows, returnRows, valuesOf, opsOf, Row.values, opcodeRow, dummyPcRow, pullDummyRow, Cpu.regs, ht, hs2, hs3]

/-- Settles O57: by the values of the table. -/
theorem returnFromInterruptRuns : Obligations.ReturnFromInterruptRuns := by
  intro s h
  obtain ⟨t, ht, hregs, hmem, -, hops⟩ := runs_valuesOf (selects_rowsOf (i := .rti) nofun) h (rtiRows_values _ _ rfl)
  exact ⟨t, ht, hregs, hmem, hops⟩

/-! ## BRK (R262, R330) -/

theorem trapPushRow_bus {k : Trap} (hk : k ≠ .reset) (v : Cpu → Byte) (c : Cpu) :
    (trapPushRow k v).bus c = .write (stackAddr c.s) (v c) := by
  cases k with
  | brk | int => rfl
  | reset => exact absurd rfl hk

/-- What a sequence that is no reset does after its two fetches: the three pushes and the two reads of the vector. -/
theorem State.Sequenced.afterFetches {s u : State} {c : Cpu} {b1 b2 : BusCycle}
    (h : s.Sequenced (vectorOf s.edge) c [b2, b1] u) {k : Trap} (hk : k ≠ .reset) (hseq : c.seq ≠ .reset) (ht : c.t = 3)
    (hb : ∀ m, replay s.cfg.map [b2, b1] m = m) :
    let v := vectorOf s.edge
    s.Sequenced v
      { c with
        s := c.s - 3, p := { c.p with i := true }, pc := join (s.peek (v + 1)) (s.peek v), lo := s.peek v, t := 1,
        seq := .instr }
      [.read (v + 1) (s.peek (v + 1)), .read v (s.peek v), .write (stackAddr (c.s - 2)) (pByte (trapB k) c.p),
       .write (stackAddr (c.s - 1)) (loByte c.pc), .write (stackAddr c.s) (hiByte c.pc), b2, b1]
      (perform ((trapRows k).drop 2) u) := by
  intro v
  have hrows := ofSequence_trapRows k
  simp only [trapRows, List.forall_mem_cons] at hrows
  obtain ⟨-, -, hr3, hr4, hr5, hr6, hr7, -⟩ := hrows
  rw [show c.s - 2 = c.s - 1 - 1 by bv_omega, show c.s - 3 = c.s - 1 - 1 - 1 by bv_omega]
  have h3 := h.write hr3 hseq ht (trapPushRow_bus hk _ _) (c' := { c with s := c.s - 1, t := 4 })
    (by simp [trapPushRow, Cpu.advance, ht])
  have h4 := h3.write hr4 hseq rfl (trapPushRow_bus hk _ _) (c' := { c with s := c.s - 1 - 1, t := 5 }) rfl
  have h5 := h4.write hr5 hseq rfl (trapPushRow_bus hk _ _) (c' := { c with s := c.s - 1 - 1 - 1, t := 6 }) rfl
  have h6 := h5.read hr6 hseq rfl (a := v) (congrArg BusOp.read (h5.decided (by simp)).1)
    (h5.peek_eq fun m => by simp only [replay_write, hb, Memory.read_push, v])
    (c' := { c with s := c.s - 1 - 1 - 1, lo := s.peek v, p := { c.p with i := true }, t := 7 }) rfl
  have h7 := h6.read hr7 hseq rfl (a := v + 1) (congrArg (BusOp.read <| · + 1) (h6.decided (by simp)).1)
    (h6.peek_eq fun m => by simp only [replay_write, replay_read, hb, Memory.read_push, v])
    (c' := { c with
      s := c.s - 1 - 1 - 1, lo := s.peek v, p := { c.p with i := true }, pc := join (s.peek (v + 1)) (s.peek v), t := 1,
      seq := .instr }) rfl
  simp only [trapRows, List.drop_succ_cons, List.drop_zero]
  rw [h3.perform_cons rfl (by simp), h4.perform_cons rfl (by simp), h5.perform_cons rfl (by simp),
    h6.perform_cons rfl (by simp), perform_last (by rw [h7.cpu])]
  exact h7

/-- The seven cycles of BRK, from the first to the last: the first two step over the opcode and the padding byte. -/
theorem sequenced_brk {s : State} (hquiet : s.quiet) (hlog : s.bus.log = []) (ht : s.cpu.t = 1) (hseq : s.cpu.seq = .instr) :
    let v := vectorOf s.edge
    s.Sequenced v
      { s.cpu with
        ir := s.peek s.cpu.pc, s := s.cpu.s - 3, p := { s.cpu.p with i := true },
        pc := join (s.peek (v + 1)) (s.peek v), lo := s.peek v, t := 1, seq := .instr }
      [.read (v + 1) (s.peek (v + 1)), .read v (s.peek v), .write (stackAddr (s.cpu.s - 2)) (pByte true s.cpu.p),
       .write (stackAddr (s.cpu.s - 1)) (loByte (s.cpu.pc + 2)), .write (stackAddr s.cpu.s) (hiByte (s.cpu.pc + 2)),
       .read (s.cpu.pc + 1) (s.peek (s.cpu.pc + 1)), .read s.cpu.pc (s.peek s.cpu.pc)]
      (perform (trapRows .brk) s) := by
  rw [← pc_add_two]
  have hrows := ofSequence_trapRows .brk
  simp only [trapRows, List.forall_mem_cons] at hrows
  obtain ⟨hr1, hr2, -⟩ := hrows
  have hne : s.cpu.seq ≠ .reset := by simp [hseq]
  have h0 := State.sequenced_start hquiet hlog rfl
  have h1 := h0.read hr1 hne ht (a := s.cpu.pc) rfl rfl
    (c' := { s.cpu with ir := s.peek s.cpu.pc, pc := s.cpu.pc + 1, t := 2 }) (by simp [trapFetchRow, Cpu.advance, ht])
  have h2 := h1.read hr2 hne rfl (a := s.cpu.pc + 1) rfl (h1.peek_eq fun _ => rfl)
    (c' := { s.cpu with ir := s.peek s.cpu.pc, pc := s.cpu.pc + 1 + 1, t := 3 }) rfl
  have hrest := h2.afterFetches (k := .brk) nofun hne rfl fun _ => rfl
  rwa [← h2.perform_cons rfl (by simp), ← h1.perform_cons rfl (by simp)] at hrest

/-- Settles O15: the seven silent cycles, on top of whatever stands in the log. -/
theorem brkSequence : Obligations.BrkSequence := by
  intro s hquiet v cycles
  have hexec : exec .brk s =
      .next ((perform (trapRows .brk) { s.anew with cpu := s.cpu.start }).under s.bus.log) := by
    rw [← perform_under]
    rfl
  have h := sequenced_brk (s := { s.anew with cpu := s.cpu.start }) hquiet rfl rfl rfl
  exact ⟨_, hexec, congrArg Cpu.regs h.cpu, (h.decided (by simp)).2, h.intReq,
    ⟨congrArg Cpu.t h.cpu, congrArg Cpu.seq h.cpu⟩, congrArg (· ++ s.bus.log) h.log, h.mem⟩

end Sys2Proof.Machine
end

section
/-! PROOFS. The unofficial and the unlisted opcodes (46_unofficial R282 to R291, R298; 93 U1 to U9): the combined
read-modify-writes, the immediate combinations, and the 21 unlisted values under both policies. -/

namespace Sys2Proof.Machine

/-! ## Combined read-modify-writes (R282 to R287) -/

section
variable (m : MemOperand) {s : State} (h : s.memoryAnswers)
include h

/-- A shift of memory with a logic operation on A, where memory answers: C from the shift, N and Z from the new A. -/
theorem runs_shiftLogicRows (op : Byte → Bool → Byte × Bool) (logic : Byte → Byte → Byte) :
    let r := op (s.operand (.mem m)) s.cpu.p.c
    ∃ t, runInstr (shiftLogicRows op logic m) s = .next t ∧
      t.regs = { s.regs with
        a := logic s.cpu.a r.1, p := { s.cpu.p.setNZ (logic s.cpu.a r.1) with c := r.2 },
        pc := s.cpu.pc + BitVec.ofNat 16 m.mode.length } ∧
      (Memory.wf s.bus.mem = true → s.storesByte t (s.address m) r.1) ∧ s.performs t (s.rmwOps m r.1) :=
  runs_rmwRows m _ _
    (g := fun d r => { r with
      a := logic r.a (op d r.p.c).1, p := { r.p.setNZ (logic r.a (op d r.p.c).1) with c := (op d r.p.c).2 } })
    (fun _ _ _ _ _ _ _ _ _ _ => rfl) (fun _ => rfl) h

/-- A change of memory after which A takes a sum computed from the byte that was read, where memory answers. -/
theorem runs_rmwSumRows (op : Byte → Bool → Byte) (sum : Byte → Byte → Bool → Sum) :
    let d := s.operand (.mem m)
    let r := sum s.cpu.a d s.cpu.p.c
    ∃ t, runInstr (rmwRows m (fun c => op c.dat c.p.c) fun c => c.takeSum (sum c.a c.dat c.p.c)) s = .next t ∧
      t.regs = Regs.takeSum { s.regs with pc := s.cpu.pc + BitVec.ofNat 16 m.mode.length } r ∧
      (Memory.wf s.bus.mem = true → s.storesByte t (s.address m) (op d s.cpu.p.c)) ∧
      s.performs t (s.rmwOps m (op d s.cpu.p.c)) :=
  runs_rmwRows m _ _ (g := fun d r => r.takeSum (sum r.a d r.p.c)) (fun _ _ _ _ _ _ _ _ _ _ => rfl)
    (fun c => c.regs_takeSum _) h

end

/-- Settles O48: each is a read-modify-write table whose `then` column works on A with the new byte. -/
theorem combinedReadModifyWritesRun : Obligations.CombinedReadModifyWritesRun := by
  intro s m h d c done summed
  refine ⟨?_, ?_, ?_, ?_, ?_, ?_⟩
  · exact runs_rmwRows m _ _ (g := fun d r => { r with p := r.p.compare r.a (dec8 d) })
      (fun _ _ _ _ _ _ _ _ _ _ => rfl) (fun _ => rfl) h
  · exact runs_rmwSumRows m h (fun d _ => inc8 d) fun a d c => sbc8 a (inc8 d) c
  · exact runs_shiftLogicRows m h asl8 (· ||| ·)
  · exact runs_shiftLogicRows m h rol8 (· &&& ·)
  · exact runs_shiftLogicRows m h lsr8 (· ^^^ ·)
  · exact runs_rmwSumRows m h (fun d c => (ror8 d c).1) fun a d c => adc8 a (ror8 d c).1 (ror8 d c).2

/-! ## Immediate combinations (R288 to R291) -/

/-- The immediate tables (R116), in every environment: `PC` steps over both bytes, and `g` is what `f` makes of the registers. -/
theorem runs_immediateRows (v : Byte) (f : Byte → Cpu → Cpu) {g : Regs → Regs} (hg : ∀ c, (f v c).regs = g c.regs)
    (s : State) :
    ∃ t, runInstr (immediateRows v f) s = .next t ∧ t.regs = g { s.regs with pc := s.cpu.pc + 2 } ∧ s.writesNothing t ∧
      s.performs t [.read s.cpu.pc, .read (s.cpu.pc + 1)] := by
  obtain ⟨t, ir, -, ht, hcpu, hnothing, -, hops, -⟩ := immediateInstr v f s
  refine ⟨t, ht, ?_, hnothing, hops⟩
  rw [State.regs_eq, hcpu, Cpu.regs_advance, hg]
  rfl

/-- How the registers a program sees take ANC (R288): C is a copy of N. -/
def Regs.anc (v : Byte) (r : Regs) : Regs :=
  let b := r.a &&& v
  { r with a := b, p := { r.p with n := b.msb, z := b == 0, c := b.msb } }

/-- How they take ALR (R289): a shift to the right leaves bit 7 clear. -/
def Regs.alr (v : Byte) (r : Regs) : Regs :=
  let b := r.a &&& v
  { r with a := b >>> 1, p := { r.p with n := false, z := b >>> 1 == 0, c := b.getLsbD 0 } }

/-- How they take ARR (R290): the old carry is bit 7 of the result, and with it N. -/
def Regs.arr (v : Byte) (r : Regs) : Regs :=
  let b := (r.a &&& v) >>> 1 ||| (if r.p.c then 0x80 else 0x00)
  { r with a := b, p := { r.p with n := r.p.c, z := b == 0, c := b.getLsbD 6, v := b.getLsbD 6 ^^ b.getLsbD 5 } }

/-- How they take AXS (R291): the flags are those of the difference. -/
def Regs.axs (v : Byte) (r : Regs) : Regs :=
  { r with
    x := (r.a &&& r.x) - v
    p := { r.p with
      n := ((r.a &&& r.x) - v).msb, z := (r.a &&& r.x) - v == 0, c := decide (v.toNat ≤ (r.a &&& r.x).toNat) } }

theorem msb_half (b : Byte) : (b >>> 1).msb = false := by
  rw [BitVec.msb_ushiftRight]
  rfl

/-- A right rotation is the half with the carry put into bit 7. -/
theorem ror8_fst (b : Byte) (c : Bool) : (ror8 b c).1 = b >>> 1 ||| (if c then 0x80 else 0x00) := by cases c <;> rfl

theorem msb_half_carry (b : Byte) (c : Bool) : (b >>> 1 ||| (if c then 0x80 else 0x00)).msb = c := by
  rw [BitVec.msb_or, msb_half]
  cases c <;> rfl

section
variable (v : Byte) (c : Cpu)

theorem Cpu.regs_ancOp : (c.ancOp v).regs = c.regs.anc v := rfl

theorem Cpu.regs_alrOp : (c.alrOp v).regs = c.regs.alr v := by
  simp only [Cpu.alrOp, Cpu.regs, Regs.alr, Flags.shifted, Flags.setNZ, lsr8, msb_half]

theorem Cpu.regs_arrOp : (c.arrOp v).regs = c.regs.arr v := by
  simp only [Cpu.arrOp, Cpu.regs, Regs.arr, Flags.setNZ, ror8_fst, msb_half_carry]
  rfl

theorem Cpu.regs_axsOp : (c.axsOp v).regs = c.regs.axs v := by
  simp only [Cpu.axsOp, Cpu.regs, Regs.axs, Flags.compare, sub_beq_zero]
  rfl

end

/-- Settles O49: each is an immediate table with its own `then` column. -/
theorem immediateCombinationsRun : Obligations.ImmediateCombinationsRun := by
  refine ⟨rfl, rfl, rfl, rfl, rfl, fun s v => ⟨fun _ => ?_, ?_, ?_, ?_⟩⟩
  · exact runs_immediateRows v Cpu.ancOp (g := Regs.anc v) (Cpu.regs_ancOp v) s
  · exact runs_immediateRows v Cpu.alrOp (g := Regs.alr v) (Cpu.regs_alrOp v) s
  · exact runs_immediateRows v Cpu.arrOp (g := Regs.arr v) (Cpu.regs_arrOp v) s
  · exact runs_immediateRows v Cpu.axsOp (g := Regs.axs v) (Cpu.regs_axsOp v) s

/-! ## The opcode fetch of an unlisted value (R113, R298) -/

/-- In every environment the fetch steps over the opcode value and keeps every other register and flag. -/
theorem fetchOpcode_regs (s : State) : s.fetchOpcode.regs = { s.regs with pc := s.cpu.pc + 1 } := by
  rw [State.regs_eq, State.fetchOpcode, Row.cycle_cpu_plain rfl]
  rfl

theorem fetchOpcode_writesNothing (s : State) : s.writesNothing s.fetchOpcode :=
  Row.cycle_writesNothing (r := opcodeRow) (s := { s with cpu := s.cpu.start }) rfl

theorem fetchOpcode_performs (s : State) : s.performs s.fetchOpcode [.read s.cpu.pc] :=
  Row.cycle_transactions (r := opcodeRow) (s := { s with cpu := s.cpu.start })

theorem fetchOpcode_intReq (s : State) : s.fetchOpcode.irq.intReq = s.irq.intReq := by
  rw [State.fetchOpcode, Row.cycle_eq _ _ rfl]
  exact State.serveStalls_intReq _

/-- What the fetch and the stall cycles before it leave in the log: one active cycle, whose byte `IR` holds, and as many cycles
as are counted. -/
theorem fetchOpcode_log (s : State) :
    ∃ new, s.fetchOpcode.bus.log = new ++ s.bus.log ∧ activeCycles new = [.read s.cpu.pc s.fetchOpcode.cpu.ir] ∧
      s.fetchOpcode.cyc = s.cyc + BitVec.ofNat 64 (cyclesOf new).length := by
  let u : State := { s with cpu := s.cpu.start }
  have hlog : s.fetchOpcode.bus.log = opcodeRow.cycleLog u ++ s.bus.log := Row.cycle_log _ u
  refine ⟨opcodeRow.cycleLog u, hlog, ?_, ?_⟩
  · have hir : s.fetchOpcode.cpu.ir = u.serveStalls.bus.data s.cfg.map (.read s.cpu.pc) :=
      congrArg Cpu.ir (Row.cycle_cpu_plain (r := opcodeRow) (s := u) rfl)
    refine List.append_cancel_right (bs := activeCycles s.bus.log) ?_
    rw [← activeCycles_append, ← hlog, hir]
    exact Row.cycle_active (r := opcodeRow) (s := u)
  · have hstart : u.CountedFrom s.cyc (cyclesOf s.bus.log).length := ⟨0, rfl, (BitVec.add_zero s.cyc).symm⟩
    obtain ⟨n, hn, hcyc⟩ : s.fetchOpcode.CountedFrom _ _ := opcodeRow.cycle_countedFrom hstart
    rw [hlog, cyclesOf_append, List.length_append, Nat.add_comm, Nat.add_left_cancel_iff] at hn
    rw [hn, hcyc]

/-- Settles O59: the refusal carries the state the opcode fetch leaves. -/
theorem unlistedOpcodesAreRefused : Obligations.UnlistedOpcodesAreRefused := by
  intro i s hi hcfg
  obtain ⟨new, hlog, hactive, hcyc⟩ := fetchOpcode_log s
  exact ⟨s.fetchOpcode, new, exec_refused hi hcfg, fetchOpcode_regs s, fetchOpcode_writesNothing s, hlog, hactive, hcyc,
    fetchOpcode_intReq s⟩

/-! ## Stores of the indexed forms (R127, R133) -/

/-- The forms whose index addition may leave the page of the base address. -/
inductive PageIndexed : MemOperand → Prop
  | absx (w : Word) : PageIndexed (.absx w)
  | absy (w : Word) : PageIndexed (.absy w)
  | indy (z : Byte) : PageIndexed (.indy z)

theorem loByte_index (w : Word) (i : Byte) : loByte (w + i.setWidth 16) = loByte w + i := by
  rw [← join_hi_lo w, ← join_index, loByte_join, loByte_join]

theorem hiByte_index (w : Word) (i : Byte) :
    hiByte (w + i.setWidth 16) = if carries (loByte w) i then hiByte w + 1 else hiByte w := by
  rw [← join_hi_lo w, ← join_index, hiByte_join, hiByte_join, loByte_join]

/-- The high byte of the effective address takes the carry of the index addition (R82, R126). -/
theorem hiByte_addressOf {mo : MemOperand} (hmo : PageIndexed mo) (c : Cpu) (rd : Word → Byte) :
    hiByte (addressOf mo c rd) = if pageCross mo c rd then hiByte (baseOf mo rd) + 1 else hiByte (baseOf mo rd) := by
  cases hmo with
  | absx w => exact (hiByte_index w c.x).trans (by rw [pageCross_absx]; rfl)
  | absy w => exact (hiByte_index w c.y).trans (by rw [pageCross_absy]; rfl)
  | indy z => exact (hiByte_index _ c.y).trans (by rw [pageCross_indy, loByte_join]; rfl)

/-- The registers before the write cycle of an indexed store: the latches hold the effective address, and whether the page was
crossed. -/
def State.atWrite (s : State) (mo : MemOperand) (ptr : Byte) : Cpu :=
  s.cpu.start.scratch (s.cpu.pc + BitVec.ofNat 16 mo.mode.length) (s.peek s.cpu.pc) (loByte (s.address mo))
    (hiByte (s.address mo)) ptr s.cpu.dat s.cpu.ea (pageCross mo s.cpu s.peek) (writeCycles mo)

section
variable {mo : MemOperand} (hmo : PageIndexed mo) (s : State)

theorem State.atWrite_regs (ptr : Byte) :
    (s.atWrite mo ptr).regs = { s.regs with pc := s.cpu.pc + BitVec.ofNat 16 mo.mode.length } := rfl

theorem State.atWrite_hilo (ptr : Byte) : (s.atWrite mo ptr).hilo = s.address mo := join_hi_lo _

theorem State.atWrite_unstableTarget (ptr : Byte) :
    (s.atWrite mo ptr).unstableTarget =
      if pageCross mo s.cpu s.peek then join (Config.freeByte s.cpu.fresh) (loByte (s.address mo)) else s.address mo := by
  rw [Cpu.unstableTarget, State.atWrite_hilo]
  rfl

include hmo

/-- The fixup has added the carry to the high byte, or has found none to add. -/
theorem State.atWrite_baseHiPlusOne (ptr : Byte) :
    (s.atWrite mo ptr).baseHiPlusOne = hiByte (baseOf mo s.peek) + 1 := by
  change (if pageCross mo s.cpu s.peek then hiByte (s.address mo) else hiByte (s.address mo) + 1) = _
  rw [State.address, hiByte_addressOf hmo]
  split <;> rfl

/-- Where memory answers, an indexed store reaches its write cycle so, whatever that row does. -/
theorem valuesOf_indexedStore (r : Row) :
    ∃ ptr, valuesOf s.cfg.map (storeAddressRows mo ++ [r]) s.cpu.start s.bus.mem =
      r.values s.cfg.map (s.atWrite mo ptr) s.bus.mem := by
  have hpc2 : s.cpu.pc + 1#16 + 1#16 = s.cpu.pc + 2#16 := pc_add_two s.cpu.pc
  have hpc3 : s.cpu.pc + 2#16 + 1#16 = s.cpu.pc + 3#16 := BitVec.add_assoc ..
  cases hmo with
  | absx w | absy w =>
    refine ⟨s.cpu.ptr, ?_⟩
    simp [State.atWrite, storeAddressRows, valuesOf, Row.values, opcodeRow, loRow, hiIndexRow, fixupRow, Cpu.indexLo,
      Cpu.fixHi, Cpu.advance, Cpu.start, Cpu.scratch, State.address, State.peek, addressOf, loByte_index, hiByte_index,
      pageCross_absx, pageCross_absy, MemOperand.mode, Mode.length, writeCycles, hpc2, hpc3]
  | indy z =>
    refine ⟨z, ?_⟩
    simp [State.atWrite, storeAddressRows, valuesOf, Row.values, opcodeRow, ptrRow, ptrLoRow, ptrHiIndexRow, fixupRow,
      Cpu.indexLo, Cpu.fixHi, Cpu.advance, Cpu.start, Cpu.scratch, State.address, State.peek, addressOf, loByte_index,
      hiByte_index, pageCross_indy, MemOperand.mode, Mode.length, writeCycles, hpc2]

variable {s} (h : s.memoryAnswers)
include h

/-- An indexed store, where memory answers, whose last row writes at `addr` the byte `v` and leaves what `act` makes of the
registers. -/
theorem runs_indexedStore (addr : Cpu → Word) (v : Cpu → Byte) (act : Cpu → Cpu) :
    let rows := storeAddressRows mo ++
      [{ bus := fun c => .write (addr c) (v c), act := fun _ c => act c, last := fun _ => true }]
    ∃ t ptr, runInstr rows s = .next t ∧ t.regs = (act (s.atWrite mo ptr)).regs ∧
      s.storesByte t (addr (s.atWrite mo ptr)) (v (s.atWrite mo ptr)) := by
  intro rows
  have hsel : ∀ r ∈ rows, r.selects = false :=
    List.forall_mem_append.2 ⟨selects_storeAddressRows mo, List.forall_mem_singleton.2 rfl⟩
  obtain ⟨t, ht, hcpu, hmem, hcfg, -⟩ := runInstr_values rows hsel h
  obtain ⟨ptr, hvalues⟩ := valuesOf_indexedStore hmo s
    { bus := fun c => .write (addr c) (v c), act := fun _ c => act c, last := fun _ => true }
  rw [hvalues] at hcpu hmem
  exact ⟨t, ptr, ht, (congrArg Cpu.regs hcpu).trans (Cpu.regs_advance _ _), State.storesByte_of_mem hmem hcfg⟩

/-- The unstable stores (93 U5 to U7): a byte of the registers, and-ed with one more than the base's high byte; on a page cross
the target's high byte is a free value. -/
theorem exec_unstableStore {i : Instr} (hlen : i.length = mo.mode.length) (q : Regs → Byte)
    (hpc : ∀ r pc, q { r with pc := pc } = q r)
    (hexec : exec i s = runInstr (unstableStoreRows mo fun c => q c.regs &&& c.baseHiPlusOne) s) :
    ∃ t, exec i s = .next t ∧ t.regs = { s.regs with pc := s.following i } ∧
      s.storesByte t
        (if pageCross mo s.cpu s.peek then join (Config.freeByte s.cpu.fresh) (loByte (s.address mo)) else s.address mo)
        (q s.regs &&& (hiByte (baseOf mo s.peek) + 1)) := by
  obtain ⟨t, ptr, ht, hregs, hstores⟩ := runs_indexedStore hmo h Cpu.unstableTarget
    (fun c => q c.regs &&& c.baseHiPlusOne) fun c => if c.cross then c.takeFree else c
  refine ⟨t, hexec.trans ht, ?_, ?_⟩
  · rw [hregs, State.following, hlen]
    split <;> rfl
  · rwa [State.atWrite_unstableTarget, State.atWrite_baseHiPlusOne hmo, State.atWrite_regs, hpc] at hstores

end

/-! ## The unlisted values under the conventional policy (93 U1 to U9) -/

/-- An immediate form that takes one free value (93 U2, U3), where no other agent stores: `g` is what `f` makes of that value and
the registers. -/
theorem runs_freeRows (v : Byte) (f : Byte → Cpu → Cpu) {g : Byte → Regs → Regs}
    (hfresh : ∀ c, (f v c).fresh = c.fresh + 1) (hg : ∀ c, (f v c).regs = g c.free c.regs) {s : State} (h : s.alone) :
    ∃ t, runInstr (immediateRows v f) s = .next t ∧ t.cpu.fresh = s.cpu.fresh + 1 ∧ t.bus.mem = s.bus.mem ∧
      t.regs = g (Config.freeByte s.cpu.fresh) { s.regs with pc := s.cpu.pc + 2 } := by
  obtain ⟨t, ir, -, ht, hcpu, ⟨-, -, -, -, hmem⟩, -⟩ := immediateInstr v f s
  refine ⟨t, ht, ?_, hmem h, ?_⟩
  · rw [hcpu, Cpu.advance_fresh, hfresh]
    rfl
  · rw [State.regs_eq, hcpu, Cpu.regs_advance, hg]
    rfl

/-- Settles O60: KIL by its opcode fetch, the others by their tables, which the policy lets run. -/
theorem unlistedOpcodesConventionally : Obligations.UnlistedOpcodesConventionally := by
  intro s h hpolicy free stores
  have hruns {i : Instr} (hkil : ∀ k, i ≠ .kil k) : exec i s = runInstr (rowsOf i) s :=
    exec_of_listed (fun hrefuse => nomatch hpolicy.symm.trans hrefuse) hkil
  refine ⟨fun k => ?_, fun v => ?_, fun v => ?_, fun v => ⟨_, hruns nofun, rfl⟩, fun z => ?_, fun w => ?_, fun w => ?_,
    fun w => ?_, fun w => ?_, fun w => ?_⟩
  · obtain ⟨-, -, -, -, hmem⟩ := fetchOpcode_writesNothing s
    exact ⟨s.fetchOpcode, by simp only [exec, execKil, hpolicy], fetchOpcode_regs s, hmem h.2, fetchOpcode_performs s⟩
  · rw [hruns (i := .xaa v) nofun]
    exact runs_freeRows v Cpu.xaaOp (g := fun const r => r.setA ((r.a ||| const) &&& r.x &&& v)) (fun _ => rfl)
      (fun _ => rfl) h.2
  · rw [hruns (i := .lxa v) nofun]
    exact runs_freeRows v Cpu.lxaOp
      (g := fun const r => { r.setX ((r.a ||| const) &&& v) with a := (r.a ||| const) &&& v }) (fun _ => rfl)
      (fun _ => rfl) h.2
  · exact exec_unstableStore (.indy z) h rfl (fun r => r.a &&& r.x) (fun _ _ => rfl) (hruns nofun)
  · exact exec_unstableStore (.absy w) h rfl (fun r => r.a &&& r.x) (fun _ _ => rfl) (hruns nofun)
  · exact exec_unstableStore (.absx w) h rfl Regs.y (fun _ _ => rfl) (hruns nofun)
  · exact exec_unstableStore (.absy w) h rfl Regs.x (fun _ _ => rfl) (hruns nofun)
  · obtain ⟨t, ptr, ht, hregs, hstores⟩ := runs_indexedStore (.absy w) h Cpu.hilo
      (fun c => c.a &&& c.x &&& c.baseHiPlusOne) fun c => { c with s := c.a &&& c.x }
    refine ⟨t, (hruns (i := .tas w) nofun).trans ht, hregs, ?_⟩
    rwa [State.atWrite_hilo, State.atWrite_baseHiPlusOne (.absy w)] at hstores
  · obtain ⟨t, ht, hregs, hmem, -⟩ := runs_readRows (.mem (.absy w)) Cpu.lasOp
      (g := fun d r => { r.setX (d &&& r.s) with a := d &&& r.s, s := d &&& r.s }) (fun _ _ => rfl) (fun _ _ => rfl) h
    exact ⟨t, (hruns (i := .las w) nofun).trans ht, hmem, hregs⟩

end Sys2Proof.Machine
end

section
/-! PROOFS. The interrupt latches (60_exceptions R321 to R327): the edge detector over any run of samples, the polls of a cycle table
in every environment, and what the instructions leave requested. -/

namespace Sys2Proof.Machine

/-! ## The edge detector (R321, R322) -/

@[simp] theorem lastLevel_nil (prev : Bool) : lastLevel prev [] = prev := rfl

@[simp] theorem lastLevel_cons (prev l : Bool) (ls : List Bool) : lastLevel prev (l :: ls) = lastLevel l ls :=
  List.getLastD_cons ..

/-- A rising edge is a sample of 1 whose predecessor is 0. -/
theorem risingEdge_iff {prev : Bool} {ls : List Bool} :
    risingEdge prev ls = true ↔ ∃ k : Nat, ls[k]? = some true ∧ (prev :: ls)[k]? = some false := by
  induction ls generalizing prev with
  | nil => simp [risingEdge]
  | cons l ls ih =>
    rw [risingEdge, Bool.or_eq_true, ih]
    constructor
    · rintro (h | ⟨k, hk, hprev⟩)
      · exact ⟨0, by simpa using h⟩
      · exact ⟨k + 1, hk, hprev⟩
    · rintro ⟨_ | k, hk, hprev⟩
      · exact .inl (by simpa using And.intro hk hprev)
      · exact .inr ⟨k, hk, hprev⟩

/-- The latches after a run of sampled cycles. -/
theorem Latches.foldl_sample (l : Latches) (ns : List Lines) :
    ns.foldl Latches.sample l =
      { nmiPrev := lastLevel l.nmiPrev (ns.map Lines.nmi)
        nmiPending := l.nmiPending || risingEdge l.nmiPrev (ns.map Lines.nmi)
        resetPending := l.resetPending || ns.any Lines.reset
        intReq := l.intReq } := by
  induction ns generalizing l with
  | nil => simp [risingEdge]
  | cons n ns ih => simp [ih, risingEdge, Bool.or_assoc]

/-- Settles O21: by induction over the samples, read off the latches they leave. -/
theorem edgeDetector : Obligations.EdgeDetector := by
  intro l ns
  dsimp only
  rw [Latches.foldl_sample]
  exact ⟨by rw [Bool.or_eq_true, risingEdge_iff], by simp, rfl, rfl⟩

/-! ## The polls of a table (R324) -/

/-- Cycle by cycle, whether a table polls and with which I, when `bytes` stand on the bus in its cycles. -/
def pollsOf (cfg : Config) : List Row → Stream' Byte → Cpu → List (Option Bool)
  | [], _, _ => []
  | r :: rest, bytes, c =>
    let c' := r.act bytes.head c
    let next := c'.advance (r.last c')
    (if r.poll cfg c' then some c'.p.i else none) :: if next.t = 1 then [] else pollsOf cfg rest bytes.tail next

/-- The latches after a cycle that samples these lines, and polls with this I or not at all. -/
def Latches.cycle (l : Latches) (n : Lines) : Option Bool → Latches
  | none => l.sample n
  | some i => (l.sample n).poll n.irq i

/-- The latches after cycles with these polls, one input a cycle as long as there are any; then the lines hold their levels. -/
def Latches.run : List (Option Bool) → List CycleInput → Lines → Latches → Latches
  | [], _, _, l => l
  | p :: ps, [], held, l => Latches.run ps [] held (l.cycle held p)
  | p :: ps, i :: is, _, l =>
    Latches.run ps is i.lines (((i.stalls.map Stall.lines).foldl Latches.sample l).cycle i.lines p)

/-- The latches after the stall cycles before an active cycle are those of their samples. -/
theorem State.serveStalls_irq (s : State) :
    s.serveStalls.irq = (s.bus.stalls.map Stall.lines).foldl Latches.sample s.irq := by
  cases h : s.bus.inputs with
  | nil => simp [State.serveStalls_quiet h, Bus.stalls, h]
  | cons i rest => simp [State.serveStalls_cons h, stalls_irq, Bus.stalls, h]

/-- In every environment: registers and latches after a table without vector selection, for the bytes the environment gives. -/
theorem perform_latches (rows : List Row) (hsel : ∀ r ∈ rows, r.selects = false) (s : State) :
    ∃ bytes, (perform rows s).cpu = (answeredBy rows bytes s.cpu).1 ∧
      (perform rows s).irq = s.irq.run (pollsOf s.cfg rows bytes s.cpu) s.bus.inputs s.bus.lines := by
  induction rows generalizing s with
  | nil => exact ⟨Stream'.const 0, rfl, rfl⟩
  | cons r rest ih =>
    obtain ⟨hr, hrest⟩ := List.forall_mem_cons.1 hsel
    obtain ⟨bytes, hcpu, hirq⟩ := ih hrest (r.cycle s)
    let d := s.serveStalls.bus.data s.cfg.map (r.bus s.cpu)
    have hcycle : (r.cycle s).irq = s.serveStalls.irq.cycle s.bus.nextLines
        (if r.poll s.cfg (r.act d s.cpu) then some (r.act d s.cpu).p.i else none) := by
      rw [r.cycle_eq s hr]
      dsimp only [d]
      split <;> rfl
    have hrun (ps : List (Option Bool)) :
        (r.cycle s).irq.run ps s.bus.inputs.tail s.bus.nextLines =
          s.irq.run ((if r.poll s.cfg (r.act d s.cpu) then some (r.act d s.cpu).p.i else none) :: ps)
            s.bus.inputs s.bus.lines := by
      rw [hcycle, State.serveStalls_irq]
      cases h : s.bus.inputs <;> simp [Latches.run, Bus.stalls, Bus.nextLines, h]
    rw [Row.cycle_cpu_plain hr] at hcpu
    rw [Row.cycle_cfg, Row.cycle_inputs, Row.cycle_lines, Row.cycle_cpu_plain hr, hrun] at hirq
    refine ⟨Stream'.cons d bytes, ?_⟩
    rw [perform_cons, answeredBy, pollsOf, Row.cycle_cpu_plain hr, Stream'.head_cons, Stream'.tail_cons]
    split
    · exact ⟨Row.cycle_cpu_plain hr, hrun []⟩
    · exact ⟨hcpu, hirq⟩

/-! ## Steady lines -/

@[simp] theorem Latches.sample_sample (l : Latches) (n : Lines) : (l.sample n).sample n = l.sample n := by
  simp [Latches.sample]

@[simp] theorem Latches.poll_poll (l : Latches) (line i : Bool) : (l.poll line i).poll line i = l.poll line i := by
  simp only [Latches.poll, Bool.or_assoc, Bool.or_left_comm, Bool.or_self]
  simp

/-- The cycles poll with this I, or not at all. -/
def pollAt (i : Bool) (ps : List (Option Bool)) : Prop := ∀ p ∈ ps, p = none ∨ p = some i

/-- Once the lines are sampled, more samples of the same levels and more polls with the same I change nothing. -/
theorem Latches.run_settled {l : Latches} {n : Lines} {i : Bool} {ps : List (Option Bool)} (hl : l.sample n = l)
    (hps : pollAt i ps) : l.run ps [] n = if some i ∈ ps then l.poll n.irq i else l := by
  induction ps generalizing l with
  | nil => rfl
  | cons p ps ih =>
    obtain ⟨hp, hrest⟩ := List.forall_mem_cons.1 hps
    obtain rfl | rfl := hp
    · have hsame : l.cycle n none = l := hl
      simp [Latches.run, hsame, ih hl hrest]
    · have hpoll : l.cycle n (some i) = l.poll n.irq i := by rw [Latches.cycle, hl]
      have hl' : (l.poll n.irq i).sample n = l.poll n.irq i := by
        rw [← hl]
        simp [Latches.poll, Latches.sample]
      simp [Latches.run, hpoll, ih hl' hrest]

/-- Under steady lines the first cycle settles the latches. -/
theorem Latches.run_steady (l : Latches) (n : Lines) {i : Bool} {ps : List (Option Bool)} (hne : ps ≠ [])
    (hps : pollAt i ps) :
    l.run ps [] n = if some i ∈ ps then (l.sample n).poll n.irq i else l.sample n := by
  rw [← Latches.run_settled (l.sample_sample n) hps]
  obtain ⟨p, ps, rfl⟩ := List.exists_cons_of_ne_nil hne
  cases p <;> simp [Latches.run, Latches.cycle]

/-! ## Which cycles of the tables poll (R144) -/

/-- A table polls in some cycle, and with the I flag it starts with alone. -/
def pollsOldI (rows : List Row) : Prop :=
  ∀ cfg bytes (c : Cpu), c.t = 1 → some c.p.i ∈ pollsOf cfg rows bytes c ∧ pollAt c.p.i (pollsOf cfg rows bytes c)

theorem pollsOldI_impliedRows (f : Cpu → Cpu) : pollsOldI (impliedRows f) := by
  intro cfg bytes c ht
  simp [impliedRows, pollsOf, opcodeRow, ht, pollAt]

theorem pollsOldI_immediateRows (v : Byte) (f : Byte → Cpu → Cpu) : pollsOldI (immediateRows v f) := by
  intro cfg bytes c ht
  simp [immediateRows, pollsOf, opcodeRow, ht, pollAt]

theorem pollsOldI_memReadRows (mo : MemOperand) {f : Byte → Cpu → Cpu} (hf : ∀ d c, (f d c).cross = c.cross) :
    pollsOldI (memReadRows mo f) := by
  intro cfg bytes c ht
  cases mo with
  | zp z | zpx z | zpy z | abs w | indx z =>
    simp [memReadRows, pollsOf, opcodeRow, loRow, hiRow, zpIndexRow, ptrRow, ptrIndexRow, ptrLoRow, ptrHiRow, readRow, ht,
      pollAt]
  | absx w =>
    cases h : carries (loByte w) c.x <;>
      simp [memReadRows, pollsOf, opcodeRow, loRow, hiIndexRow, fixupOrReadRow, readRow, ht, h, hf, pollAt]
  | absy w =>
    cases h : carries (loByte w) c.y <;>
      simp [memReadRows, pollsOf, opcodeRow, loRow, hiIndexRow, fixupOrReadRow, readRow, ht, h, hf, pollAt]
  | indy z =>
    cases h : carries (bytes.get 2) c.y <;>
      simp [memReadRows, pollsOf, opcodeRow, ptrRow, ptrLoRow, ptrHiIndexRow, fixupOrReadRow, readRow, ht, h, hf, pollAt]

theorem pollsOldI_readRows (m : ReadOperand) {f : Byte → Cpu → Cpu} (hf : ∀ d c, (f d c).cross = c.cross) :
    pollsOldI (readRows m f) := by
  cases m with
  | imm v => exact pollsOldI_immediateRows v f
  | mem mo => exact pollsOldI_memReadRows mo hf

/-- The write tables, whatever their last row. -/
theorem pollsOldI_storeAddressRows (mo : MemOperand) {r : Row} (hr : ∀ cfg c, r.poll cfg c = false) :
    pollsOldI (storeAddressRows mo ++ [r]) := by
  intro cfg bytes c ht
  cases mo <;>
    simp [storeAddressRows, pollsOf, opcodeRow, loRow, hiRow, zpIndexRow, hiIndexRow, fixupRow, ptrRow, ptrIndexRow,
      ptrLoRow, ptrHiRow, ptrHiIndexRow, hr, ht, pollAt]

theorem pollsOldI_rmwRows (mo : MemOperand) (f : Cpu → Byte) (ex : Cpu → Cpu) : pollsOldI (rmwRows mo f ex) := by
  intro cfg bytes c ht
  cases mo <;>
    simp [rmwRows, rmwAddressRows, rmwTail, pollsOf, Row.also, opcodeRow, loRow, hiRow, zpIndexEaRow, hiIndexRow,
      fixupRow, ptrRow, ptrIndexRow, ptrLoRow, ptrHiRow, ptrHiIndexRow, ht, pollAt]

theorem pollsOldI_shiftRows (op : Byte → Bool → Byte × Bool) (m : ShiftOperand) : pollsOldI (shiftRows op m) := by
  cases m with
  | acc => exact pollsOldI_impliedRows _
  | mem mo => exact pollsOldI_rmwRows mo _ _

theorem pollsOldI_pullRows (f : Byte → Cpu → Cpu) : pollsOldI (pullRows f) := by
  intro cfg bytes c ht
  simp [pullRows, pollsOf, opcodeRow, dummyPcRow, pullDummyRow, readRow, ht, pollAt]

theorem pollsOldI_pushRows (v : Cpu → Byte) : pollsOldI [opcodeRow, dummyPcRow true, pushRow v false true] := by
  intro cfg bytes c ht
  simp [pollsOf, opcodeRow, dummyPcRow, pushRow, ht, pollAt]

/-- The polls of a branch (R326): not taken, taken within the page, taken across it. -/
theorem pollsOf_branchRows (cfg : Config) (cond : Flags → Bool) (rel : Byte) (bytes : Stream' Byte) {c : Cpu}
    (ht : c.t = 1) :
    let poll := fun b => if b = true then some c.p.i else none
    pollsOf cfg (branchRows cond rel) bytes c =
      if cond c.p then
        if branchCrosses (c.pc + 2) rel then [some c.p.i, none, some c.p.i, none]
        else [poll (cfg.branchPoll == .nesdev), poll (cfg.branchPoll == .doc), none]
      else [some c.p.i, none] := by
  rw [← pc_add_two]
  cases hcond : cond c.p with
  | false => cases hb : cfg.branchPoll <;> simp [branchRows, pollsOf, ht, hcond, hb, pollsFirst]
  | true =>
    cases hcross : branchCrosses (c.pc + 1#16 + 1#16) rel <;> cases hb : cfg.branchPoll <;>
      simp [branchRows, pollsOf, ht, hcond, hcross, hb, pollsFirst, pollsSecond]

theorem pollsOldI_branchRows (cond : Flags → Bool) (rel : Byte) : pollsOldI (branchRows cond rel) := by
  intro cfg bytes c ht
  rw [pollsOf_branchRows cfg cond rel bytes ht]
  cases cond c.p with
  | false => simp [pollAt]
  | true => cases branchCrosses (c.pc + 2) rel <;> cases cfg.branchPoll <;> simp [pollAt]

/-- Every instruction but BRK, RTI and KIL polls, with the I flag from before it (R144, R327). -/
theorem pollsOldI_rowsOf {i : Instr} (hbrk : i ≠ .brk) (hrti : i ≠ .rti) (hkil : ∀ k, i ≠ .kil k) :
    pollsOldI (rowsOf i) := by
  cases i
  case brk => exact absurd rfl hbrk
  case rti => exact absurd rfl hrti
  case kil k => exact absurd rfl (hkil k)
  case lda m | ldx m | ldy m | adc m | sbc m | and m | ora m | eor m | cmp m | cpx m | cpy m =>
    exact pollsOldI_readRows m fun _ _ => rfl
  case bit m | lax m => exact pollsOldI_memReadRows m fun _ _ => rfl
  case nopZp k z => exact pollsOldI_memReadRows (.zp z) fun _ _ => rfl
  case nopZpx k z => exact pollsOldI_memReadRows (.zpx z) fun _ _ => rfl
  case nopAbs w => exact pollsOldI_memReadRows (.abs w) fun _ _ => rfl
  case nopAbsx k w => exact pollsOldI_memReadRows (.absx w) fun _ _ => rfl
  case las w => exact pollsOldI_memReadRows (.absy w) fun _ _ => rfl
  case sta m | stx m | sty m | sax m => exact pollsOldI_storeAddressRows m fun _ _ => rfl
  case ahxIndy | ahxAbsy | shy | shx | tas => exact pollsOldI_storeAddressRows _ fun _ _ => rfl
  case asl m | lsr m | rol m | ror m => exact pollsOldI_shiftRows _ m
  case inc m | dec m | dcp m | isc m | slo m | rla m | sre m | rra m => exact pollsOldI_rmwRows m _ _
  case bpl r => exact pollsOldI_branchRows (fun p => !p.n) r
  case bvc r => exact pollsOldI_branchRows (fun p => !p.v) r
  case bcc r => exact pollsOldI_branchRows (fun p => !p.c) r
  case bne r => exact pollsOldI_branchRows (fun p => !p.z) r
  case bmi r | bvs r | bcs r | beq r => exact pollsOldI_branchRows _ r
  case anc k v | alr v | arr v | axs v | xaa v | lxa v | usbc v => exact pollsOldI_immediateRows v _
  case nopImm k v => exact pollsOldI_immediateRows v fun _ c => c
  case tax | tay | txa | tya | tsx | txs | inx | iny | dex | dey | clc | sec | cli | sei | clv | cld | sed | nop | nopImp =>
    exact pollsOldI_impliedRows _
  case pha | php => exact pollsOldI_pushRows _
  case pla | plp => exact pollsOldI_pullRows _
  case jmp | jmpInd | jsr | rts =>
    intro cfg bytes c ht
    simp [rowsOf, jmpRows, jmpIndRows, jsrRows, rtsRows, pollsOf, opcodeRow, loRow, hiRow, pushRow, dummyPcRow,
      pullDummyRow, ht, pollAt]

/-- RTI polls once, with the I flag it has restored (R327). -/
theorem pollsOf_rtiRows (cfg : Config) (bytes : Stream' Byte) {c : Cpu} (ht : c.t = 1) :
    pollsOf cfg rtiRows bytes c = [none, none, none, none, some (answeredBy rtiRows bytes c).1.p.i, none] := by
  simp [rtiRows, returnRows, pollsOf, answeredBy, opcodeRow, dummyPcRow, pullDummyRow, ht]

section
variable (c : Cpu)

@[simp] theorem Cpu.start_t : c.start.t = 1 := rfl
@[simp] theorem Cpu.start_pc : c.start.pc = c.pc := rfl
@[simp] theorem Cpu.start_p : c.start.p = c.p := rfl

end

/-- Registers and latches after an instruction other than BRK, in every environment. -/
theorem exec_latches {i : Instr} {s t : State} (hbrk : i ≠ .brk) (hexec : exec i s = .next t) :
    ∃ bytes, t.cpu = (answeredBy (rowsOf i) bytes s.cpu.start).1 ∧
      t.irq = s.irq.run (pollsOf s.cfg (rowsOf i) bytes s.cpu.start) s.bus.inputs s.bus.lines := by
  rw [exec_next hexec]
  exact perform_latches (rowsOf i) (selects_rowsOf hbrk) { s with cpu := s.cpu.start }

/-- Settles O18: under steady lines every table comes to one sample of the lines and one poll with one I. -/
theorem latchesAfterAnInstruction : Obligations.LatchesAfterAnInstruction := by
  intro i s t hquiet hbrk hexec
  obtain ⟨bytes, hcpu, hirq⟩ := exec_latches hbrk hexec
  have hpolls : some (if i = .rti then t.cpu.p.i else s.cpu.p.i) ∈ pollsOf s.cfg (rowsOf i) bytes s.cpu.start ∧
      pollAt (if i = .rti then t.cpu.p.i else s.cpu.p.i) (pollsOf s.cfg (rowsOf i) bytes s.cpu.start) := by
    by_cases hrti : i = .rti
    · subst hrti
      have hlist := pollsOf_rtiRows s.cfg bytes s.cpu.start_t
      rw [rowsOf] at hcpu ⊢
      rw [hlist, ← hcpu]
      simp [pollAt]
    · rw [if_neg hrti]
      exact pollsOldI_rowsOf hbrk hrti (exec_next_notKil hexec) s.cfg bytes s.cpu.start rfl
  obtain ⟨hpolled, hsame⟩ := hpolls
  rw [hirq, show s.bus.inputs = [] from hquiet, Latches.run_steady _ _ (List.ne_nil_of_mem hpolled) hsame, if_pos hpolled]
  simp [Latches.poll, Latches.sample, Bool.or_assoc]

/-! ## The delay of I-flag changes (R327) -/

/-- In silence an instruction leaves the environment silent and the lines at their levels. -/
theorem exec_quiet {i : Instr} {s t : State} (hquiet : s.quiet) (hexec : exec i s = .next t) :
    t.quiet ∧ t.bus.lines = s.bus.lines := by
  rw [exec_next hexec]
  refine perform_keeps (P := fun u => u.quiet ∧ u.bus.lines = s.bus.lines) _ _ (fun r _ u hu => ?_) ⟨hquiet, rfl⟩
  exact ⟨by rw [State.quiet, Row.cycle_inputs, hu.1]; rfl, (Row.cycle_quiet_lines r hu.1).trans hu.2⟩

/-- With IRQ asserted and I = 0 every instruction that polls with the old I leaves an interrupt requested. -/
theorem intReq_of_irq {i : Instr} {s t : State} (hquiet : s.quiet) (hirq : s.bus.lines.irq = true)
    (hclear : s.cpu.p.i = false) (hbrk : i ≠ .brk) (hrti : i ≠ .rti) (hexec : exec i s = .next t) :
    t.irq.intReq = true := by
  rw [latchesAfterAnInstruction i s t hquiet hbrk hexec]
  simp [hrti, hirq, hclear]

/-- Settles O19: by the latches after each instruction, and by the I flag each leaves. -/
theorem iFlagDelay : Obligations.IFlagDelay := by
  intro s hquiet ⟨hpending, hlevel⟩ hirq hnone
  have hedge : (s.bus.lines.nmi && !s.irq.nmiPrev) = false := by
    cases hline : s.bus.lines.nmi with
    | false => rfl
    | true => simp [hlevel hline]
  have hrequests {i : Instr} {t : State} (h : exec i s = .next t) (hbrk : i ≠ .brk) :
      t.irq.intReq = !(if i = .rti then t.cpu.p.i else s.cpu.p.i) := by
    rw [latchesAfterAnInstruction i s t hquiet hbrk h]
    simp [hnone, hpending, hedge, hirq]
  have hflag {t : State} {r : Regs} (h : t.regs = r) : t.cpu.p.i = r.p.i := congrArg (fun r => r.p.i) h
  have hanswers := State.quiet_memoryAnswers hquiet
  obtain ⟨-, -, ⟨-, t, ht, hcli, -⟩, ⟨-, u, hu, hsei, -⟩, -⟩ := flagInstructionsRun s
  obtain ⟨-, -, -, v, hv, hplp, -⟩ := pushesAndPullsRun s hanswers
  obtain ⟨w, hw, hrti, -⟩ := returnFromInterruptRuns s hanswers
  refine ⟨fun hset => ?_, fun hclear => ?_, ⟨v, hv, hrequests hv nofun, hflag hplp⟩, w, hw, hflag hrti, ?_⟩
  · obtain ⟨htquiet, hlines⟩ := exec_quiet hquiet ht
    exact ⟨t, ht, by simpa [hset] using hrequests ht nofun, hflag hcli, fun j u hbrk hjrti hj =>
      intReq_of_irq htquiet (hlines ▸ hirq) (hflag hcli) hbrk hjrti hj⟩
  · exact ⟨u, hu, by simpa [hclear] using hrequests hu nofun, hflag hsei⟩
  · have hrestored : w.cpu.p.i = (s.slot 1).getLsbD 2 := hflag hrti
    simpa [hrestored] using hrequests hw nofun

/-! ## The poll points of a branch (R326) -/

/-- The branches run the branch table. -/
theorem rowsOf_branch {i : Instr} {cond : Flags → Bool} {rel : Byte} (h : branchOf i = some (cond, rel)) :
    rowsOf i = branchRows cond rel ∧ i ≠ .brk := by
  cases i
  case bpl r | bmi r | bvc r | bvs r | bcc r | bcs r | bne r | beq r =>
    obtain ⟨rfl, rfl⟩ := Prod.mk.inj (Option.some.inj h)
    exact ⟨rfl, nofun⟩
  all_goals cases h

/-- Settles O20: the cycles that poll, in each of the three cases, run against the lines of those cycles. -/
theorem branchPollPoints : Obligations.BranchPollPoints := by
  intro i cond rel s t l1 l2 l3 l4 tg rest hbranch hinputs hexec
  obtain ⟨hrows, hbrk⟩ := rowsOf_branch hbranch
  obtain ⟨bytes, -, hirq⟩ := exec_latches hbrk hexec
  rw [hirq, hrows, hinputs, pollsOf_branchRows _ _ _ _ rfl]
  simp only [Cpu.start_p, Cpu.start_pc]
  by_cases htaken : cond s.cpu.p = true
  · by_cases hcross : branchCrosses (s.cpu.pc + 2#16) rel = true
    · simp [htaken, hcross, Latches.run, Latches.cycle, risingEdge, Bool.or_assoc]
    · cases s.cfg.branchPoll <;>
        simp [htaken, hcross, Latches.run, Latches.cycle, risingEdge, Bool.or_assoc]
  · simp [htaken, Latches.run, Latches.cycle, risingEdge, Bool.or_assoc]

end Sys2Proof.Machine
end

section
/-! PROOFS. The interrupt and the reset sequence in every environment (60_exceptions R329 to R331): the polls they leave out, the
table without its vector selection, the hijack window. -/

namespace Sys2Proof.Machine

/-! ## Sequences do not poll (R329) -/

/-- A cycle of a sequence does not poll, whatever the environment. -/
theorem Row.OfSequence.cycle_intReq {r : Row} (hr : r.OfSequence) (s : State) :
    (r.cycle s).irq.intReq = s.irq.intReq := by
  rw [Row.cycle, Row.active_eq]
  simp [Row.active, hr.poll]

theorem perform_trapRows_intReq (k : Trap) (s : State) : (perform (trapRows k) s).irq.intReq = s.irq.intReq :=
  perform_keeps (P := fun u => u.irq.intReq = s.irq.intReq) _ s
    (fun r hr _ hu => ((ofSequence_trapRows k r hr).cycle_intReq _).trans hu) rfl

/-- The state from which the cycles of a sequence run: the decision has dropped the request (R112). -/
theorem State.boundary_intReq {s : State} (h : s.boundary.cpu.seq ≠ .instr) : s.boundary.irq.intReq = false := by
  unfold State.boundary at h ⊢
  split
  · rfl
  · split
    · rfl
    · rename_i hreset hreq
      simp [hreset, hreq] at h

section
variable {s : State} (ht : s.cpu.t = 1)
include ht

/-- At a boundary that chooses the reset, a step is the reset sequence (R112). -/
theorem step_reset (hseq : s.beginStep.boundary.cpu.seq = .reset) : step s = takeTrap .reset s.beginStep.boundary := by
  simp only [step, plan, State.beginStep_cpu, if_pos ht, hseq]

/-- At a boundary that chooses an interrupt, a step is its sequence (R112). -/
theorem step_int (hseq : s.beginStep.boundary.cpu.seq = .int) : step s = takeTrap .int s.beginStep.boundary := by
  simp only [step, plan, State.beginStep_cpu, if_pos ht, hseq]

end

/-- Settles O17: no row of a sequence polls, and the decision that starts one drops the request. -/
theorem sequencesDoNotPoll : Obligations.SequencesDoNotPoll := by
  refine ⟨fun s t hexec => ?_, fun s t ht hseq hstep => ?_⟩
  · rw [exec_next hexec]
    exact perform_trapRows_intReq .brk { s with cpu := s.cpu.start }
  · have hdropped := State.boundary_intReq hseq
    cases hq : s.beginStep.boundary.cpu.seq with
    | instr => exact absurd hq hseq
    | reset => rw [← Host.Outcome.next.inj ((step_reset ht hq).symm.trans hstep), perform_trapRows_intReq, hdropped]
    | int => rw [← Host.Outcome.next.inj ((step_int ht hq).symm.trans hstep), perform_trapRows_intReq, hdropped]

/-! ## Rows of a sequence, one after the other -/

/-- Rows of a sequence, none but the last marked `end`. -/
structure SequenceRows (rows : List Row) : Prop where
  ofSequence : ∀ r ∈ rows, r.OfSequence
  goesOn : straight rows

theorem sequenceRows_trapRows (k : Trap) : SequenceRows (trapRows k) :=
  ⟨ofSequence_trapRows k, by cases k <;> simp [straight, trapRows, trapFetchRow, trapPushRow]⟩

section
variable {r : Row} {rest : List Row} (h : SequenceRows (r :: rest))
include h

theorem SequenceRows.head : r.OfSequence := h.ofSequence r List.mem_cons_self

theorem SequenceRows.tail : SequenceRows rest := by
  refine ⟨fun q hq => h.ofSequence q (List.mem_cons_of_mem r hq), ?_⟩
  cases rest with
  | nil => exact nofun
  | cons q rest => exact fun p hp => h.goesOn p (List.mem_cons_of_mem r hp)

/-- The first row, then the rest, `T` one further as long as there is a rest. -/
theorem SequenceRows.run_cons {s : State} (ht : 1 ≤ s.cpu.t) :
    perform (r :: rest) s = perform rest (r.cycle s) ∧
      (rest ≠ [] → (r.cycle s).cpu.t = s.cpu.t + 1 ∧ (r.cycle s).cpu.seq = s.cpu.seq) := by
  cases rest with
  | nil => exact ⟨by rw [perform_cons, perform_nil, ite_self], fun h => absurd rfl h⟩
  | cons q rest =>
    have hgo (c : Cpu) : r.last c = false := h.goesOn r List.mem_cons_self c
    have ht' : (r.cycle s).cpu.t = s.cpu.t + 1 := by rw [r.cycle_t h.head.steady, hgo]; rfl
    have hseq : (r.cycle s).cpu.seq = s.cpu.seq := by rw [r.cycle_seq h.head.steady, hgo]; rfl
    exact ⟨perform_next (by omega), fun _ => ⟨ht', hseq⟩⟩

end

/-! ## The vector selection, in every environment (R331) -/

/-- The latches as sampled at the end of the next cycle, its stall cycles included. -/
def State.sampled (s : State) : Latches := s.serveStalls.irq.sample s.bus.nextLines

section
variable {r : Row} (hr : r.OfSequence) {s : State}
include hr

/-- A cycle of a sequence that is not the window's: the latches are sampled, the vector stays. -/
theorem Row.OfSequence.cycle_undecided (hw : s.cpu.t ≠ windowCycle s.cfg.hijackWindow) :
    (r.cycle s).irq = s.sampled ∧ (r.cycle s).cpu.vec = s.cpu.vec := by
  simp [Row.cycle, Row.active, hr.poll, hr.act_vec, (hr.steady _ _).1, hw, State.sampled]

/-- The window's cycle in a sequence that is no reset: the edge latched by then chooses the vector and is used up. -/
theorem Row.OfSequence.cycle_decides (hseq : s.cpu.seq ≠ .reset) (hw : s.cpu.t = windowCycle s.cfg.hijackWindow) :
    (r.cycle s).irq = { s.sampled with nmiPending := false } ∧
      (r.cycle s).cpu.vec = vectorOf s.sampled.nmiPending := by
  simp [Row.cycle, Row.active, hr.selects, hr.poll, hr.steady _ _, hw, hseq, State.selectVector_sequence, State.sampled]

/-- The window's cycle in a reset: the vector is the reset's, and the latches are sampled as in any other. -/
theorem Row.OfSequence.cycle_decides_reset (hseq : s.cpu.seq = .reset) (hw : s.cpu.t = windowCycle s.cfg.hijackWindow) :
    (r.cycle s).irq = s.sampled ∧ (r.cycle s).cpu.vec = resetVector := by
  simp [Row.cycle, Row.active, hr.selects, hr.poll, hr.steady _ _, hw, hseq, State.selectVector, State.sampled]

end

/-- After the window's cycle the vector stays. -/
theorem SequenceRows.perform_vec {rows : List Row} (h : SequenceRows rows) {u : State}
    (hw : rows ≠ [] → windowCycle u.cfg.hijackWindow < u.cpu.t) : (perform rows u).cpu.vec = u.cpu.vec := by
  induction rows generalizing u with
  | nil => rfl
  | cons r rest ih =>
    have hdone := hw (List.cons_ne_nil r rest)
    obtain ⟨hperform, hnext⟩ := h.run_cons (s := u) (by omega)
    have hw' (hrest : rest ≠ []) : windowCycle (r.cycle u).cfg.hijackWindow < (r.cycle u).cpu.t := by
      rw [Row.cycle_cfg, (hnext hrest).1]
      omega
    rw [hperform, ih h.tail hw', (h.head.cycle_undecided (by omega)).2]

/-- A reset reads its own vector, whatever the lines. -/
theorem SequenceRows.perform_vec_reset {rows : List Row} (h : SequenceRows rows) {u : State} (hseq : u.cpu.seq = .reset)
    (ht : 1 ≤ u.cpu.t) (hw : u.cpu.t ≤ windowCycle u.cfg.hijackWindow)
    (hlen : windowCycle u.cfg.hijackWindow < u.cpu.t + rows.length) : (perform rows u).cpu.vec = resetVector := by
  induction rows generalizing u with
  | nil => simp at hlen; omega
  | cons r rest ih =>
    obtain ⟨hperform, hnext⟩ := h.run_cons ht
    rw [List.length_cons] at hlen
    rw [hperform]
    by_cases hwindow : u.cpu.t = windowCycle u.cfg.hijackWindow
    · rw [h.tail.perform_vec fun hrest => by rw [Row.cycle_cfg, (hnext hrest).1]; omega,
        (h.head.cycle_decides_reset hseq hwindow).2]
    · obtain ⟨ht', hseq'⟩ := hnext (by rintro rfl; simp at hlen; omega)
      exact ih h.tail (hseq'.trans hseq) (by omega) (by rw [ht', Row.cycle_cfg]; omega)
        (by rw [ht', Row.cycle_cfg]; omega)

/-! ## A sequence is its table with the vector known from the start

The vector selection is all that keeps a sequence from being a plain cycle table, and no row reads the vector before it is
selected: so the sequence does what its rows do without selection, when the vector it will select stands in `vec` from the start. -/

/-- The row without its vector selection. -/
def Row.plain (r : Row) : Row := { r with selects := false }

theorem selects_plain (rows : List Row) : ∀ r ∈ rows.map Row.plain, r.selects = false := by
  simp [Row.plain]

/-- The state with another vector. -/
def State.withVec (s : State) (v : Word) : State := { s with cpu := { s.cpu with vec := v } }

/-- `w` is `u` but for the vector, which is `v`, and but for the latches, which are the same in a reset. -/
structure State.Follows (q : Seq) (v : Word) (w u : State) : Prop where
  cpu : w.cpu = { u.cpu with vec := v }
  bus : w.bus = u.bus
  cfg : w.cfg = u.cfg
  irq : q = .reset → w.irq = u.irq

/-- One cycle, with its vector selection and without. -/
theorem State.Follows.cycle {q : Seq} {v : Word} {w u : State} (h : w.Follows q v u) {r : Row} (hr : r.OfSequence)
    (hop : r.bus w.cpu = r.bus u.cpu) (hseq : u.cpu.seq = q) : (r.plain.cycle w).Follows q v (r.cycle u) := by
  have hstalls := State.serveStalls_bus_congr h.bus h.cfg
  constructor
  case cpu =>
    rw [Row.cycle_cpu_plain rfl, Row.cycle_cpu]
    have hd : w.serveStalls.bus.data w.cfg.map (r.plain.bus w.cpu) = u.serveStalls.bus.data u.cfg.map (r.bus u.cpu) := by
      rw [hstalls, h.cfg, ← hop]
      rfl
    rw [hd, h.cpu]
    have hact := hr.act (u.serveStalls.bus.data u.cfg.map (r.bus u.cpu)) u.cpu v
    have hlast := hr.last (r.act (u.serveStalls.bus.data u.cfg.map (r.bus u.cpu)) u.cpu) v
    simp only [Row.plain, hact, hlast]
    unfold Cpu.advance
    split <;> rfl
  case bus => exact Row.cycle_bus_congr h.bus h.cfg hop
  case cfg => simp [h.cfg]
  case irq =>
    intro hq
    have hsampled : w.sampled = u.sampled := by
      simp only [State.sampled, State.serveStalls_irq, h.bus, h.irq hq]
    have hplain : (r.plain.cycle w).irq = w.sampled := by
      rw [Row.cycle_eq _ _ rfl]
      simp [Row.plain, hr.poll, State.sampled]
    rw [hplain, hsampled]
    by_cases hw : u.cpu.t = windowCycle u.cfg.hijackWindow
    · exact (hr.cycle_decides_reset (hseq.trans hq) hw).1.symm
    · exact (hr.cycle_undecided hw).1.symm

/-- The row's transaction does not depend on the vector. -/
def Row.Blind (r : Row) : Prop := ∀ c v, r.bus { c with vec := v } = r.bus c

/-- A run of rows, blind as long as the vector is not selected. -/
theorem SequenceRows.follows {rows : List Row} (h : SequenceRows rows) {q : Seq} {w u : State} (ht : rows ≠ [] → 1 ≤ u.cpu.t)
    (hseq : rows ≠ [] → u.cpu.seq = q)
    (hblind : ∀ n r, rows[n]? = some r → u.cpu.t + n ≤ windowCycle u.cfg.hijackWindow → r.Blind)
    (hw : w.Follows q (perform rows u).cpu.vec u) :
    (perform (rows.map Row.plain) w).Follows q (perform rows u).cpu.vec (perform rows u) := by
  induction rows generalizing w u with
  | nil => exact hw
  | cons r rest ih =>
    have ht1 := ht (List.cons_ne_nil r rest)
    have hq := hseq (List.cons_ne_nil r rest)
    obtain ⟨hperform, hnext⟩ := h.run_cons ht1
    have hop : r.bus w.cpu = r.bus u.cpu := by
      rw [hw.cpu]
      by_cases hopen : u.cpu.t ≤ windowCycle u.cfg.hijackWindow
      · exact hblind 0 r rfl hopen u.cpu _
      · rw [h.perform_vec fun _ => by omega]
    have hcycle := hw.cycle h.head hop hq
    rw [hperform] at hcycle ⊢
    have hrest := ih h.tail (fun hne => by rw [(hnext hne).1]; omega) (fun hne => (hnext hne).2.trans hq)
      (fun n p hp hopen => hblind (n + 1) p hp (by
        rw [Row.cycle_cfg, (hnext (by rintro rfl; cases hp)).1] at hopen
        omega)) hcycle
    have hplain : perform ((r :: rest).map Row.plain) w = perform (rest.map Row.plain) (r.plain.cycle w) := by
      cases rest with
      | nil => exact (perform_cons ..).trans (ite_self _)
      | cons p rest =>
        refine perform_next ?_
        rw [hcycle.cpu]
        show (r.cycle u).cpu.t ≠ 1
        rw [(hnext (List.cons_ne_nil p rest)).1]
        omega
    rwa [hplain]

/-- The rows of a sequence before the last two read no vector. -/
theorem blind_trapRows (k : Trap) {n : Nat} {r : Row} (hr : (trapRows k)[n]? = some r) (hn : n < 5) : r.Blind := by
  have hfront : ∀ r ∈ (trapRows k).take 5, r.Blind := by
    simp only [trapRows, List.take_succ_cons, List.take_zero, List.forall_mem_cons]
    refine ⟨?_, ?_, ?_, ?_, ?_, nofun⟩ <;> intro c v <;> cases k <;> rfl
  exact hfront r (List.mem_of_getElem? (by rwa [List.getElem?_take_of_lt hn]))

theorem windowCycle_bounds (w : HijackWindow) : 2 ≤ windowCycle w ∧ windowCycle w ≤ 4 := by
  cases w <;> decide

/-- A sequence does what its rows do without selection, when the vector it will select stands in `vec` from the start. -/
theorem perform_trapRows_plain (k : Trap) {s : State} (ht : s.cpu.t = 1) :
    let t := perform (trapRows k) s
    (perform ((trapRows k).map Row.plain) (s.withVec t.cpu.vec)).Follows s.cpu.seq t.cpu.vec t := by
  have hw := (windowCycle_bounds s.cfg.hijackWindow).2
  exact (sequenceRows_trapRows k).follows (fun _ => by omega) (fun _ => rfl)
    (fun n r hr hopen => blind_trapRows k hr (by omega)) ⟨rfl, rfl, rfl, fun _ => rfl⟩

/-- The transactions of a sequence end with the two reads of the vector it has selected, in every environment. -/
theorem transactions_trapRows (k : Trap) {s : State} (ht : s.cpu.t = 1) :
    let t := perform (trapRows k) s
    (transactions t.bus.log).take 2 = [.read (t.cpu.vec + 1), .read t.cpu.vec] := by
  intro t
  have hplain := perform_trapRows_plain k ht
  obtain ⟨bytes, -, hops⟩ :=
    perform_answeredBy ((trapRows k).map Row.plain) (selects_plain _) (s.withVec t.cpu.vec)
  rw [State.performs, hplain.bus] at hops
  rw [hops]
  cases k <;> simp [trapRows, trapFetchRow, trapPushRow, Row.plain, answeredBy, State.withVec, ht]

/-! ## The hijack window (R331) -/

/-- The latches sampled in a cycle are those of its input's samples. -/
theorem State.sampled_cons {s : State} {i : CycleInput} {rest : List CycleInput} (h : s.bus.inputs = i :: rest) :
    s.sampled = i.samples.foldl Latches.sample s.irq := by
  simp [State.sampled, State.serveStalls_irq, Bus.stalls, Bus.nextLines, h, CycleInput.samples]

/-- The latches after cycles that only sample their lines. -/
def Latches.sampleAll (l : Latches) (is : List CycleInput) : Latches :=
  (is.flatMap CycleInput.samples).foldl Latches.sample l

theorem Latches.sampleAll_cons (l : Latches) (i : CycleInput) (is : List CycleInput) :
    l.sampleAll (i :: is) = (i.samples.foldl Latches.sample l).sampleAll is := by
  simp [Latches.sampleAll]

/-- The NMI side of the latches after cycles that only sample their lines. -/
theorem Latches.sampleAll_nmi (l : Latches) (is : List CycleInput) :
    (l.sampleAll is).nmiPending = (l.nmiPending || risingEdge l.nmiPrev (nmiSamples is)) ∧
      (l.sampleAll is).nmiPrev = lastLevel l.nmiPrev (nmiSamples is) := by
  rw [Latches.sampleAll, Latches.foldl_sample]
  exact ⟨rfl, rfl⟩

/-- After the window's cycle an edge waits for the next sequence. -/
theorem SequenceRows.perform_irq {rows : List Row} (h : SequenceRows rows) {u : State}
    (hw : rows ≠ [] → windowCycle u.cfg.hijackWindow < u.cpu.t) (hlen : rows.length ≤ u.bus.inputs.length) :
    (perform rows u).irq = u.irq.sampleAll (u.bus.inputs.take rows.length) := by
  induction rows generalizing u with
  | nil => rfl
  | cons r rest ih =>
    have hdone := hw (List.cons_ne_nil r rest)
    obtain ⟨i, is, hi⟩ := List.exists_cons_of_length_pos (Nat.lt_of_lt_of_le (Nat.succ_pos _) hlen)
    obtain ⟨hperform, hnext⟩ := h.run_cons (s := u) (by omega)
    have hinputs : (r.cycle u).bus.inputs = is := by rw [Row.cycle_inputs, hi]; rfl
    have hw' (hrest : rest ≠ []) : windowCycle (r.cycle u).cfg.hijackWindow < (r.cycle u).cpu.t := by
      rw [Row.cycle_cfg, (hnext hrest).1]
      omega
    rw [hi, List.length_cons, List.length_cons, Nat.add_le_add_iff_right] at hlen
    rw [hperform, ih h.tail hw' (by rwa [hinputs]), hinputs, (h.head.cycle_undecided (by omega)).1,
      State.sampled_cons hi, hi, List.length_cons, List.take_succ_cons, Latches.sampleAll_cons]

/-- A sequence that is no reset, `n` cycles before the window's: the edge latched by the end of that cycle chooses the vector and
is used up; what is sampled afterwards stays latched. -/
theorem SequenceRows.perform_hijack {rows : List Row} (h : SequenceRows rows) {u : State} (hseq : u.cpu.seq ≠ .reset)
    (ht : 1 ≤ u.cpu.t) {n : Nat} (hw : u.cpu.t + n = windowCycle u.cfg.hijackWindow) (hn : n < rows.length)
    (hlen : rows.length ≤ u.bus.inputs.length) :
    let early := u.irq.sampleAll (u.bus.inputs.take (n + 1))
    (perform rows u).cpu.vec = vectorOf early.nmiPending ∧
      (perform rows u).irq =
        Latches.sampleAll { early with nmiPending := false } ((u.bus.inputs.take rows.length).drop (n + 1)) := by
  induction rows generalizing u n with
  | nil => cases hn
  | cons r rest ih =>
    obtain ⟨i, is, hi⟩ := List.exists_cons_of_length_pos (Nat.lt_of_lt_of_le (Nat.succ_pos _) hlen)
    obtain ⟨hperform, hnext⟩ := h.run_cons ht
    have hinputs : (r.cycle u).bus.inputs = is := by rw [Row.cycle_inputs, hi]; rfl
    rw [hi, List.length_cons, List.length_cons, Nat.add_le_add_iff_right] at hlen
    simp only [hperform, hi, List.length_cons, List.take_succ_cons, List.drop_succ_cons, Latches.sampleAll_cons,
      ← State.sampled_cons hi]
    cases n with
    | zero =>
      obtain ⟨hirq, hvec⟩ := h.head.cycle_decides hseq hw
      have hw' (hrest : rest ≠ []) : windowCycle (r.cycle u).cfg.hijackWindow < (r.cycle u).cpu.t := by
        rw [Row.cycle_cfg, (hnext hrest).1]
        omega
      rw [h.tail.perform_vec hw', h.tail.perform_irq hw' (by rwa [hinputs]), hinputs, hirq, hvec]
      exact ⟨rfl, rfl⟩
    | succ n =>
      obtain ⟨ht', hseq'⟩ := hnext (by rintro rfl; simp at hn)
      obtain ⟨hirq, -⟩ := h.head.cycle_undecided (s := u) (by omega)
      have hrest := ih h.tail (u := r.cycle u) (n := n) (by rwa [hseq']) (by omega)
        (by rw [ht', Row.cycle_cfg]; omega) (by simpa using hn) (by rwa [hinputs])
      rwa [hinputs, hirq] at hrest

/-- Settles O16: the seven cycles, cut at the window's. -/
theorem hijackWindow : Obligations.HijackWindow := by
  intro s t hlen hrun w early late v
  have hsequence (k : Trap) (c : Cpu) (ht : c.t = 1) (hseq : c.seq ≠ .reset)
      (hdone : t = perform (trapRows k) { s with cpu := c }) :
      (transactions t.bus.log).take 2 = [.read (v + 1), .read v] ∧
        t.irq.nmiPending = risingEdge (lastLevel s.irq.nmiPrev early) late := by
    subst hdone
    obtain ⟨hfirst, hlast⟩ := windowCycle_bounds s.cfg.hijackWindow
    have hn : w - 1 + 1 = w := Nat.sub_add_cancel (Nat.le_of_succ_le hfirst)
    have hseven := length_trapRows k
    obtain ⟨hvec, hirq⟩ := (sequenceRows_trapRows k).perform_hijack (u := { s with cpu := c }) hseq (by simp [ht])
      (n := w - 1) (by simp only [ht]; omega) (by omega) (by rwa [hseven])
    rw [hn, (Latches.sampleAll_nmi _ _).1] at hvec
    rw [transactions_trapRows k (s := { s with cpu := c }) ht, hvec, hirq, (Latches.sampleAll_nmi _ _).1, hn,
      (Latches.sampleAll_nmi _ _).2, hseven]
    exact ⟨rfl, rfl⟩
  obtain hbrk | ⟨ht, hseq, hint⟩ := hrun
  · exact hsequence .brk s.cpu.start rfl nofun (exec_next hbrk)
  · exact hsequence .int s.cpu ht (by rw [hseq]; nofun) (Host.Outcome.next.inj hint).symm

end Sys2Proof.Machine
end

section
/-! PROOFS. The return from an interrupt sequence (60_exceptions R330, R333): what the sequence pushes, and RTI right after it. -/

namespace Sys2Proof.Machine

/-- The address a sequence that is no reset pushes: BRK steps over its opcode and its padding byte (R330). -/
def Trap.returnTo : Trap → Word → Word
  | .brk, pc => pc + 2
  | .int, pc | .reset, pc => pc

/-- Memory after the three pushes of a sequence: the return address, then the status byte. -/
def Memory.pushFrame (map : AddressMap) (m : Memory) (sp : Byte) (w : Word) (status : Byte) : Memory :=
  Memory.write (Memory.pushWord map m sp w) (cellOf map (stackAddr (sp - 2))) status

/-- The rows of a sequence that is no reset, where memory answers: all but `PC`, which the vector decides. -/
theorem trapRows_values {k : Trap} (hk : k ≠ .reset) (map : AddressMap) {c : Cpu} (m : Memory) (ht : c.t = 1) :
    let after := valuesOf map ((trapRows k).map Row.plain) c m
    after.1.regs = { c.regs with s := c.s - 3, p := { c.p with i := true }, pc := after.1.pc } ∧
      after.2 = Memory.pushFrame map m c.s (k.returnTo c.pc) (pByte (trapB k) c.p) := by
  have hs2 : c.s - 1#8 - 1#8 = c.s - 2#8 := BitVec.sub_sub ..
  have hs3 : c.s - 2#8 - 1#8 = c.s - 3#8 := BitVec.sub_sub ..
  have hpc : c.pc + 1#16 + 1#16 = c.pc + 2#16 := pc_add_two c.pc
  cases k with
  | reset => exact absurd rfl hk
  | brk | int =>
    simp [trapRows, trapFetchRow, trapPushRow, Row.plain, valuesOf, Row.values, Memory.pushFrame, Memory.pushWord, Cpu.regs,
      Trap.returnTo, ht, hs2, hs3, hpc]

/-- A sequence that is no reset, where memory answers. -/
theorem runs_trapRows {k : Trap} (hk : k ≠ .reset) {s : State} (h : s.memoryAnswers) (ht : s.cpu.t = 1) :
    let t := perform (trapRows k) s
    t.regs = { s.regs with s := s.cpu.s - 3, p := { s.cpu.p with i := true }, pc := t.cpu.pc } ∧
      t.bus.mem = Memory.pushFrame s.cfg.map s.bus.mem s.cpu.s (k.returnTo s.cpu.pc) (pByte (trapB k) s.cpu.p) ∧
      t.cfg = s.cfg ∧ t.memoryAnswers := by
  intro t
  have hplain := perform_trapRows_plain k ht
  obtain ⟨hcpu, hmem⟩ := perform_values _ (selects_plain (trapRows k)) (s := s.withVec t.cpu.vec) h
  obtain ⟨hregs, hpushed⟩ := trapRows_values hk s.cfg.map (c := { s.cpu with vec := t.cpu.vec }) s.bus.mem ht
  have hcpu' : t.cpu = (valuesOf s.cfg.map ((trapRows k).map Row.plain) { s.cpu with vec := t.cpu.vec } s.bus.mem).1 :=
    hplain.cpu.symm.trans hcpu
  refine ⟨?_, ?_, perform_cfg _ _, ?_⟩
  · rw [State.regs_eq, hcpu']
    exact hregs
  · rw [← hpushed, ← hplain.bus]
    exact hmem
  · exact perform_keeps (P := fun u => u.memoryAnswers) _ _ (fun r _ _ hu => r.cycle_memoryAnswers hu) h

/-- After the pushes of a sequence the slots above the stack pointer hold the status byte and the return address. -/
theorem State.slots_of_pushFrame {s t : State} {w : Word} {status : Byte} (hwf : Memory.wf s.bus.mem = true)
    (hmem : t.bus.mem = Memory.pushFrame s.cfg.map s.bus.mem s.cpu.s w status) (hcfg : t.cfg = s.cfg)
    (hsp : t.cpu.s = s.cpu.s - 3) : t.slot 1 = status ∧ join (t.slot 3) (t.slot 2) = w := by
  have h1 : s.cpu.s - 3 + 1 = s.cpu.s - 2 := by bv_omega
  have h2 : s.cpu.s - 3 + 2 = s.cpu.s - 1 := by bv_omega
  have h3 : s.cpu.s - 3 + 3 = s.cpu.s := BitVec.sub_add_cancel ..
  have hstatus (b : Byte) (hb : b ≠ s.cpu.s - 2) :
      cellOf s.cfg.map (stackAddr b) ≠ cellOf s.cfg.map (stackAddr (s.cpu.s - 2)) := by
    rw [cellOf_stackAddr, cellOf_stackAddr]
    bv_omega
  simp only [State.slot, State.peek, hmem, hcfg, hsp, h1, h2, h3, Memory.pushFrame]
  refine ⟨Memory.read_write_same _ _ ?_, ?_⟩
  · exact Memory.wf_write _ _ (Memory.wf_write _ _ hwf (cellOf_lt _ _)) (cellOf_lt _ _)
  · rw [Memory.read_write_other _ _ (hstatus _ (by bv_omega)), Memory.read_write_other _ _ (hstatus _ (by bv_omega)),
      Memory.read_pushWord_hi _ _ _ hwf, Memory.read_pushWord_lo _ _ _ hwf, join_hi_lo]

/-- RTI right after a sequence that is no reset gives the registers back, at the address the sequence pushed. -/
theorem returns_from_trapRows {k : Trap} (hk : k ≠ .reset) {s u : State} (h : s.memoryAnswers)
    (hwf : Memory.wf s.bus.mem = true) (ht : s.cpu.t = 1) (hreturn : exec .rti (perform (trapRows k) s) = .next u) :
    u.regs = { s.regs with pc := k.returnTo s.cpu.pc } := by
  obtain ⟨hregs, hmem, hcfg, hanswers⟩ := runs_trapRows hk h ht
  obtain ⟨u', hu, hreturned, -⟩ := returnFromInterruptRuns _ hanswers
  obtain rfl : u = u' := Host.Outcome.next.inj (hreturn.symm.trans hu)
  have hsp : (perform (trapRows k) s).cpu.s = s.cpu.s - 3 := congrArg Regs.s hregs
  obtain ⟨hstatus, hpc⟩ := State.slots_of_pushFrame hwf hmem hcfg hsp
  have hs : s.cpu.s - 3 + 3 = s.cpu.s := BitVec.sub_add_cancel ..
  rw [hreturned, hstatus, hpc, setPFrom_pByte, hsp, hs, hregs]
  rfl

/-- Settles O58: RTI pulls what the sequence pushed, and nothing else of the registers has changed. -/
theorem returnUndoesInterrupt : Obligations.ReturnUndoesInterrupt := by
  intro s t u h hwf ht hreturn
  refine ⟨fun _ hint => ?_, fun hbrk => ?_⟩
  · rw [← Host.Outcome.next.inj hint] at hreturn
    exact returns_from_trapRows (k := .int) nofun h hwf ht hreturn
  · rw [exec_next hbrk] at hreturn
    exact returns_from_trapRows (k := .brk) nofun (s := { s with cpu := s.cpu.start }) h hwf rfl hreturn

end Sys2Proof.Machine
end

section
/-! PROOFS. The reset sequence (70_reset_and_hazards R372, R373): in every environment, and in one that says nothing. -/

namespace Sys2Proof.Machine

theorem State.boundary_of_reset {s : State} (h : s.irq.resetPending = true) :
    s.boundary = { s with
      cpu := { s.cpu with seq := .reset }
      irq := { s.irq with resetPending := false, intReq := false, nmiPending := false }
      cyc := 0 } := if_pos h

/-- The rows of a reset read, whatever the registers. -/
theorem reads_trapRows_reset : ∀ r ∈ trapRows .reset, r.Reads := by
  simp only [trapRows, List.forall_mem_cons]
  exact ⟨{}, {}, {}, {}, {}, {}, {}, nofun⟩

/-- The stall cycles before a cycle store nothing of the core's. -/
theorem State.serveStalls_writesNothing (s : State) : s.writesNothing s.serveStalls :=
  ⟨stallLog s.bus.stalls, s.serveStalls_log, fun _ _ => write_notMem_stallLog _ _ _, s.serveStalls_mem,
    s.serveStalls_mem_alone⟩

theorem State.serveStalls_alone {s : State} (h : s.alone) : s.serveStalls.alone := by
  cases hi : s.bus.inputs with
  | nil => rwa [State.serveStalls_quiet hi]
  | cons i rest =>
    rw [State.alone, hi] at h
    obtain ⟨⟨hwrites, -⟩, hrest⟩ := List.forall_mem_cons.1 h
    rw [State.serveStalls_cons hi]
    exact List.forall_mem_cons.2 ⟨⟨hwrites, nofun⟩, hrest⟩

/-- The registers after a reset, in every environment: the bytes of the vector become `PC`. -/
theorem runs_trapRows_reset {s : State} (ht : s.cpu.t = 1) :
    let t := perform (trapRows .reset) s
    t.regs = { s.regs with s := s.cpu.s - 3, p := { s.cpu.p with i := true }, pc := t.cpu.pc } := by
  intro t
  have hplain := perform_trapRows_plain .reset ht
  obtain ⟨bytes, hcpu, -⟩ :=
    perform_answeredBy ((trapRows .reset).map Row.plain) (selects_plain _) (s.withVec t.cpu.vec)
  have hs2 : s.cpu.s - 1#8 - 1#8 = s.cpu.s - 2#8 := BitVec.sub_sub ..
  have hs3 : s.cpu.s - 2#8 - 1#8 = s.cpu.s - 3#8 := BitVec.sub_sub ..
  have hcpu' : t.cpu = _ := hplain.cpu.symm.trans hcpu
  rw [State.regs_eq, hcpu']
  simp [trapRows, trapFetchRow, trapPushRow, Row.plain, answeredBy, State.withVec, State.regs, Cpu.regs, ht, hs2, hs3]

/-- The registers are those before the stall cycles and the decision. -/
theorem State.beginStep_boundary_regs (s : State) : s.beginStep.boundary.regs = s.regs := by
  simp [State.regs, State.beginStep_cpu]

/-- Settles O13: stall cycles, decision and sequence are reads. -/
theorem resetPreservesMemory : Obligations.ResetPreservesMemory := by
  intro s ht hreset
  have hboundary := State.boundary_of_reset hreset
  have hseq : s.beginStep.boundary.cpu.seq = .reset := by rw [hboundary]
  have ht' : s.beginStep.boundary.cpu.t = 1 := by rw [State.boundary_t, State.beginStep_cpu, ht]
  have hstalls : s.anew.writesNothing s.beginStep.boundary := by
    rw [hboundary]
    exact s.anew.serveStalls_writesNothing
  have halone (h : s.anew.alone) : s.beginStep.boundary.alone := by
    rw [State.alone, State.boundary_bus]
    exact State.serveStalls_alone h
  have hreads : s.beginStep.boundary.writesNothing (perform (trapRows .reset) s.beginStep.boundary) :=
    perform_writesNothing _ _ fun r hr => (reads_trapRows_reset r hr).bus
  have hregs := runs_trapRows_reset ht'
  rw [State.beginStep_boundary_regs, State.boundary_s, State.boundary_p, State.beginStep_cpu] at hregs
  refine ⟨_, step_reset ht hseq, State.writesNothing_trans hstalls (by simp [State.beginStep]) halone hreads,
    congrArg Regs.a hregs, congrArg Regs.x hregs, congrArg Regs.y hregs, congrArg Regs.s hregs, congrArg Regs.p hregs, ?_,
    perform_boundary (tableLike_trapRows .reset) (Nat.le_of_eq ht'.symm)⟩
  rw [perform_trapRows_intReq, State.boundary_intReq (by rw [hseq]; nofun)]

/-- The rows of a reset, where memory answers: `PC` from the vector, memory as it was, seven reads (newest first). -/
theorem trapRows_reset_values (map : AddressMap) {c : Cpu} (m : Memory) (ht : c.t = 1) (hvec : c.vec = 0xFFFC) :
    let rd := fun a => Memory.read m (cellOf map a)
    let rows := (trapRows .reset).map Row.plain
    (valuesOf map rows c m).1.pc = join (rd 0xFFFD) (rd 0xFFFC) ∧ (valuesOf map rows c m).2 = m ∧
      trafficOf map rows c m =
        [.read 0xFFFD (rd 0xFFFD), .read 0xFFFC (rd 0xFFFC), .read (stackAddr (c.s - 2)) (rd (stackAddr (c.s - 2))),
         .read (stackAddr (c.s - 1)) (rd (stackAddr (c.s - 1))), .read (stackAddr c.s) (rd (stackAddr c.s)),
         .read c.pc (rd c.pc), .read c.pc (rd c.pc)] := by
  have hs2 : c.s - 1#8 - 1#8 = c.s - 2#8 := BitVec.sub_sub ..
  simp [trapRows, trapFetchRow, trapPushRow, Row.plain, valuesOf, trafficOf, Row.values, Row.traffic, ht, hvec, hs2]

/-- No row of a reset polls. -/
theorem pollsOf_trapRows_reset (cfg : Config) (bytes : Stream' Byte) {c : Cpu} (ht : c.t = 1) :
    pollsOf cfg ((trapRows .reset).map Row.plain) bytes c = List.replicate 7 none := by
  simp [trapRows, trapFetchRow, trapPushRow, Row.plain, pollsOf, ht, List.replicate]

/-- In silence a log of transactions stays one: there are no stall cycles and no other agents. -/
theorem perform_quiet_log (rows : List Row) {s : State} (hquiet : s.quiet) (hlog : activeCycles s.bus.log = s.bus.log) :
    (perform rows s).quiet ∧ activeCycles (perform rows s).bus.log = (perform rows s).bus.log := by
  refine perform_keeps (P := fun u => u.quiet ∧ activeCycles u.bus.log = u.bus.log) rows s (fun r _ u hu => ?_)
    ⟨hquiet, hlog⟩
  obtain ⟨hi, hactive⟩ := hu
  refine ⟨by rw [State.quiet, Row.cycle_inputs, hi]; rfl, ?_⟩
  rw [Row.cycle_active, hactive, Row.cycle_log, Row.cycleLog]
  simp [Bus.nextWrites, Bus.stalls, show u.bus.inputs = [] from hi, othersLogged, stallLog]

/-- A reset in silence: the seven reads, and the latches of one sample of the lines. -/
theorem runs_trapRows_reset_quiet {s : State} (hquiet : s.quiet) (hlog : s.bus.log = []) (ht : s.cpu.t = 1)
    (hseq : s.cpu.seq = .reset) :
    let t := perform (trapRows .reset) s
    t.cpu.pc = join (s.peek 0xFFFD) (s.peek 0xFFFC) ∧ t.bus.mem = s.bus.mem ∧ t.irq = s.irq.sample s.bus.lines ∧
      t.bus.log =
        [.read 0xFFFD (s.peek 0xFFFD), .read 0xFFFC (s.peek 0xFFFC),
         .read (stackAddr (s.cpu.s - 2)) (s.peek (stackAddr (s.cpu.s - 2))),
         .read (stackAddr (s.cpu.s - 1)) (s.peek (stackAddr (s.cpu.s - 1))),
         .read (stackAddr s.cpu.s) (s.peek (stackAddr s.cpu.s)),
         .read s.cpu.pc (s.peek s.cpu.pc), .read s.cpu.pc (s.peek s.cpu.pc)] := by
  intro t
  obtain ⟨hfirst, hlast⟩ := windowCycle_bounds s.cfg.hijackWindow
  have hvec : t.cpu.vec = resetVector :=
    (sequenceRows_trapRows .reset).perform_vec_reset hseq (by omega) (by omega) (by rw [length_trapRows]; omega)
  have hplain := perform_trapRows_plain .reset ht
  have hanswers : (s.withVec t.cpu.vec).memoryAnswers := State.quiet_memoryAnswers hquiet
  obtain ⟨hcpu, hmem⟩ := perform_values _ (selects_plain (trapRows .reset)) hanswers
  have htraffic := perform_traffic _ (selects_plain (trapRows .reset)) hanswers
  obtain ⟨hpc, hsame, hreads⟩ :=
    trapRows_reset_values s.cfg.map (c := (s.withVec t.cpu.vec).cpu) s.bus.mem ht hvec
  obtain ⟨bytes, -, hirq⟩ := perform_latches _ (selects_plain (trapRows .reset)) (s.withVec t.cpu.vec)
  obtain ⟨-, hactive⟩ := perform_quiet_log (trapRows .reset) hquiet (by rw [hlog]; rfl)
  rw [hplain.cpu] at hcpu
  rw [hplain.bus] at hmem htraffic
  rw [hplain.irq hseq, pollsOf_trapRows_reset _ _ (c := (s.withVec t.cpu.vec).cpu) ht] at hirq
  refine ⟨(congrArg Cpu.pc hcpu).trans hpc, hmem.trans hsame, ?_, ?_⟩
  · have hinputs : (s.withVec t.cpu.vec).bus.inputs = [] := hquiet
    have hunpolled : some false ∉ List.replicate 7 (none : Option Bool) := by simp
    rw [hinputs, Latches.run_steady (i := false) _ _ (by simp) (by simp [pollAt]), if_neg hunpolled] at hirq
    exact hirq
  · have hnone : activeCycles (s.withVec t.cpu.vec).bus.log = [] := congrArg activeCycles hlog
    rw [← hactive, htraffic, hnone, List.append_nil]
    exact hreads

/-- The state in which a reset begins, in silence (R112). -/
def State.resetting (s : State) : State :=
  { s.anew with
    cpu := { s.cpu with seq := .reset }
    irq := { s.irq with resetPending := false, intReq := false, nmiPending := false }
    cyc := 0 }

theorem step_resetting {s : State} (hquiet : s.quiet) (ht : s.cpu.t = 1) (hreset : s.irq.resetPending = true) :
    step s = takeTrap .reset s.resetting := by
  have hstart : s.beginStep.boundary = s.resetting := by
    rw [State.beginStep_quiet hquiet]
    exact State.boundary_of_reset (s := s.anew) hreset
  rw [step_reset ht (by rw [hstart]; rfl), hstart]

/-- Settles O12: in silence the decision leaves the registers, and the sequence is seven reads under steady lines. -/
theorem resetSequence : Obligations.ResetSequence := by
  intro s hquiet ht hreset
  let t := perform (trapRows .reset) s.resetting
  have hregs : t.regs = _ := runs_trapRows_reset (s := s.resetting) ht
  obtain ⟨hpc, hmem, hirq, hlog⟩ := runs_trapRows_reset_quiet (s := s.resetting) hquiet rfl ht rfl
  have hcounted : t.CountedFrom 0 0 :=
    perform_keeps _ _ (fun r _ _ hu => r.cycle_countedFrom hu) ⟨0, rfl, rfl⟩
  obtain ⟨n, hseven, hcyc⟩ := hcounted
  have hn : n = 7 := by
    rw [hlog] at hseven
    simpa using hseven.symm
  refine ⟨t, step_resetting hquiet ht hreset, ?_, hmem, ?_, perform_boundary (tableLike_trapRows .reset) (Nat.le_of_eq ht.symm),
    ?_, ?_⟩
  · rw [hregs, hpc]
    rfl
  · rw [hcyc, hn]
    rfl
  · rw [hirq]
    simp [Latches.sample, State.resetting, State.anew]
  · have hslot : s.slot 0 = s.peek (stackAddr s.cpu.s) := congrArg (fun b => s.peek (stackAddr b)) (BitVec.add_zero _)
    rw [hlog, hslot]
    rfl

end Sys2Proof.Machine
end
